-- ==== Sys2Proof/Word.lean ====
section
/-!
DEFINITION. The widths of 00_scope.md R6: bytes, 32-bit words and 64-bit lanes are bit vectors, whose `+`, `-`, `*`
wrap as R7 says (`add8`, `sub8`, `mul8`, `add32`, `sub32`) and whose `&&&`, `|||`, `^^^`, `~~~` are the bitwise
operations of R6. Counts, lengths, indices and the key integer are natural numbers.
-/

namespace Sys2Proof

/-- A byte, an integer in 0..255 (00_scope.md R6). -/
abbrev Byte := BitVec 8

/-- A word, an integer in 0..2^32-1 (00_scope.md R6). -/
abbrev Word := BitVec 32

/-- A lane of the sponge state, an integer in 0..2^64-1 (00_scope.md R6). -/
abbrev Lane := BitVec 64

/-- A byte sequence, first byte first (00_scope.md R14). -/
abbrev Bytes := List Byte

/-- `e_i`, the word with only bit `i` set (00_scope.md R6). -/
def unitWord (i : Nat) : Word := 1#32 <<< i

/-- `rotr32` (00_scope.md R8). -/
def rotr32 (v : Word) (n : Nat) : Word := v.rotateRight n

/-- `rotl64` (00_scope.md R8). -/
def rotl64 (v : Lane) (n : Nat) : Lane := v.rotateLeft n

end Sys2Proof
end

