-- ==== Sys2Proof/Machine/Bytes.lean ====
section
/-!
DEFINITION. The byte-order helpers and integer functions of 00_scope.md R9 to R12. They are exact integer arithmetic;
which helper each unit uses is fixed in 20_memory.md R54 to R57.
-/

namespace Sys2Proof.Machine

/-- `LE32` of four bytes (00_scope.md R9). -/
def le32 (b0 b1 b2 b3 : Byte) : Word := b3 ++ b2 ++ b1 ++ b0

/-- `BE32` of four bytes (00_scope.md R9). -/
def be32 (b0 b1 b2 b3 : Byte) : Word := b0 ++ b1 ++ b2 ++ b3

/-- `w[8i+7 : 8i]` (00_scope.md R6). -/
def wordByte (w : Word) (i : Nat) : Byte := w.extractLsb' (8 * i) 8

/-- `toLE32` (00_scope.md R9). -/
def toLE32 (w : Word) : Bytes := [wordByte w 0, wordByte w 1, wordByte w 2, wordByte w 3]

/-- `toBE32` (00_scope.md R9). -/
def toBE32 (w : Word) : Bytes := [wordByte w 3, wordByte w 2, wordByte w 1, wordByte w 0]

/-- `LEbytes`: words serialised little-endian (20_memory.md R55). -/
def leBytes (ws : List Word) : Bytes := ws.flatMap toLE32

/-- Words assembled little-endian from each group of four bytes (20_memory.md R55). -/
def leWords : Bytes → List Word
  | b0 :: b1 :: b2 :: b3 :: rest => le32 b0 b1 b2 b3 :: leWords rest
  | _ => []

/-- `LEnat` (00_scope.md R9). -/
def leNat : Bytes → Nat
  | [] => 0
  | b :: bs => b.toNat + 256 * leNat bs

/-- `popcount` of a natural number: how many bits are 1 (00_scope.md R10). -/
def popNat (n : Nat) : Nat := (List.range (n.log2 + 1)).countP fun i => n.testBit i

/-- `popcount` of a byte sequence: the sum over its bytes (00_scope.md R10). -/
def popBytes (bs : Bytes) : Nat := (bs.map fun b => popNat b.toNat).sum

/-- The bits of the root of `n` from bit `k - 1` down, added to the part `r` already found. -/
def isqrtFrom (n : Nat) : Nat → Nat → Nat
  | 0, r => r
  | k + 1, r => if (r + 2 ^ k) * (r + 2 ^ k) ≤ n then isqrtFrom n k (r + 2 ^ k) else isqrtFrom n k r

/-- `isqrt`: the largest `r` with `r*r ≤ n` (00_scope.md R11). -/
def isqrt (n : Nat) : Nat := isqrtFrom n (n.log2 / 2 + 1) 0

/-- `clog2`: the least `m` with `2^m ≥ n`, for `n ≥ 1` (00_scope.md R12); no rule evaluates it at 0. -/
def clog2 (n : Nat) : Nat := if n ≤ 1 then 0 else (n - 1).log2 + 1

end Sys2Proof.Machine
end

