-- ==== Sys2Proof/Config.lean ====
section
/-!
DEFINITION. The implementation parameters of 00_scope.md R4 with the constraints of R5, and the two free values of the
model: the implementation's configuration and the order in which the lanes of a threaded batch run. Neither has a
body that Lean could evaluate, so whatever is proved holds for every configuration R5 admits and for every
interleaving.
-/

namespace Sys2Proof

/-- Parameter `PRIME_RULE` (00_scope.md R4; 42_subst_keystream_rounds.md R163). -/
inductive PrimeRule where
  /-- The set of primes as §4.5 of the source states it (the spec's default). -/
  | truePrimes
  /-- Primes up to 137, then every integer above. -/
  | referenceLiteral
deriving DecidableEq, Repr

/-- The names of the five byte buffers (10_state.md R24). -/
inductive BufName where
  | key
  | buf
  | ext
  | msg
  | dig
deriving DecidableEq, Repr

/-- What has a bus address: a register by its number of 10_state.md R35, or a byte buffer (00_scope.md R4, `REGMAP`). -/
inductive BusTarget where
  | register (r : Fin 22)
  | buffer (b : BufName)
deriving DecidableEq, Repr

/-- A configuration: the parameters of 00_scope.md R4, each with the constraint R4 or R5 puts on it. A value that
breaks a constraint cannot be built (R5: "no rule gives it a meaning"). A capacity of `none` is unbounded.
The default values only show that a configuration exists; the model never uses them. -/
structure Config where
  /-- `ADDC`: four sets of 32 additive constants. -/
  addc : Vector (Vector Word 32) 4 := Vector.replicate 4 (Vector.replicate 32 0)
  /-- `MIXC`: four sets of 32 mixing constants. -/
  mixc : Vector (Vector Word 32) 4 := Vector.replicate 4 (Vector.replicate 32 0)
  /-- `SBOX`: the fixed substitution box. -/
  sbox : Vector Byte 256 := Vector.ofFn fun i => BitVec.ofNat 8 i.val
  /-- R5 (a): `SBOX` is a permutation of 0..255. -/
  sbox_nodup : sbox.toList.Nodup := by decide +kernel
  /-- `SIGMA_ROT`: four sets of rotation amounts in 0..31, each listed without repeats. -/
  sigmaRot : Vector (List (Fin 32)) 4 := Vector.replicate 4 [0]
  /-- Each of `S_0 .. S_3` is a set. -/
  sigmaRot_nodup : ∀ k : Fin 4, sigmaRot[k].Nodup := by decide
  /-- R5 (b): each of `S_0 .. S_3` has an odd number of elements. -/
  sigmaRot_odd : ∀ k : Fin 4, sigmaRot[k].length % 2 = 1 := by decide
  /-- `PRIME_RULE`. -/
  primeRule : PrimeRule := .truePrimes
  /-- `KEY_MAX`. -/
  keyMax : Option Nat := none
  /-- `BUF_MAX`. -/
  bufMax : Option Nat := none
  /-- R4: `BUF_MAX` is at least 256 if it is finite. -/
  bufMax_ge : ∀ m, bufMax = some m → 256 ≤ m := by simp
  /-- `MSG_MAX`. -/
  msgMax : Option Nat := none
  /-- `DIG_MAX`. -/
  digMax : Option Nat := none
  /-- `LEN_BITS`: the width of register `LEN`. -/
  lenBits : Option Nat := none
  /-- `NITEMS_MAX`: the capacity of the batch item table. -/
  nitemsMax : Option Nat := none
  /-- `NLANES`: no result depends on it (44_cipher_batch.md R220), so no definition reads it
  (log 14). -/
  nlanes : Nat := 1
  /-- R4: there is at least one lane. -/
  nlanes_pos : 1 ≤ nlanes := by decide
  /-- `REGMAP`: the bus addresses of registers and buffers; no rule depends on it (00_scope.md R4, 20_memory.md R62), so no
  definition reads it (log 14). -/
  regmap : BusTarget → Nat := fun _ => 0
deriving Inhabited

/-- The configuration of the implementation: a free value (00_scope.md R4: the parameters are OPEN; log 4, log 5).
Safe: what is proved holds for every configuration R5 admits. -/
opaque Config.impl : Config

/-- The order in which the workers of a threaded batch take their turns, each entry the index of the worker that
processes its next item, as a function of `NBLOCK` and `NITEMS`: a free value (44_cipher_batch.md R220: the
interleaving is unconstrained; log 11). Safe. Workers with items left when it ends finish in index order. -/
opaque Config.laneSchedule : Nat → Nat → List Nat

end Sys2Proof
end

