-- ==== Sys2Proof/Syntax.lean ====
section
/-!
DEFINITION. The commands of the block (30_encoding.md R73), one constructor per row of spec/opcode_table.json, with
the arguments of R72 as the values they encode. The seven assembler pseudo-instructions of R78 are rows of the table
too and stand last; the decoder never answers one (`Instr.wellFormed`, `Instr.expand`).
-/

namespace Sys2Proof

/-- Argument `mode` of SPINIT and HASH and register `SPMODE` (30_encoding.md R72, 10_state.md R21). -/
inductive SpongeMode where
  /-- 0: fixed-output finalize. -/
  | fixed
  /-- 1: XOF finalize. -/
  | xof
deriving DecidableEq, Repr

/-- Argument `exec` of BENC and BDEC (30_encoding.md R72). -/
inductive ExecMode where
  /-- 0: the workers run one after another. -/
  | seq
  /-- 1: the workers run concurrently. -/
  | thr
deriving DecidableEq, Repr

/-- The 2-bit mixing-function tag `k` (41_constants_sigma.md R136); also the constant-set selector (R120). -/
abbrev Tag := Fin 4

/-- The commands of 30_encoding.md R73 and the pseudo-instructions of R78, which are constructors of their own.
DESIGN CHOICE (log 10). Safe: the decoder never answers one. -/
inductive Instr where
  | kf
  /-- `sec` is the raw security code: all 256 values decode (R72), 5..255 are unsupported levels. -/
  | spinit (mode : SpongeMode) (sec : Byte)
  | spabs
  | spfin
  | hash (mode : SpongeMode) (sec : Byte)
  | dcsel
  | dcext
  | dssel
  | dtgen
  | dks
  | drnd
  | csclr
  | sig (k : Tag)
  | isig (k : Tag)
  | linv
  | st1
  | st2
  | st3
  | st4
  | st5
  | ist1
  | ist2
  | ist3
  | ist4
  | enc
  | dec
  | benc (exec : ExecMode)
  | bdec (exec : ExecMode)
  /-- Pseudo-instruction of R78: another spelling of ST5. -/
  | ist5
  /-- Pseudo-instruction of R78: HASH FIXED, 224. -/
  | sha3_224
  /-- Pseudo-instruction of R78: HASH FIXED, 256. -/
  | sha3_256
  /-- Pseudo-instruction of R78: HASH FIXED, 384. -/
  | sha3_384
  /-- Pseudo-instruction of R78: HASH FIXED, 512. -/
  | sha3_512
  /-- Pseudo-instruction of R78: HASH XOF, 128. -/
  | shake128
  /-- Pseudo-instruction of R78: HASH XOF, 256. -/
  | shake256
deriving DecidableEq, Repr

end Sys2Proof
end

