-- ==== Sys2Proof/Machine/State.lean ====
section
/-!
DEFINITION. The state of the block as plain data: everything 10_state.md R20 lists, and the two fields of the model's
own (`pending`, `reply`). Reset values are those of R39. A cipher-state group whose valid bit is 0 "holds no value"
(R27): that is the value `none` of its field, so the valid bits of `CSV` are read off the groups (`CipherState.csv`).
-/

namespace Sys2Proof.Machine

/-- The block has no fault: every command ends in success or in one error reported in `ERR`, which is a next state
(60_exceptions.md R230), and no access of any rule leaves its buffer (20_memory.md R52). No constructor: nothing raises
one. -/
inductive Fault where
deriving DecidableEq, Repr

/-- Why the model gives no step. Except for `notModelled` these are the refusals of 20_memory.md R66: "a refused
operation has no effect and gives the host no value; a model gives it no step". Safe: a claim about a run that contains
one says nothing. -/
inductive Refusal where
  /-- An instruction that has no meaning yet, by its mnemonic; raised by no arm of this model. Safe. -/
  | notModelled (mnemonic : String)
  /-- HostLoad of more bytes than the buffer's finite capacity parameter (R66); raised by `hostLoad`. Safe. -/
  | loadExceedsCapacity
  /-- HostRead of a byte at or above the buffer's length (R66); raised by `hostReadByte`. Safe. -/
  | readBeyondLength
  /-- HostSetReg of a value that does not fit the register's width (R66); raised by `hostSetReg`. Safe. -/
  | valueExceedsWidth
  /-- HostGetReg of a register whose valid bit is 0 (R66); raised by `hostGetReg`. Safe. -/
  | registerHoldsNoValue
  /-- HostGetArr of an index out of range, or of an array whose valid bit is 0 (R66); raised by `hostGetArr`. Safe. -/
  | elementHoldsNoValue
  /-- HostLoadItems of a list longer than `NITEMS_MAX` or with a field beyond its capacity (R66); raised by
  `hostLoadItems`. Safe. -/
  | itemsExceedCapacity
deriving DecidableEq, Repr

/-- The 25 lanes of the 1600-bit state, lane `x + 5*y` at column `x`, row `y` (10_state.md R21). -/
abbrev Lanes := Vector Lane 25

/-- Register `SPPHASE` (10_state.md R21). -/
inductive Phase where
  /-- 0: not constructed. -/
  | idle
  /-- 1: constructed, accepting input. -/
  | absorbing
  /-- 2: finalized. -/
  | done
deriving DecidableEq, Repr

/-- Register `SPSEC`: the five security levels (10_state.md R21, 30_encoding.md R72). -/
inductive SecLevel where
  | sec128
  | sec224
  | sec256
  | sec384
  | sec512
deriving DecidableEq, Repr

/-- The sponge context (10_state.md R21). -/
structure Sponge where
  /-- `A[0..24]`. -/
  lanes : Lanes
  /-- `SPMODE`. -/
  mode : SpongeMode
  /-- `SPSEC`. -/
  sec : SecLevel
  /-- `SPPOS`. -/
  pos : Nat
  /-- `SPPHASE`. -/
  phase : Phase
deriving DecidableEq, Repr

/-- The five byte buffers (10_state.md R24). A buffer is its bytes; its length register is their number. A byte at or
above the length does not exist. There is no unified address space (20_memory.md R50). DEDUCED (log 3). Safe. -/
structure Memory where
  /-- `KEY`, `KEYLEN`. -/
  key : Bytes
  /-- `BUF`, `BUFLEN`. -/
  buf : Bytes
  /-- `EXT`, `EXTLEN`. -/
  ext : Bytes
  /-- `MSG`, `MSGLEN`. -/
  msg : Bytes
  /-- `DIG`, `DIGLEN`. -/
  dig : Bytes
deriving DecidableEq, Repr

/-- The two tables of valid bit `V_T` (10_state.md R26). -/
structure KeyTables where
  /-- `NKEY`: the key normalised to 256 bytes. -/
  nkey : Vector Byte 256
  /-- `T`: the keyed additive transform table. -/
  table : Vector Byte 256
deriving DecidableEq, Repr

/-- The four registers of valid bit `V_RND` (10_state.md R26). -/
structure RoundRegs where
  /-- `KINT`: the key as an integer. -/
  kint : Nat
  /-- `BITCNT`: the number of set bits of `KINT`. -/
  bitcnt : Nat
  /-- `RCOUNT`: the round count. -/
  rcount : Nat
  /-- `ROUNDS`: the number of Stage 3 repetitions. -/
  rounds : Nat
deriving DecidableEq, Repr

/-- The cipher-state registers by group (10_state.md R26, R27); `none` is "holds no value", the group's valid bit 0.
DEDUCED (log 6). Safe: a register without a value can be read by nothing. -/
structure CipherState where
  /-- `CSEL`, valid bit `V_CSEL`. -/
  csel : Option Tag
  /-- `ADDX` with `ADDXLEN`, valid bit `V_ADDX`. -/
  addx : Option (List Word)
  /-- `SSEL`, valid bit `V_SSEL`. -/
  ssel : Option Tag
  /-- `NKEY` and `T`, valid bit `V_T`. -/
  tables : Option KeyTables
  /-- `KS` with `KSLEN`, valid bit `V_KS`. -/
  ks : Option Bytes
  /-- `KINT`, `BITCNT`, `RCOUNT`, `ROUNDS`, valid bit `V_RND`. -/
  rounds : Option RoundRegs
deriving DecidableEq, Repr

/-- `CSV = 0`: no cipher-state register holds a value (10_state.md R28). -/
def CipherState.empty : CipherState := ⟨none, none, none, none, none, none⟩

/-- One item of the batch table (10_state.md R34). -/
structure Item where
  /-- `IKEY`. -/
  key : Bytes
  /-- `IBUF`. -/
  data : Bytes
  /-- `IEXT`. -/
  ext : Bytes
  /-- `IERR`. -/
  err : Byte
deriving DecidableEq, Repr

/-- The buffers HostLoad writes (20_memory.md R66). -/
inductive LoadName where
  | key
  | buf
  | ext
  | msg
deriving DecidableEq, Repr

/-- The registers HostSetReg writes (20_memory.md R66). -/
inductive SetName where
  | len
  | w
  | nblock
deriving DecidableEq, Repr

/-- The arrays HostGetArr reads (20_memory.md R66, 10_state.md R30). HostGetArr has one index `i`, and the spec does not say
how it reaches the catalog tables with two, `ADDC`, `MIXC` and `INVB`: here the set or tag is part of the array's name and
`i` the index inside it. DESIGN CHOICE (log 22). Unsafe: hardware that numbers all 128 words with one index accepts index 32.
Element `i` of an item field is the whole field of item `i` (log 20). -/
inductive ArrName where
  /-- `A`. -/
  | lanes
  /-- `FB`. -/
  | fb
  /-- `IB`. -/
  | ib
  /-- `NKEY`. -/
  | nkey
  /-- `T`. -/
  | table
  /-- `ADDX`. -/
  | addx
  /-- `KS`. -/
  | ks
  /-- Catalog `ADDC[set]`. -/
  | addc (set : Tag)
  /-- Catalog `MIXC[set]`. -/
  | mixc (set : Tag)
  /-- Catalog `SBOX`. -/
  | sbox
  /-- Catalog `ISBOX`. -/
  | isbox
  /-- Catalog `INVB[k]`. -/
  | invb (k : Tag)
  /-- Catalog `RC`. -/
  | rc
  /-- Catalog `RHO`. -/
  | rho
  /-- `IKEY` of the items. -/
  | ikey
  /-- `IBUF` of the items. -/
  | ibuf
  /-- `IEXT` of the items. -/
  | iext
  /-- `IERR` of the items. -/
  | ierr
deriving DecidableEq, Repr

/-- The operations of the host, the closed table of 20_memory.md R66. -/
inductive HostOp where
  /-- `HostLoad(B, s)`. -/
  | load (b : LoadName) (s : Bytes)
  /-- `HostRead(B)`. -/
  | read (b : BufName)
  /-- `HostRead(B, i)`. -/
  | readByte (b : BufName) (i : Nat)
  /-- `HostSetReg(r, v)`. -/
  | setReg (r : SetName) (v : Nat)
  /-- `HostSetFB(i, w)`. -/
  | setFB (i : Fin 32) (w : Word)
  /-- `HostGetReg(r)`, `r` a register number of 10_state.md R35. -/
  | getReg (r : Fin 22)
  /-- `HostGetArr(X, i)`. -/
  | getArr (x : ArrName) (i : Nat)
  /-- `HostLoadItems(list of (key, data, ext))`. -/
  | loadItems (items : List (Bytes × Bytes × Bytes))
  /-- `HostIssue(cw)`. -/
  | issue (cw : Word)
  /-- Reset (70_reset_and_hazards.md R260). -/
  | reset
deriving DecidableEq, Repr

/-- What a host read returns: a number (a register, a word, a lane, a byte) or a byte sequence. -/
inductive Reply where
  | number (n : Nat)
  | bytes (s : Bytes)
deriving DecidableEq, Repr

/-- The state of the block (10_state.md R20), and the two model fields. -/
structure State where
  /-- The sponge context (R21). -/
  sponge : Sponge
  /-- The five byte buffers (R24). -/
  mem : Memory
  /-- `LEN` (R25). -/
  len : Nat
  /-- `W` (R25). -/
  w : Word
  /-- The cipher-state registers and their valid bits (R26, R27). -/
  cipher : CipherState
  /-- `FB[0..31]` (R32). -/
  fb : Vector Word 32
  /-- `IB[0..31]` (R32); `none` is `V_IB = 0`, "holds no value". -/
  ib : Option (Vector Word 32)
  /-- `ERR` (R33). -/
  err : Byte
  /-- `ERRINFO` (R33). -/
  errInfo : Word
  /-- `NBLOCK` (R34). -/
  nblock : Nat
  /-- The item table, `NITEMS` its length (R34). -/
  items : List Item
  /-- The MODEL's field: the host's operations still to be performed, the next one first (20_memory.md R63, R66).
  DESIGN CHOICE (log 1). Safe: no command reads it. -/
  pending : List HostOp
  /-- The MODEL's field: the value the latest operation returned to the host, `none` if it returned none.
  DESIGN CHOICE (log 9). Safe: no command reads it. -/
  reply : Option Reply
deriving DecidableEq, Repr

/-- The sponge context after reset (10_state.md R39). -/
def Sponge.reset : Sponge := ⟨Vector.replicate 25 0, .fixed, .sec128, 0, .idle⟩

/-- Every buffer empty (10_state.md R39). -/
def Memory.empty : Memory := ⟨[], [], [], [], []⟩

/-- The state after reset (10_state.md R39, 70_reset_and_hazards.md R261); nothing pending, no reply. -/
def State.reset : State where
  sponge := Sponge.reset
  mem := Memory.empty
  len := 0
  w := 0
  cipher := CipherState.empty
  fb := Vector.replicate 32 0
  ib := none
  err := 0
  errInfo := 0
  nblock := 1
  items := []
  pending := []
  reply := none

end Sys2Proof.Machine
end

