-- ==== Sys2Proof/Machine/Operands.lean ====
section
/-!
DEFINITION. The operands of the commands: security codes and what they stand for (30_encoding.md R72, 40_sponge.md
R94, R103), the catalog tables (10_state.md R30, 00_scope.md R5), the buffers by name, and the capacity test
(20_memory.md R51).
-/

namespace Sys2Proof.Machine

/-- The security code of field `b` (30_encoding.md R72); codes 5..255 are unsupported levels. -/
def secOfCode (b : Byte) : Option SecLevel :=
  match b.toNat with
  | 0 => some .sec128
  | 1 => some .sec224
  | 2 => some .sec256
  | 3 => some .sec384
  | 4 => some .sec512
  | _ => none

/-- The code of register `SPSEC` (10_state.md R21). -/
def SecLevel.code : SecLevel → Nat
  | .sec128 => 0
  | .sec224 => 1
  | .sec256 => 2
  | .sec384 => 3
  | .sec512 => 4

/-- `sec(SPSEC)` in bits (30_encoding.md R72). -/
def SecLevel.bits : SecLevel → Nat
  | .sec128 => 128
  | .sec224 => 224
  | .sec256 => 256
  | .sec384 => 384
  | .sec512 => 512

/-- Capacity words, `2 * sec / 64` (10_state.md R22). -/
def SecLevel.capacityWords (l : SecLevel) : Nat := 2 * l.bits / 64

/-- The rate in bytes, `8 * (25 - capw)` (10_state.md R22, 40_sponge.md R94). -/
def SecLevel.rate (l : SecLevel) : Nat := 8 * (25 - l.capacityWords)

/-- The supported combinations of mode and level (40_sponge.md R103): fixed output not at 128, XOF at all five. -/
def supported (mode : SpongeMode) (l : SecLevel) : Bool :=
  match mode, l with
  | .fixed, .sec128 => false
  | _, _ => true

/-- The level of a supported pair of `mode` and code `b`, `none` where SPINIT and HASH reject it (40_sponge.md R95). -/
def supportedLevel (mode : SpongeMode) (b : Byte) : Option SecLevel :=
  match secOfCode b with
  | some l => if supported mode l then some l else none
  | none => none

/-- The value of register `SPMODE` (10_state.md R21). -/
def modeBit : SpongeMode → Nat
  | .fixed => 0
  | .xof => 1

/-- The value of register `SPPHASE` (10_state.md R21). -/
def Phase.code : Phase → Nat
  | .idle => 0
  | .absorbing => 1
  | .done => 2

/-- `SBOX[x]` (10_state.md R30). -/
def sboxAt (c : Config) (x : Byte) : Byte := c.sbox[x.toNat]

/-- `ISBOX[y]`: the index of `y` in `SBOX` (00_scope.md R5 (a)). -/
def isboxAt (c : Config) (y : Byte) : Byte := BitVec.ofNat 8 (c.sbox.toList.idxOf y)

/-- The additive set `ADDC[set]` as a word sequence (10_state.md R30). -/
def addcSet (c : Config) (set : Tag) : List Word := c.addc[set].toList

/-- `MIXC[set][i mod 32]` (20_memory.md R53). -/
def mixcAt (c : Config) (set : Tag) (i : Nat) : Word := (c.mixc[set])[i % 32]

/-- The contents of a buffer (10_state.md R24); its length register is their number. -/
def Memory.get (m : Memory) : BufName → Bytes
  | .key => m.key
  | .buf => m.buf
  | .ext => m.ext
  | .msg => m.msg
  | .dig => m.dig

/-- `B <- s`: the contents of a buffer and its length together (00_scope.md R15, 20_memory.md R51). -/
def Memory.put (m : Memory) (b : BufName) (s : Bytes) : Memory :=
  match b with
  | .key => { m with key := s }
  | .buf => { m with buf := s }
  | .ext => { m with ext := s }
  | .msg => { m with msg := s }
  | .dig => { m with dig := s }

/-- The buffer a load names (20_memory.md R66). -/
def LoadName.target : LoadName → BufName
  | .key => .key
  | .buf => .buf
  | .ext => .ext
  | .msg => .msg

/-- Byte `i` of a buffer, if it exists (10_state.md R24, 20_memory.md R66). -/
def Memory.byte? (m : Memory) (b : BufName) (i : Nat) : Option Byte := (m.get b)[i]?

/-- Whether `n` is within a capacity; `none` is unbounded (00_scope.md R4, 20_memory.md R51). -/
def within (cap : Option Nat) (n : Nat) : Bool :=
  match cap with
  | none => true
  | some m => decide (n ≤ m)

/-- The capacity parameter of a buffer the host loads (10_state.md R24): `EXT` has none, its 255 is the largest usable
length and not a limit of the storage. DEDUCED (log 13). Unsafe: hardware with a finite `EXT` would refuse a longer load. -/
def loadCapacity (c : Config) : LoadName → Option Nat
  | .key => c.keyMax
  | .buf => c.bufMax
  | .ext => none
  | .msg => c.msgMax

/-- `BUFLEN` and its like as the 32-bit detail of an error (60_exceptions.md R231: "low 32 bits"). -/
def low32 (n : Nat) : Word := BitVec.ofNat 32 n

end Sys2Proof.Machine
end

