-- ==== Sys2Proof/Machine/Keccak.lean ====
section
/-!
DEFINITION. The Keccak-f[1600] permutation and the byte-oriented sponge as pure functions (40_sponge.md R90 to R101).
The tables and step functions are the spec's own, which it marks as general knowledge confirmed by the source's
vector (R106). TESTED (log 15). Safe.
-/

namespace Sys2Proof.Machine

/-- The round constant `RC[ir]` of a round (40_sponge.md R91); the last arm is round 23. -/
def roundConstant (ir : Fin 24) : Lane :=
  match ir.val with
  | 0 => 0x0000000000000001
  | 1 => 0x0000000000008082
  | 2 => 0x800000000000808A
  | 3 => 0x8000000080008000
  | 4 => 0x000000000000808B
  | 5 => 0x0000000080000001
  | 6 => 0x8000000080008081
  | 7 => 0x8000000000008009
  | 8 => 0x000000000000008A
  | 9 => 0x0000000000000088
  | 10 => 0x0000000080008009
  | 11 => 0x000000008000000A
  | 12 => 0x000000008000808B
  | 13 => 0x800000000000008B
  | 14 => 0x8000000000008089
  | 15 => 0x8000000000008003
  | 16 => 0x8000000000008002
  | 17 => 0x8000000000000080
  | 18 => 0x000000000000800A
  | 19 => 0x800000008000000A
  | 20 => 0x8000000080008081
  | 21 => 0x8000000000008080
  | 22 => 0x0000000080000001
  | _ => 0x8000000080008008

/-- `RHO[x+5y]`: how far the rho step rotates the lane at column `x`, row `y`; one arm per row of the table
(40_sponge.md R92). -/
def rotationOffset (x y : Fin 5) : Nat :=
  let row : Vector Nat 5 := match y with
    | 0 => #v[0, 1, 62, 28, 27]
    | 1 => #v[36, 44, 6, 55, 20]
    | 2 => #v[3, 10, 43, 25, 39]
    | 3 => #v[41, 45, 15, 21, 8]
    | 4 => #v[18, 2, 61, 56, 14]
  row[x]

/-- The lane index `x + 5*y` (40_sponge.md R90). -/
def laneIndex (x y : Fin 5) : Fin 25 := ⟨x.val + 5 * y.val, by omega⟩

/-- The lanes given by a function of column and row. -/
def laneTable (f : Fin 5 → Fin 5 → Lane) : Lanes :=
  Vector.ofFn fun i => f ⟨i.val % 5, by omega⟩ ⟨i.val / 5, by omega⟩

/-- Step theta; index arithmetic is modulo 5 (40_sponge.md R90). -/
def theta (a : Lanes) : Lanes :=
  let parity : Vector Lane 5 := Vector.ofFn fun x =>
    a[laneIndex x 0] ^^^ a[laneIndex x 1] ^^^ a[laneIndex x 2] ^^^ a[laneIndex x 3] ^^^ a[laneIndex x 4]
  let mix : Vector Lane 5 := Vector.ofFn fun x => parity[x + 4] ^^^ rotl64 parity[x + 1] 1
  laneTable fun x y => a[laneIndex x y] ^^^ mix[x]

/-- Steps rho and pi (40_sponge.md R90), read at the destination: the rule sends lane `(x, y)` to
`(y, 2x+3y)`, so the lane at `(u, v)` comes from `(u+3v, u)`. -/
def rhoPi (a : Lanes) : Lanes :=
  laneTable fun u v => rotl64 a[laneIndex (u + 3 * v) u] (rotationOffset (u + 3 * v) u)

/-- Step chi (40_sponge.md R90). -/
def chi (b : Lanes) : Lanes :=
  laneTable fun x y => b[laneIndex x y] ^^^ (~~~b[laneIndex (x + 1) y] &&& b[laneIndex (x + 2) y])

/-- Step iota with the round's constant (40_sponge.md R90). -/
def iota (a : Lanes) (rc : Lane) : Lanes := a.set 0 (a[0] ^^^ rc)

/-- Round `ir` (40_sponge.md R90). -/
def keccakRound (a : Lanes) (ir : Fin 24) : Lanes := iota (chi (rhoPi (theta a))) (roundConstant ir)

/-- `KeccakF`: the rounds 0 to 23 in this order (40_sponge.md R90). -/
def keccakF (a : Lanes) : Lanes := (List.finRange 24).foldl keccakRound a

/-- State byte `sb(j)`, `j` in 0..199 (10_state.md R23). There is no byte at 200 or above, and no reachable state asks for
one. DESIGN CHOICE for that case (log 17). Safe. -/
def stateByte (a : Lanes) (j : Nat) : Byte :=
  if h : j / 8 < 25 then a[j / 8].extractLsb' (8 * (j % 8)) 8 else 0

/-- `XorByte(j, v)`, `j` in 0..199 (10_state.md R23). DESIGN CHOICE for `j` of 200 or above, which no reachable state asks for
(log 17). Safe. -/
def xorByte (a : Lanes) (j : Nat) (v : Byte) : Lanes :=
  if h : j / 8 < 25 then a.set (j / 8) (a[j / 8] ^^^ (v.setWidth 64 <<< (8 * (j % 8)))) else a

/-- A sponge state and the position in its block (40_sponge.md R96). -/
abbrev AbsorbState := Lanes × Nat

/-- The body of `Absorb` for one byte (40_sponge.md R96): the permutation runs as soon as the block is full. -/
def absorbByte (r : Nat) (st : AbsorbState) (v : Byte) : AbsorbState :=
  if st.2 + 1 = r then (keccakF (xorByte st.1 st.2 v), 0) else (xorByte st.1 st.2 v, st.2 + 1)

/-- `Absorb((A, pos), r, data)` (40_sponge.md R96). -/
def absorb (r : Nat) (st : AbsorbState) (data : Bytes) : AbsorbState := data.foldl (absorbByte r) st

/-- The domain-and-first-pad byte (40_sponge.md R98). -/
def domainByte : SpongeMode → Byte
  | .fixed => 0x06
  | .xof => 0x1F

/-- `Pad((A, pos), r, mode)` (40_sponge.md R98). -/
def pad (r : Nat) (mode : SpongeMode) (st : AbsorbState) : Lanes :=
  keccakF (xorByte (xorByte st.1 st.2 (domainByte mode)) (r - 1) 0x80)

/-- The loop of `Squeeze` with `n` bytes still to come, the next one at index `j` of the block (40_sponge.md R99). -/
def squeezeFrom (r : Nat) : Nat → Nat → Lanes → Bytes × Lanes
  | 0, _, a => ([], a)
  | n + 1, j, a =>
    if j = r then
      let rest := squeezeFrom r n 1 (keccakF a)
      (stateByte (keccakF a) 0 :: rest.1, rest.2)
    else
      let rest := squeezeFrom r n (j + 1) a
      (stateByte a j :: rest.1, rest.2)

/-- `Squeeze(A, r, L)`: the output and the last permuted state (40_sponge.md R99). -/
def squeeze (r : Nat) (a : Lanes) (n : Nat) : Bytes × Lanes := squeezeFrom r n 0 a

/-- `0^25` (40_sponge.md R101). -/
def zeroLanes : Lanes := Vector.replicate 25 0

/-- The hash of `m` at a level, of `n` bytes, by a private sponge instance (40_sponge.md R101, 10_state.md R38). -/
def spongeHash (mode : SpongeMode) (l : SecLevel) (m : Bytes) (n : Nat) : Bytes :=
  (squeeze l.rate (pad l.rate mode (absorb l.rate (zeroLanes, 0) m)) n).1

/-- `SHA3(sec, M)`: `sec/8` bytes (40_sponge.md R101). -/
def sha3 (l : SecLevel) (m : Bytes) : Bytes := spongeHash .fixed l m (l.bits / 8)

/-- `SHAKE(sec, M, L)` (40_sponge.md R101). -/
def shake (l : SecLevel) (m : Bytes) (n : Nat) : Bytes := spongeHash .xof l m n

end Sys2Proof.Machine
end

