-- ==== Sys2Proof/Machine/Flags.lean ====
section
/-!
DEFINITION. The flag-like state (10_state.md R37): the six valid bits of `CSV` (R27) and `V_IB` (R32), which are read
off the groups they belong to. `SPPHASE` and `ERR` are fields of their own. There are no arithmetic flags.
-/

namespace Sys2Proof.Machine

/-- One valid bit in its place. -/
def validBit {α : Type} (group : Option α) (bit : Nat) : BitVec 6 :=
  if group.isSome then 1#6 <<< bit else 0

/-- Register `CSV` (10_state.md R27): bit 0 `V_CSEL`, 1 `V_ADDX`, 2 `V_SSEL`, 3 `V_T`, 4 `V_KS`, 5 `V_RND`. -/
def CipherState.csv (cs : CipherState) : BitVec 6 :=
  validBit cs.csel 0 ||| validBit cs.addx 1 ||| validBit cs.ssel 2 |||
    validBit cs.tables 3 ||| validBit cs.ks 4 ||| validBit cs.rounds 5

/-- Mask of `V_CSEL`. -/
def vCSEL : BitVec 6 := 0x01
/-- Mask of `V_ADDX`. -/
def vADDX : BitVec 6 := 0x02
/-- Mask of `V_SSEL`. -/
def vSSEL : BitVec 6 := 0x04
/-- Mask of `V_T`. -/
def vT : BitVec 6 := 0x08
/-- Mask of `V_KS`. -/
def vKS : BitVec 6 := 0x10
/-- Mask of `V_RND`. -/
def vRND : BitVec 6 := 0x20

/-- The needed bits of `CSV` that are 0, as the detail of a SequenceError (43_pipeline_stages.md R180,
60_exceptions.md R236). -/
def CipherState.missing (cs : CipherState) (needed : BitVec 6) : Word := (needed &&& ~~~cs.csv).setWidth 32

/-- `V_IB` (10_state.md R32). -/
def State.vIB (s : State) : Bool := s.ib.isSome

end Sys2Proof.Machine
end

