-- ==== Sys2Proof/Machine/Ops.lean ====
section
/-!
DEFINITION. What every command shares: the errors and their codes (60_exceptions.md R231), the end of a command,
which is where an error is taken (R242), the access primitives of memory (20_memory.md R52), and the writes to buffers and
to the cipher state.
-/

namespace Sys2Proof.Machine

/-- The errors of 60_exceptions.md R231. -/
inductive ErrCode where
  | invalidKey
  | invalidCiphertext
  | unsupportedDigestParameter
  | illegalCommand
  | sequenceError
  | singularMap
  | invalidExtension
  | batchItemFailed
  | capacityExceeded
deriving DecidableEq, Repr

/-- The value of `ERR` for each error; 0 is success (60_exceptions.md R231). -/
def ErrCode.num : ErrCode → Byte
  | .invalidKey => 1
  | .invalidCiphertext => 2
  | .unsupportedDigestParameter => 3
  | .illegalCommand => 4
  | .sequenceError => 5
  | .singularMap => 6
  | .invalidExtension => 7
  | .batchItemFailed => 8
  | .capacityExceeded => 9

/-- An error with its 32-bit detail: what `raise E(d)` raises (00_scope.md R15). -/
structure CmdError where
  /-- Goes to `ERR` as `code.num`. -/
  code : ErrCode
  /-- Goes to `ERRINFO`. -/
  info : Word
deriving DecidableEq, Repr

/-- InvalidKey: detail 0 the key is empty, 1 its SHAKE128 digest has no set bit (60_exceptions.md R232). -/
def invalidKey (detail : Word) : CmdError := ⟨.invalidKey, detail⟩
/-- InvalidCiphertext: detail 0 length 0, 1 trailer longer than the buffer (60_exceptions.md R233). -/
def invalidCiphertext (detail : Word) : CmdError := ⟨.invalidCiphertext, detail⟩
/-- UnsupportedDigestParameter with the command word (60_exceptions.md R234). -/
def unsupportedDigest (cw : Word) : CmdError := ⟨.unsupportedDigestParameter, cw⟩
/-- IllegalCommand with the command word (60_exceptions.md R235). -/
def illegalCommand (cw : Word) : CmdError := ⟨.illegalCommand, cw⟩
/-- SequenceError with its mask (60_exceptions.md R236). -/
def sequenceError (mask : Word) : CmdError := ⟨.sequenceError, mask⟩
/-- SingularMap (60_exceptions.md R237). -/
def singularMap : CmdError := ⟨.singularMap, 0⟩
/-- InvalidExtension with the extension's length (60_exceptions.md R238). -/
def invalidExtension (extLen : Nat) : CmdError := ⟨.invalidExtension, low32 extLen⟩
/-- BatchItemFailed with the least failing index (60_exceptions.md R240). -/
def batchItemFailed (i : Nat) : CmdError := ⟨.batchItemFailed, low32 i⟩
/-- CapacityExceeded (60_exceptions.md R239). -/
def capacityExceeded : CmdError := ⟨.capacityExceeded, 0⟩

/-- The end of a command (60_exceptions.md R230, R242; 10_state.md R33). On success the state `t` the command's rule
wrote, with `ERR = ERRINFO = 0`; on an error the state `s` the command leaves in that case, with only `ERR` and
`ERRINFO` written. This is the block's exception entry: nothing is saved, nothing is masked, and the next command
finds the engine ready, so there is no return to model (R243). -/
def State.commit (s : State) (r : Except CmdError State) : State :=
  match r with
  | .ok t => { t with err := 0, errInfo := 0 }
  | .error e => { s with err := e.code.num, errInfo := e.info }

/-- `MemRead(B, i, n)`: the bytes `B[i..i+n)` (20_memory.md R52), `none` where its precondition `i + n ≤ |B|` fails. -/
def memRead (m : Memory) (b : BufName) (i n : Nat) : Option Bytes :=
  if i + n ≤ (m.get b).length then some (((m.get b).drop i).take n) else none

/-- `MemWrite(B, i, n, v)`: the `n` bytes from index `i` become `v`, the length stays (20_memory.md R52); `none` where a
precondition, `|v| = n` or `i + n ≤ |B|`, fails. Every command of the block replaces a whole buffer, so no meaning calls it. -/
def memWrite (m : Memory) (b : BufName) (i n : Nat) (v : Bytes) : Option Memory :=
  if v.length = n ∧ i + n ≤ (m.get b).length then
    some (m.put b ((m.get b).take i ++ v ++ (m.get b).drop (i + n)))
  else none

/-- `BUF <- b`: contents and length together (00_scope.md R15, 20_memory.md R51). -/
def State.setBuf (s : State) (b : Bytes) : State := { s with mem := s.mem.put .buf b }

/-- `DIG <- d` (00_scope.md R15). -/
def State.setDig (s : State) (d : Bytes) : State := { s with mem := s.mem.put .dig d }

/-- `CSV <- 0` (10_state.md R28). -/
def State.clearCsv (s : State) : State := { s with cipher := CipherState.empty }

/-- A command that writes `BUF` with the result of a pure function, or raises its error. -/
def State.commitBuf (s : State) (r : Except CmdError Bytes) : State :=
  s.commit (match r with
    | .ok b => .ok (s.setBuf b)
    | .error e => .error e)

/-- Every command of the block ends in a next state (60_exceptions.md R230). -/
def finish (s : State) : Host.Outcome State Fault Refusal := .next s

end Sys2Proof.Machine
end

