-- ==== Sys2Proof/Machine/Derive.lean ====
section
/-!
DEFINITION. The derivation units: constant-set selector, constant extension, mixing-function selector
(41_constants_sigma.md R120 to R127), keyed substitution generator, keystream generator, round counter
(42_subst_keystream_rounds.md R150 to R167): DCSEL, DCEXT, DSSEL, DTGEN, DKS, DRND, CSCLR.
-/

namespace Sys2Proof.Machine

/-- `csel(K)` (41_constants_sigma.md R120). -/
def csel (key : Bytes) : Tag :=
  ⟨(key.map fun b => b.toNat % 4).sum % 4, Nat.mod_lt _ (by decide)⟩

/-- One append of the constant extension: the 32-byte digest of all words so far, as 8 words
(41_constants_sigma.md R122). -/
def extendOnce (ws : List Word) : List Word := ws ++ leWords (shake .sec256 (leBytes ws) 32)

/-- The loop of `cext` with at most the given number of appends (41_constants_sigma.md R122). -/
def cextFrom (target : Nat) : Nat → List Word → List Word
  | 0, ws => ws
  | n + 1, ws => if 4 * ws.length < target then cextFrom target n (extendOnce ws) else ws

/-- `cext(base, target)` (41_constants_sigma.md R122). Each append adds 32 bytes, so `target` appends are more than
the loop takes (70_reset_and_hazards.md R271). -/
def cext (base : List Word) (target : Nat) : List Word := cextFrom target target base

/-- `ssel(K)` (41_constants_sigma.md R125); InvalidKey(1) where the digest has no set bit (R126). -/
def ssel (key : Bytes) : Except CmdError Tag :=
  let hb := popBytes (shake .sec128 key 16)
  if hb = 0 then .error (invalidKey 1)
  else .ok ⟨popBytes key % hb % 4, Nat.mod_lt _ (by decide)⟩

/-- `s[i..j)` (00_scope.md R14). -/
def slice (s : Bytes) (i j : Nat) : Bytes := (s.drop i).take (j - i)

/-- `nkey(K)` as a sequence (42_subst_keystream_rounds.md R150 to R152). DESIGN CHOICE for the empty key, for which no command
evaluates it (log 18). Safe. -/
def nkeyBytes (key : Bytes) : Bytes :=
  let n := key.length
  if n < 256 then
    let filler := key.getD ((key.getD (n - 1) 0).toNat % n) 0
    key ++ List.replicate (256 - n) filler
  else if n = 256 then key
  else
    let q := n / 4
    shake .sec256 (slice key 0 q) 64 ++ shake .sec256 (slice key q (2 * q)) 64 ++
      shake .sec256 (slice key (2 * q) (3 * q)) 64 ++ shake .sec256 (slice key (3 * q) (4 * q)) 64

/-- A 256-byte register from a sequence of 256 bytes. -/
def bytes256 (s : Bytes) : Vector Byte 256 := Vector.ofFn fun i => s.getD i.val 0

/-- `nkey(K)`: the key normalised to exactly 256 bytes (42_subst_keystream_rounds.md R150). -/
def nkey (key : Bytes) : Vector Byte 256 := bytes256 (nkeyBytes key)

/-- `M(i, j) = mul8(SBOX[i], NK[j])` (42_subst_keystream_rounds.md R153). -/
def keyMatrix (c : Config) (nk : Vector Byte 256) (i j : Byte) : Byte := sboxAt c i * nk[j.toNat]

/-- `shift_value` (42_subst_keystream_rounds.md R155). -/
def shiftValue (v0 v1 v2 : Byte) : Byte :=
  BitVec.ofNat 8 (isqrt (v0.toNat * v0.toNat + v1.toNat * v1.toNat + v2.toNat * v2.toNat))

/-- `shift_value(shift_vector(s))` (42_subst_keystream_rounds.md R154, R155). -/
def shiftAt (c : Config) (nk : Vector Byte 256) (s : Byte) : Byte :=
  let v0 := keyMatrix c nk 0 s
  let v1 := keyMatrix c nk s 0
  shiftValue v0 v1 (keyMatrix c nk v0 v1)

/-- `n` further entries of the chain, from index `i` on, after the entry `prev` (42_subst_keystream_rounds.md R156). -/
def chainFrom (c : Config) (nk : Vector Byte 256) : Nat → Nat → Byte → Bytes
  | 0, _, _ => []
  | n + 1, i, prev =>
    let t := shiftAt c nk (prev + BitVec.ofNat 8 i)
    t :: chainFrom c nk n (i + 1) t

/-- The transform table as a sequence (42_subst_keystream_rounds.md R156). -/
def tableBytes (c : Config) (nk : Vector Byte 256) : Bytes :=
  let t0 := shiftAt c nk 0
  t0 :: chainFrom c nk 255 1 t0

/-- `tgen(K)` (42_subst_keystream_rounds.md R156). -/
def tgen (c : Config) (key : Bytes) : KeyTables := ⟨nkey key, bytes256 (tableBytes c (nkey key))⟩

/-- The AND-result of one keystream round: the `rs` bytes before the latest digest block with its first `rs` bytes
(42_subst_keystream_rounds.md R158). -/
def andWindow (rs : Nat) (s : Bytes) : Bytes :=
  List.zipWith (· &&& ·) (slice s (s.length - 32 - rs) (s.length - 32)) (slice s (s.length - 32) (s.length - 32 + rs))

/-- The loop of `keystream` with at most the given number of rounds (42_subst_keystream_rounds.md R158). -/
def keystreamFrom (n rs : Nat) : Nat → Bytes → Bytes
  | 0, s => s
  | k + 1, s => if s.length < n then keystreamFrom n rs k (s ++ sha3 .sec256 (andWindow rs s)) else s

/-- `keystream(K, n)` (42_subst_keystream_rounds.md R158). Each round adds 32 bytes, so `n` rounds are more than the
loop takes (70_reset_and_hazards.md R271). -/
def keystream (key : Bytes) (n : Nat) : Bytes :=
  if n ≤ key.length then key.take n
  else (keystreamFrom n (min key.length 32) n (key ++ sha3 .sec256 key)).take n

/-- A prime by trial division up to its root. -/
def isPrime (p : Nat) : Bool := decide (2 ≤ p) && (List.range (isqrt p + 1)).all fun d => decide (d < 2) || p % d != 0

/-- The candidates `P(h)` in rising order (42_subst_keystream_rounds.md R163). -/
def primeSet (rule : PrimeRule) (h : Nat) : List Nat :=
  (List.range (h + 1)).filter fun p =>
    match rule with
    | .truePrimes => isPrime p
    | .referenceLiteral => if p ≤ 137 then isPrime p else true

/-- The round count (42_subst_keystream_rounds.md R164). -/
def roundCount (rule : PrimeRule) (bc : Nat) : Nat := ((primeSet rule (bc / 2)).map fun p => bc % p).sum

/-- The repetition count (42_subst_keystream_rounds.md R165). -/
def repetitions (rcount : Nat) : Nat := if rcount = 0 then 1 else 1 + clog2 rcount

/-- The round registers of a key (42_subst_keystream_rounds.md R161 to R166). -/
def roundRegs (c : Config) (key : Bytes) : RoundRegs :=
  let kint := leNat key
  let bc := popNat kint
  let rc := roundCount c.primeRule bc
  ⟨kint, bc, rc, repetitions rc⟩

/-- A derivation command: the empty key first (60_exceptions.md R232), then its result into the cipher state. -/
def derive (s : State) (r : Except CmdError CipherState) : State :=
  s.commit (if s.mem.key = [] then .error (invalidKey 0)
    else match r with
      | .ok cs => .ok { s with cipher := cs }
      | .error e => .error e)

/-- DCSEL (41_constants_sigma.md R121). -/
def runDcsel (s : State) : State := derive s (.ok { s.cipher with csel := some (csel s.mem.key) })

/-- DCEXT (41_constants_sigma.md R124). -/
def runDcext (c : Config) (s : State) : State :=
  derive s (.ok { s.cipher with
    csel := some (csel s.mem.key), addx := some (cext (addcSet c (csel s.mem.key)) s.len) })

/-- DSSEL (41_constants_sigma.md R127). -/
def runDssel (s : State) : State :=
  derive s (match ssel s.mem.key with
    | .ok k => .ok { s.cipher with ssel := some k }
    | .error e => .error e)

/-- DTGEN (42_subst_keystream_rounds.md R157). -/
def runDtgen (c : Config) (s : State) : State := derive s (.ok { s.cipher with tables := some (tgen c s.mem.key) })

/-- DKS (42_subst_keystream_rounds.md R160). -/
def runDks (s : State) : State := derive s (.ok { s.cipher with ks := some (keystream s.mem.key s.len) })

/-- DRND (42_subst_keystream_rounds.md R166). -/
def runDrnd (c : Config) (s : State) : State := derive s (.ok { s.cipher with rounds := some (roundRegs c s.mem.key) })

/-- CSCLR (42_subst_keystream_rounds.md R167). -/
def runCsclr (s : State) : State := s.commit (.ok s.clearCsv)

/-- DCSEL, 41_constants_sigma.md R121. -/
def execDcsel (s : State) : Host.Outcome State Fault Refusal := finish (runDcsel s)
/-- DCEXT, 41_constants_sigma.md R124. -/
def execDcext (s : State) : Host.Outcome State Fault Refusal := finish (runDcext Config.impl s)
/-- DSSEL, 41_constants_sigma.md R127. -/
def execDssel (s : State) : Host.Outcome State Fault Refusal := finish (runDssel s)
/-- DTGEN, 42_subst_keystream_rounds.md R157. -/
def execDtgen (s : State) : Host.Outcome State Fault Refusal := finish (runDtgen Config.impl s)
/-- DKS, 42_subst_keystream_rounds.md R160. -/
def execDks (s : State) : Host.Outcome State Fault Refusal := finish (runDks s)
/-- DRND, 42_subst_keystream_rounds.md R166. -/
def execDrnd (s : State) : Host.Outcome State Fault Refusal := finish (runDrnd Config.impl s)
/-- CSCLR, 42_subst_keystream_rounds.md R167. -/
def execCsclr (s : State) : Host.Outcome State Fault Refusal := finish (runCsclr s)

end Sys2Proof.Machine
end

