-- ==== Sys2Proof/Machine/Sigma.lean ====
section
/-!
DEFINITION. The mixing functions, their inverses by basis vectors, and the GF(2) linear-map inverter
(41_constants_sigma.md R128 to R136): SIG, ISIG, LINV.
-/

namespace Sys2Proof.Machine

/-- The XOR of the words `f 0, .., f 31` over the set bits of `x`: a GF(2)-linear map given by its columns
(41_constants_sigma.md R131, R134). -/
def xorOverBits (f : Vector Word 32) (x : Word) : Word :=
  (List.finRange 32).foldl (fun acc i => if x.getLsbD i.val then acc ^^^ f[i] else acc) 0

/-- The XOR of the right-rotations of `x` by the amounts of a set (41_constants_sigma.md R128). -/
def xorRotations (amounts : List (Fin 32)) (x : Word) : Word :=
  amounts.foldl (fun acc r => acc ^^^ rotr32 x r.val) 0

/-- `sigma_k` (41_constants_sigma.md R128). -/
def sigma (c : Config) (k : Tag) (x : Word) : Word := xorRotations c.sigmaRot[k] x

/-- A row of the augmented system (41_constants_sigma.md R134): `f comb = img`. -/
structure Row where
  img : Word
  comb : Word
deriving DecidableEq, Repr

/-- The rows `(F[j], e_j)` (41_constants_sigma.md R134). -/
def startRows (f : Vector Word 32) : Vector Row 32 := Vector.ofFn fun j => ⟨f[j], unitWord j.val⟩

/-- The least `r ≥ bit` whose image has that bit set (41_constants_sigma.md R134). -/
def findPivot (bit : Fin 32) (rows : Vector Row 32) : Option (Fin 32) :=
  (List.finRange 32).find? fun r => decide (bit ≤ r) && (rows[r]).img.getLsbD bit.val

/-- Clear the bit in every row but the pivot's (41_constants_sigma.md R134). -/
def eliminate (bit : Fin 32) (rows : Vector Row 32) : Vector Row 32 :=
  Vector.ofFn fun r =>
    if r ≠ bit ∧ (rows[r]).img.getLsbD bit.val = true then
      ⟨(rows[r]).img ^^^ (rows[bit]).img, (rows[r]).comb ^^^ (rows[bit]).comb⟩
    else rows[r]

/-- One pivot of the elimination; `none` where there is no pivot: the map is singular (41_constants_sigma.md R134). -/
def pivotStep (bit : Fin 32) (rows : Vector Row 32) : Option (Vector Row 32) :=
  match findPivot bit rows with
  | none => none
  | some p => some (eliminate bit (rows.swap bit.val p.val))

/-- The elimination over a list of bits, in order. -/
def eliminateAll : List (Fin 32) → Vector Row 32 → Option (Vector Row 32)
  | [], rows => some rows
  | bit :: bits, rows =>
    match pivotStep bit rows with
    | none => none
    | some rows' => eliminateAll bits rows'

/-- `lininv(F)`: the columns of the inverse map, or `none` where the columns of `F` are linearly dependent
(41_constants_sigma.md R134). -/
def lininv (f : Vector Word 32) : Option (Vector Word 32) :=
  (eliminateAll (List.finRange 32) (startRows f)).map fun rows => rows.map Row.comb

/-- The columns `sigma_k(e_i)` (10_state.md R31). -/
def sigmaColumns (c : Config) (k : Tag) : Vector Word 32 := Vector.ofFn fun i => sigma c k (unitWord i.val)

/-- `INVB[k]`, derived (10_state.md R31, 41_constants_sigma.md R133). The inverse exists for every configuration
(00_scope.md R5 (b)), so the second case does not arise (lemma `lininv_sigmaColumns`). DESIGN CHOICE (log 16). Safe. -/
def invb (c : Config) (k : Tag) : Vector Word 32 :=
  match lininv (sigmaColumns c k) with
  | some g => g
  | none => Vector.replicate 32 0

/-- `isigma_k`, the inverse by basis vectors (41_constants_sigma.md R131). -/
def isigma (c : Config) (k : Tag) (x : Word) : Word := xorOverBits (invb c k) x

/-- SIG (41_constants_sigma.md R129). -/
def runSig (c : Config) (k : Tag) (s : State) : State := s.commit (.ok { s with w := sigma c k s.w })

/-- ISIG (41_constants_sigma.md R132). -/
def runIsig (c : Config) (k : Tag) (s : State) : State := s.commit (.ok { s with w := isigma c k s.w })

/-- LINV (41_constants_sigma.md R135); a failing LINV leaves `V_IB = 0` (60_exceptions.md R237). -/
def runLinv (s : State) : State :=
  State.commit { s with ib := none } (match lininv s.fb with
    | none => .error singularMap
    | some g => .ok { s with ib := some g })

/-- SIG, 41_constants_sigma.md R129. -/
def execSig (k : Tag) (s : State) : Host.Outcome State Fault Refusal := finish (runSig Config.impl k s)
/-- ISIG, 41_constants_sigma.md R132. -/
def execIsig (k : Tag) (s : State) : Host.Outcome State Fault Refusal := finish (runIsig Config.impl k s)
/-- LINV, 41_constants_sigma.md R135. -/
def execLinv (s : State) : Host.Outcome State Fault Refusal := finish (runLinv s)

end Sys2Proof.Machine
end

