-- ==== Sys2Proof/Machine/Stages.lean ====
section
/-!
DEFINITION. The five stages and their inverses as pure functions on byte sequences, and the commands that apply them
to `BUF` (43_pipeline_stages.md): ST1 to ST5, IST1 to IST4, and the pseudo-instruction IST5 (30_encoding.md R78).
-/

namespace Sys2Proof.Machine

/-- `CB[i mod |CB|]` of the constants `X` (43_pipeline_stages.md R181, 20_memory.md R53). -/
def constantByte (x : List Word) (i : Nat) : Byte := (leBytes x).getD (i % (leBytes x).length) 0

/-- `S1` (43_pipeline_stages.md R181). -/
def stage1 (x : List Word) (b : Bytes) : Bytes := b.mapIdx fun i v => v + constantByte x i

/-- `IS1` (43_pipeline_stages.md R183). -/
def invStage1 (x : List Word) (b : Bytes) : Bytes := b.mapIdx fun i v => v - constantByte x i

/-- The mask of trailing element `i`: the low byte of the mixed constant (43_pipeline_stages.md R185). -/
def trailMask (c : Config) (set k : Tag) (i : Nat) : Byte := wordByte (sigma c k (mixcAt c set i)) 0

/-- `S2` from element `i` on: four bytes are one element while four are left, then each byte is one
(43_pipeline_stages.md R185; byte order 20_memory.md R56). -/
def stage2From (c : Config) (set k : Tag) : Nat → Bytes → Bytes
  | i, b0 :: b1 :: b2 :: b3 :: rest =>
    toLE32 (sigma c k (be32 b0 b1 b2 b3 + mixcAt c set i)) ++ stage2From c set k (i + 1) rest
  | i, tail => tail.mapIdx fun t v => v + trailMask c set k (i + t)

/-- `S2` (43_pipeline_stages.md R185). -/
def stage2 (c : Config) (set k : Tag) (b : Bytes) : Bytes := stage2From c set k 0 b

/-- `IS2` from element `i` on (43_pipeline_stages.md R187); the trailing bytes use the forward function's mask. -/
def invStage2From (c : Config) (set k : Tag) : Nat → Bytes → Bytes
  | i, b0 :: b1 :: b2 :: b3 :: rest =>
    toBE32 (isigma c k (le32 b0 b1 b2 b3) - mixcAt c set i) ++ invStage2From c set k (i + 1) rest
  | i, tail => tail.mapIdx fun t v => v - trailMask c set k (i + t)

/-- `IS2` (43_pipeline_stages.md R187). -/
def invStage2 (c : Config) (set k : Tag) (b : Bytes) : Bytes := invStage2From c set k 0 b

/-- `rotl_seq`: the first byte moves to the end (43_pipeline_stages.md R189). -/
def rotlSeq : Bytes → Bytes
  | [] => []
  | v :: rest => rest ++ [v]

/-- `rotr_seq`: the last byte moves to the front (43_pipeline_stages.md R191). -/
def rotrSeq (b : Bytes) : Bytes :=
  match b.getLast? with
  | none => []
  | some v => v :: b.dropLast

/-- `rounds` iterations of Stage 3: substitute, then rotate (43_pipeline_stages.md R189). -/
def substRotate (c : Config) : Nat → Bytes → Bytes
  | 0, b => b
  | n + 1, b => substRotate c n (rotlSeq (b.map (sboxAt c)))

/-- `S3` (43_pipeline_stages.md R189). -/
def stage3 (c : Config) (rounds : Nat) (t : Vector Byte 256) (b : Bytes) : Bytes :=
  (substRotate c rounds b).mapIdx fun i v => v + t[i % 256]

/-- `rounds` iterations of Stage 3's inverse: rotate, then substitute (43_pipeline_stages.md R191). -/
def invSubstRotate (c : Config) : Nat → Bytes → Bytes
  | 0, b => b
  | n + 1, b => invSubstRotate c n ((rotrSeq b).map (isboxAt c))

/-- `IS3` (43_pipeline_stages.md R191). -/
def invStage3 (c : Config) (rounds : Nat) (t : Vector Byte 256) (b : Bytes) : Bytes :=
  invSubstRotate c rounds (b.mapIdx fun i v => v - t[i % 256])

/-- `S4` (43_pipeline_stages.md R193), for an extension of at most 255 bytes. -/
def stage4 (x b : Bytes) : Bytes := b ++ x ++ [BitVec.ofNat 8 x.length]

/-- `IS4` (43_pipeline_stages.md R195). -/
def invStage4 (b : Bytes) : Except CmdError Bytes :=
  match b.getLast? with
  | none => .error (invalidCiphertext 0)
  | some e =>
    if b.length < e.toNat + 1 then .error (invalidCiphertext 1)
    else .ok (b.take (b.length - e.toNat - 1))

/-- `S5`, its own inverse, for sequences of equal length (43_pipeline_stages.md R197). -/
def stage5 (ks b : Bytes) : Bytes := List.zipWith (· ^^^ ·) b ks

/-- Stage 1 or its inverse as a command: `need V_ADDX` (43_pipeline_stages.md R182, R184). -/
def withAddx (s : State) (f : List Word → Bytes) : State :=
  s.commitBuf (match s.cipher.addx with
    | some x => .ok (f x)
    | none => .error (sequenceError (s.cipher.missing vADDX)))

/-- Stage 2 or its inverse as a command: `need V_CSEL, V_SSEL` (43_pipeline_stages.md R186, R188). -/
def withSelectors (s : State) (f : Tag → Tag → Bytes) : State :=
  s.commitBuf (match s.cipher.csel, s.cipher.ssel with
    | some set, some k => .ok (f set k)
    | _, _ => .error (sequenceError (s.cipher.missing (vCSEL ||| vSSEL))))

/-- Stage 3 or its inverse as a command: `need V_RND, V_T` (43_pipeline_stages.md R190, R192). -/
def withRounds (s : State) (f : Nat → Vector Byte 256 → Bytes) : State :=
  s.commitBuf (match s.cipher.rounds, s.cipher.tables with
    | some r, some t => .ok (f r.rounds t.table)
    | _, _ => .error (sequenceError (s.cipher.missing (vRND ||| vT))))

/-- Stage 5 as a command: `need V_KS`, then a keystream of matching length (43_pipeline_stages.md R198). -/
def withKeystream (s : State) (f : Bytes → Bytes) : State :=
  s.commitBuf (match s.cipher.ks with
    | some ks => if ks.length = s.mem.buf.length then .ok (f ks) else .error (sequenceError 0x200)
    | none => .error (sequenceError (s.cipher.missing vKS)))

/-- ST1 (43_pipeline_stages.md R182). -/
def runSt1 (s : State) : State := withAddx s fun x => stage1 x s.mem.buf
/-- IST1 (43_pipeline_stages.md R184). -/
def runIst1 (s : State) : State := withAddx s fun x => invStage1 x s.mem.buf
/-- ST2 (43_pipeline_stages.md R186). -/
def runSt2 (c : Config) (s : State) : State := withSelectors s fun set k => stage2 c set k s.mem.buf
/-- IST2 (43_pipeline_stages.md R188). -/
def runIst2 (c : Config) (s : State) : State := withSelectors s fun set k => invStage2 c set k s.mem.buf
/-- ST3 (43_pipeline_stages.md R190). -/
def runSt3 (c : Config) (s : State) : State := withRounds s fun n t => stage3 c n t s.mem.buf
/-- IST3 (43_pipeline_stages.md R192). -/
def runIst3 (c : Config) (s : State) : State := withRounds s fun n t => invStage3 c n t s.mem.buf

/-- ST4 (43_pipeline_stages.md R194). -/
def runSt4 (c : Config) (s : State) : State :=
  s.commitBuf (
    if 255 < s.mem.ext.length then .error (invalidExtension s.mem.ext.length)
    else if within c.bufMax (s.mem.buf.length + s.mem.ext.length + 1) then .ok (stage4 s.mem.ext s.mem.buf)
    else .error capacityExceeded)

/-- IST4 (43_pipeline_stages.md R196). -/
def runIst4 (s : State) : State := s.commitBuf (invStage4 s.mem.buf)
/-- ST5 (43_pipeline_stages.md R198). -/
def runSt5 (s : State) : State := withKeystream s fun ks => stage5 ks s.mem.buf

/-- ST1, 43_pipeline_stages.md R182. -/
def execSt1 (s : State) : Host.Outcome State Fault Refusal := finish (runSt1 s)
/-- ST2, 43_pipeline_stages.md R186. -/
def execSt2 (s : State) : Host.Outcome State Fault Refusal := finish (runSt2 Config.impl s)
/-- ST3, 43_pipeline_stages.md R190. -/
def execSt3 (s : State) : Host.Outcome State Fault Refusal := finish (runSt3 Config.impl s)
/-- ST4, 43_pipeline_stages.md R194. -/
def execSt4 (s : State) : Host.Outcome State Fault Refusal := finish (runSt4 Config.impl s)
/-- ST5, 43_pipeline_stages.md R198. -/
def execSt5 (s : State) : Host.Outcome State Fault Refusal := finish (runSt5 s)
/-- IST5 = ST5 (30_encoding.md R78). -/
def execIst5 (s : State) : Host.Outcome State Fault Refusal := finish (runSt5 s)
/-- IST1, 43_pipeline_stages.md R184. -/
def execIst1 (s : State) : Host.Outcome State Fault Refusal := finish (runIst1 s)
/-- IST2, 43_pipeline_stages.md R188. -/
def execIst2 (s : State) : Host.Outcome State Fault Refusal := finish (runIst2 Config.impl s)
/-- IST3, 43_pipeline_stages.md R192. -/
def execIst3 (s : State) : Host.Outcome State Fault Refusal := finish (runIst3 Config.impl s)
/-- IST4, 43_pipeline_stages.md R196. -/
def execIst4 (s : State) : Host.Outcome State Fault Refusal := finish (runIst4 s)

end Sys2Proof.Machine
end

