-- ==== Sys2Proof/Machine/Cipher.lean ====
section
/-!
DEFINITION. Encrypt and decrypt as pure functions and the commands ENC and DEC (44_cipher_batch.md R210 to R213).
-/

namespace Sys2Proof.Machine

/-- The five stages of encryption with every derived value (44_cipher_batch.md R210, from `B <- S1` on). -/
def encryptStages (c : Config) (k : Tag) (key p x : Bytes) : Bytes :=
  let set := csel key
  let ks := keystream key (p.length + x.length + 1)
  let b1 := stage1 (cext (addcSet c set) p.length) p
  let b2 := stage2 c set k b1
  let b3 := stage3 c (roundRegs c key).rounds (tgen c key).table b2
  stage5 ks (stage4 x b3)

/-- `encrypt(P, K, X)` (44_cipher_batch.md R210). -/
def encrypt (c : Config) (p key x : Bytes) : Except CmdError Bytes :=
  if key = [] then .error (invalidKey 0)
  else match ssel key with
    | .error e => .error e
    | .ok k =>
      if 255 < x.length then .error (invalidExtension x.length)
      else .ok (encryptStages c k key p x)

/-- The inverse stages 3, 2, 1 of decryption (44_cipher_batch.md R212, after `IS4`). -/
def decryptStages (c : Config) (k : Tag) (key b : Bytes) : Bytes :=
  let set := csel key
  let b2 := invStage2 c set k (invStage3 c (roundRegs c key).rounds (tgen c key).table b)
  invStage1 (cext (addcSet c set) b2.length) b2

/-- `decrypt(C, K)` (44_cipher_batch.md R212). -/
def decrypt (c : Config) (ct key : Bytes) : Except CmdError Bytes :=
  if key = [] then .error (invalidKey 0)
  else match ssel key with
    | .error e => .error e
    | .ok k =>
      if ct = [] then .error (invalidCiphertext 0)
      else match invStage4 (stage5 (keystream key ct.length) ct) with
        | .error e => .error e
        | .ok b => .ok (decryptStages c k key b)

/-- `encrypt` with the capacity test of ENC (44_cipher_batch.md R211). -/
def encryptWithin (c : Config) (p key x : Bytes) : Except CmdError Bytes :=
  match encrypt c p key x with
  | .error e => .error e
  | .ok ct => if within c.bufMax ct.length then .ok ct else .error capacityExceeded

/-- ENC (44_cipher_batch.md R211): `CSV <- 0` on success and on error. -/
def runEnc (c : Config) (s : State) : State :=
  s.clearCsv.commitBuf (encryptWithin c s.mem.buf s.mem.key s.mem.ext)

/-- DEC (44_cipher_batch.md R213): `CSV <- 0` on success and on error. -/
def runDec (c : Config) (s : State) : State := s.clearCsv.commitBuf (decrypt c s.mem.buf s.mem.key)

/-- ENC, 44_cipher_batch.md R211. -/
def execEnc (s : State) : Host.Outcome State Fault Refusal := finish (runEnc Config.impl s)
/-- DEC, 44_cipher_batch.md R213. -/
def execDec (s : State) : Host.Outcome State Fault Refusal := finish (runDec Config.impl s)

end Sys2Proof.Machine
end

