-- ==== Sys2Proof/Machine/Batch.lean ====
section
/-!
DEFINITION. The batch executor: partition into workers, order of processing, per-item isolation, and the commands BENC
and BDEC (44_cipher_batch.md R217 to R221).
-/

namespace Sys2Proof.Machine

/-- The items of worker `w`, the indices `w*nb .. min((w+1)*nb, n) - 1` in order (44_cipher_batch.md R217). -/
def workerItems (nb n w : Nat) : List Nat := List.range' (w * nb) (min ((w + 1) * nb) n - w * nb)

/-- The workers in index order, `ceil(n / nb)` of them for `nb ≥ 1` (44_cipher_batch.md R217). -/
def workers (nb n : Nat) : List (List Nat) := (List.range ((n + nb - 1) / nb)).map (workerItems nb n)

/-- The order in which items are processed when the workers take their turns as the schedule says: each entry names the
worker that processes its next item. Workers with items left at its end finish in index order
(44_cipher_batch.md R217, R220). -/
def interleave : List Nat → List (List Nat) → List Nat
  | [], queues => queues.flatten
  | w :: turns, queues =>
    match queues[w]? with
    | some (i :: rest) => i :: interleave turns (queues.set w rest)
    | _ => interleave turns queues

/-- Process items in the given order, each in its own slot (44_cipher_batch.md R220). -/
def processItems (f : Item → Item) (order : List Nat) (items : List Item) : List Item :=
  order.foldl (fun table i => table.modify i f) items

/-- The turns of the workers: one after another for `SEQ`, an arbitrary interleaving for `THR`
(44_cipher_batch.md R218). -/
def turns (mode : ExecMode) (nb n : Nat) : List Nat :=
  match mode with
  | .seq => []
  | .thr => Config.laneSchedule nb n

/-- Store the result of an item: success replaces the data, an error leaves them; the code goes to `IERR`
(44_cipher_batch.md R218, R221). -/
def Item.store (it : Item) (r : Except CmdError Bytes) : Item :=
  match r with
  | .ok d => { it with data := d, err := 0 }
  | .error e => { it with err := e.code.num }

/-- One item of BENC (44_cipher_batch.md R218). -/
def encryptItem (c : Config) (it : Item) : Item := it.store (encryptWithin c it.data it.key it.ext)

/-- One item of BDEC (44_cipher_batch.md R219). -/
def decryptItem (c : Config) (it : Item) : Item := it.store (decrypt c it.data it.key)

/-- The least index whose item failed (44_cipher_batch.md R218). -/
def firstFailed (items : List Item) : Option Nat := items.findIdx? fun it => it.err != 0

/-- A batch command whose workers take the given turns (44_cipher_batch.md R218): `CSV <- 0` on every exit; the item
table is written before BatchItemFailed is raised (60_exceptions.md R240). -/
def runBatch (f : Item → Item) (schedule : List Nat) (s : State) : State :=
  if s.nblock = 0 then s.clearCsv.commit (.error (sequenceError 0x400))
  else
    let table := processItems f (interleave schedule (workers s.nblock s.items.length)) s.items
    let t := { s.clearCsv with items := table }
    t.commit (match firstFailed table with
      | none => .ok t
      | some i => .error (batchItemFailed i))

/-- BENC (44_cipher_batch.md R218). -/
def runBenc (c : Config) (mode : ExecMode) (s : State) : State :=
  runBatch (encryptItem c) (turns mode s.nblock s.items.length) s

/-- BDEC (44_cipher_batch.md R219). -/
def runBdec (c : Config) (mode : ExecMode) (s : State) : State :=
  runBatch (decryptItem c) (turns mode s.nblock s.items.length) s

/-- BENC, 44_cipher_batch.md R218. -/
def execBenc (mode : ExecMode) (s : State) : Host.Outcome State Fault Refusal := finish (runBenc Config.impl mode s)
/-- BDEC, 44_cipher_batch.md R219. -/
def execBdec (mode : ExecMode) (s : State) : Host.Outcome State Fault Refusal := finish (runBdec Config.impl mode s)

end Sys2Proof.Machine
end

