-- ==== Sys2Proof/WellFormed.lean ====
section
/-!
DEFINITION. The check on instruction terms. The reserved argument values of 30_encoding.md R72 (mode 2..255, k 4..255,
exec 2..255) cannot be written as terms, so the one check left is that a term is a command of the block (R73) and not
an assembler pseudo-instruction (R78), which the assembler replaces before a command word exists.
-/

namespace Sys2Proof

/-- The seven rows of 30_encoding.md R78. -/
def Instr.isPseudo : Instr → Bool
  | .ist5 | .sha3_224 | .sha3_256 | .sha3_384 | .sha3_512 | .shake128 | .shake256 => true
  | .kf | .spinit _ _ | .spabs | .spfin | .hash _ _ | .dcsel | .dcext | .dssel | .dtgen | .dks | .drnd | .csclr
  | .sig _ | .isig _ | .linv | .st1 | .st2 | .st3 | .st4 | .st5 | .ist1 | .ist2 | .ist3 | .ist4 | .enc | .dec
  | .benc _ | .bdec _ => false

/-- A term the decoder can answer: one of the 28 commands of 30_encoding.md R73. -/
def Instr.wellFormed (i : Instr) : Bool := !i.isPseudo

end Sys2Proof
end

