-- ==== Sys2Proof/Decode.lean ====
section
/-!
DEFINITION. The decoder of 30_encoding.md R79, total on 32-bit words and rejecting by name, and the encoder written
from the same tables (R70 to R73).
-/

namespace Sys2Proof

/-- Why a word is illegal (30_encoding.md R74, cases (a) to (e)). The block reports every one of them as
IllegalCommand with `ERRINFO = cw`; the names say which test of R79 failed. -/
inductive DecodeReject where
  /-- R74 (a): `op` is in no row of the opcode map. -/
  | unknownOpcode
  /-- R74 (b): bits 31:24 are not 0. -/
  | topByteNonzero
  /-- R74 (c), (d): an argument field that the format does not have is not 0. -/
  | unusedFieldNonzero
  /-- R74 (e): a reserved value of `a` (R72). -/
  | reservedArgument
deriving DecidableEq, Repr

/-- `cw[7:0]` (30_encoding.md R70). -/
def fieldOp (cw : Word) : Byte := cw.extractLsb' 0 8
/-- `cw[15:8]` (30_encoding.md R70). -/
def fieldA (cw : Word) : Byte := cw.extractLsb' 8 8
/-- `cw[23:16]` (30_encoding.md R70). -/
def fieldB (cw : Word) : Byte := cw.extractLsb' 16 8
/-- `cw[31:24]` (30_encoding.md R70). -/
def fieldZ (cw : Word) : Byte := cw.extractLsb' 24 8

/-- Format N: `a = b = 0` (30_encoding.md R71). -/
def formatN (a b : Byte) (i : Instr) : Except DecodeReject Instr :=
  if a = 0 ∧ b = 0 then .ok i else .error .unusedFieldNonzero

/-- Argument `mode` (30_encoding.md R72). -/
def decodeMode (a : Byte) : Option SpongeMode :=
  if a = 0 then some .fixed else if a = 1 then some .xof else none

/-- Argument `exec` (30_encoding.md R72). -/
def decodeExec (a : Byte) : Option ExecMode :=
  if a = 0 then some .seq else if a = 1 then some .thr else none

/-- Argument `k` (30_encoding.md R72). -/
def decodeTag (a : Byte) : Option Tag :=
  if h : a.toNat < 4 then some ⟨a.toNat, h⟩ else none

/-- An argument decoded by R72, or the rejection of its reserved values. -/
def withArgument {α : Type} (arg : Option α) (mk : α → Instr) : Except DecodeReject Instr :=
  match arg with
  | some v => .ok (mk v)
  | none => .error .reservedArgument

/-- Format A: `b = 0`, `a` decoded (30_encoding.md R71). -/
def formatA {α : Type} (b : Byte) (arg : Option α) (mk : α → Instr) : Except DecodeReject Instr :=
  if b = 0 then withArgument arg mk else .error .unusedFieldNonzero

/-- The opcode map of 30_encoding.md R73, on the fields of a word whose top byte is 0. -/
def decodeFields (op a b : Byte) : Except DecodeReject Instr :=
  match op.toNat with
  | 0x01 => formatN a b .kf
  | 0x02 => withArgument (decodeMode a) fun m => .spinit m b
  | 0x03 => formatN a b .spabs
  | 0x04 => formatN a b .spfin
  | 0x05 => withArgument (decodeMode a) fun m => .hash m b
  | 0x10 => formatN a b .dcsel
  | 0x11 => formatN a b .dcext
  | 0x12 => formatN a b .dssel
  | 0x13 => formatN a b .dtgen
  | 0x14 => formatN a b .dks
  | 0x15 => formatN a b .drnd
  | 0x16 => formatN a b .csclr
  | 0x18 => formatA b (decodeTag a) .sig
  | 0x19 => formatA b (decodeTag a) .isig
  | 0x1A => formatN a b .linv
  | 0x20 => formatN a b .st1
  | 0x21 => formatN a b .st2
  | 0x22 => formatN a b .st3
  | 0x23 => formatN a b .st4
  | 0x24 => formatN a b .st5
  | 0x28 => formatN a b .ist1
  | 0x29 => formatN a b .ist2
  | 0x2A => formatN a b .ist3
  | 0x2B => formatN a b .ist4
  | 0x30 => formatN a b .enc
  | 0x31 => formatN a b .dec
  | 0x32 => formatA b (decodeExec a) .benc
  | 0x33 => formatA b (decodeExec a) .bdec
  | _ => .error .unknownOpcode

/-- The decoder of 30_encoding.md R79. -/
def decode (cw : Word) : Except DecodeReject Instr :=
  if fieldZ cw = 0 then decodeFields (fieldOp cw) (fieldA cw) (fieldB cw) else .error .topByteNonzero

/-- What the assembler writes for an instruction (30_encoding.md R78): a pseudo-instruction is exactly one command,
every other instruction is itself. -/
def Instr.expand : Instr → Instr
  | .ist5 => .st5
  | .sha3_224 => .hash .fixed 1
  | .sha3_256 => .hash .fixed 2
  | .sha3_384 => .hash .fixed 3
  | .sha3_512 => .hash .fixed 4
  | .shake128 => .hash .xof 0
  | .shake256 => .hash .xof 2
  | i => i

/-- A command word from its fields, `z = 0` (30_encoding.md R70). -/
def packWord (op a b : Byte) : Word := 0#8 ++ b ++ a ++ op

/-- Field value of `mode` (30_encoding.md R72). -/
def SpongeMode.code : SpongeMode → Byte
  | .fixed => 0
  | .xof => 1

/-- Field value of `exec` (30_encoding.md R72). -/
def ExecMode.code : ExecMode → Byte
  | .seq => 0
  | .thr => 1

/-- Field value of `k` (30_encoding.md R72). -/
def tagCode (k : Tag) : Byte := BitVec.ofNat 8 k.val

/-- The command word of a command of 30_encoding.md R73 and of a pseudo-instruction of R78. -/
def encode : Instr → Word
  | .kf => packWord 0x01 0 0
  | .spinit m sec => packWord 0x02 m.code sec
  | .spabs => packWord 0x03 0 0
  | .spfin => packWord 0x04 0 0
  | .hash m sec => packWord 0x05 m.code sec
  | .dcsel => packWord 0x10 0 0
  | .dcext => packWord 0x11 0 0
  | .dssel => packWord 0x12 0 0
  | .dtgen => packWord 0x13 0 0
  | .dks => packWord 0x14 0 0
  | .drnd => packWord 0x15 0 0
  | .csclr => packWord 0x16 0 0
  | .sig k => packWord 0x18 (tagCode k) 0
  | .isig k => packWord 0x19 (tagCode k) 0
  | .linv => packWord 0x1A 0 0
  | .st1 => packWord 0x20 0 0
  | .st2 => packWord 0x21 0 0
  | .st3 => packWord 0x22 0 0
  | .st4 => packWord 0x23 0 0
  | .st5 => packWord 0x24 0 0
  | .ist1 => packWord 0x28 0 0
  | .ist2 => packWord 0x29 0 0
  | .ist3 => packWord 0x2A 0 0
  | .ist4 => packWord 0x2B 0 0
  | .enc => packWord 0x30 0 0
  | .dec => packWord 0x31 0 0
  | .benc e => packWord 0x32 e.code 0
  | .bdec e => packWord 0x33 e.code 0
  | .ist5 => packWord 0x24 0 0
  | .sha3_224 => packWord 0x05 0 1
  | .sha3_256 => packWord 0x05 0 2
  | .sha3_384 => packWord 0x05 0 3
  | .sha3_512 => packWord 0x05 0 4
  | .shake128 => packWord 0x05 1 0
  | .shake256 => packWord 0x05 1 2

/-- The instruction the decoder reads from an instruction whose bits are `w`, of which the opcode table gives `nbits`;
bits above those are 0. A command is one 32-bit word in every case (30_encoding.md R76). -/
def decodeTableWord (nbits w : Nat) : Option Instr :=
  match decode (BitVec.ofNat 32 (w % 2 ^ nbits)) with
  | .ok i => some i
  | .error _ => none

end Sys2Proof
end

