-- ==== Sys2Proof/Machine/Sponge.lean ====
section
/-!
DEFINITION. The commands of the Sponge Core on the host-visible context: KF, SPINIT, SPABS, SPFIN, HASH
(40_sponge.md), and the hash pseudo-instructions of 30_encoding.md R78.
-/

namespace Sys2Proof.Machine

/-- R95: construct the context, or reject the pair of mode and level with the command word. -/
def spInit (mode : SpongeMode) (sec : Byte) (cw : Word) (s : State) : Except CmdError State :=
  match supportedLevel mode sec with
  | none => .error (unsupportedDigest cw)
  | some l => .ok { s with sponge := ⟨zeroLanes, mode, l, 0, .absorbing⟩ }

/-- R97: absorb `MSG`. -/
def spAbsorb (s : State) : Except CmdError State :=
  if s.sponge.phase = .absorbing then
    let st := absorb s.sponge.sec.rate (s.sponge.lanes, s.sponge.pos) s.mem.msg
    .ok { s with sponge := { s.sponge with lanes := st.1, pos := st.2 } }
  else .error (sequenceError 0x100)

/-- The output length of a finalize (R100): the level's digest in FIXED mode, `LEN` in XOF mode. -/
def digestLength (s : State) : Nat :=
  match s.sponge.mode with
  | .fixed => s.sponge.sec.bits / 8
  | .xof => s.len

/-- R100: pad, squeeze, deliver the digest. The capacity test is R100's, in both modes (60_exceptions.md R239 names XOF mode
only). DEDUCED (log 12). Unsafe under a finite `DIG_MAX` below 64. -/
def spFinish (c : Config) (s : State) : Except CmdError State :=
  if s.sponge.phase = .absorbing then
    if within c.digMax (digestLength s) then
      let r := s.sponge.sec.rate
      let out := squeeze r (pad r s.sponge.mode (s.sponge.lanes, s.sponge.pos)) (digestLength s)
      .ok (State.setDig { s with sponge := { s.sponge with lanes := out.2, pos := 0, phase := .done } } out.1)
    else .error capacityExceeded
  else .error (sequenceError 0x100)

/-- R102: SPINIT, SPABS, SPFIN in order as one atomic step. -/
def hashMessage (c : Config) (mode : SpongeMode) (sec : Byte) (cw : Word) (s : State) : Except CmdError State :=
  match spInit mode sec cw s with
  | .error e => .error e
  | .ok s1 =>
    match spAbsorb s1 with
    | .error e => .error e
    | .ok s2 => spFinish c s2

/-- KF (R93). -/
def runKf (s : State) : State := s.commit (.ok { s with sponge := { s.sponge with lanes := keccakF s.sponge.lanes } })

/-- SPINIT (R95). -/
def runSpinit (mode : SpongeMode) (sec : Byte) (s : State) : State :=
  s.commit (spInit mode sec (encode (.spinit mode sec)) s)

/-- SPABS (R97). -/
def runSpabs (s : State) : State := s.commit (spAbsorb s)

/-- SPFIN (R100). -/
def runSpfin (c : Config) (s : State) : State := s.commit (spFinish c s)

/-- HASH (R102). -/
def runHash (c : Config) (mode : SpongeMode) (sec : Byte) (s : State) : State :=
  s.commit (hashMessage c mode sec (encode (.hash mode sec)) s)

/-- KF, 40_sponge.md R93. -/
def execKf (s : State) : Host.Outcome State Fault Refusal := finish (runKf s)
/-- SPINIT, 40_sponge.md R95. -/
def execSpinit (mode : SpongeMode) (sec : Byte) (s : State) : Host.Outcome State Fault Refusal :=
  finish (runSpinit mode sec s)
/-- SPABS, 40_sponge.md R97. -/
def execSpabs (s : State) : Host.Outcome State Fault Refusal := finish (runSpabs s)
/-- SPFIN, 40_sponge.md R100. -/
def execSpfin (s : State) : Host.Outcome State Fault Refusal := finish (runSpfin Config.impl s)
/-- HASH, 40_sponge.md R102. -/
def execHash (mode : SpongeMode) (sec : Byte) (s : State) : Host.Outcome State Fault Refusal :=
  finish (runHash Config.impl mode sec s)
/-- SHA3_224 = HASH FIXED, 224 (30_encoding.md R78). -/
def execSha3_224 (s : State) : Host.Outcome State Fault Refusal := finish (runHash Config.impl .fixed 1 s)
/-- SHA3_256 = HASH FIXED, 256 (30_encoding.md R78). -/
def execSha3_256 (s : State) : Host.Outcome State Fault Refusal := finish (runHash Config.impl .fixed 2 s)
/-- SHA3_384 = HASH FIXED, 384 (30_encoding.md R78). -/
def execSha3_384 (s : State) : Host.Outcome State Fault Refusal := finish (runHash Config.impl .fixed 3 s)
/-- SHA3_512 = HASH FIXED, 512 (30_encoding.md R78). -/
def execSha3_512 (s : State) : Host.Outcome State Fault Refusal := finish (runHash Config.impl .fixed 4 s)
/-- SHAKE128 = HASH XOF, 128 (30_encoding.md R78). -/
def execShake128 (s : State) : Host.Outcome State Fault Refusal := finish (runHash Config.impl .xof 0 s)
/-- SHAKE256 = HASH XOF, 256 (30_encoding.md R78). -/
def execShake256 (s : State) : Host.Outcome State Fault Refusal := finish (runHash Config.impl .xof 2 s)

end Sys2Proof.Machine
end

