-- ==== Sys2Proof/Machine/Dispatch.lean ====
section
/-! DEFINITION. The meaning of every command, one arm per constructor of Instr (30_encoding.md R73, R78). -/

namespace Sys2Proof.Machine

def exec (i : Instr) (s : State) : Host.Outcome State Fault Refusal :=
  match i with
  | .kf => Sys2Proof.Machine.execKf s
  | .spinit mode sec => Sys2Proof.Machine.execSpinit mode sec s
  | .spabs => Sys2Proof.Machine.execSpabs s
  | .spfin => Sys2Proof.Machine.execSpfin s
  | .hash mode sec => Sys2Proof.Machine.execHash mode sec s
  | .dcsel => Sys2Proof.Machine.execDcsel s
  | .dcext => Sys2Proof.Machine.execDcext s
  | .dssel => Sys2Proof.Machine.execDssel s
  | .dtgen => Sys2Proof.Machine.execDtgen s
  | .dks => Sys2Proof.Machine.execDks s
  | .drnd => Sys2Proof.Machine.execDrnd s
  | .csclr => Sys2Proof.Machine.execCsclr s
  | .sig k => Sys2Proof.Machine.execSig k s
  | .isig k => Sys2Proof.Machine.execIsig k s
  | .linv => Sys2Proof.Machine.execLinv s
  | .st1 => Sys2Proof.Machine.execSt1 s
  | .st2 => Sys2Proof.Machine.execSt2 s
  | .st3 => Sys2Proof.Machine.execSt3 s
  | .st4 => Sys2Proof.Machine.execSt4 s
  | .st5 => Sys2Proof.Machine.execSt5 s
  | .ist1 => Sys2Proof.Machine.execIst1 s
  | .ist2 => Sys2Proof.Machine.execIst2 s
  | .ist3 => Sys2Proof.Machine.execIst3 s
  | .ist4 => Sys2Proof.Machine.execIst4 s
  | .enc => Sys2Proof.Machine.execEnc s
  | .dec => Sys2Proof.Machine.execDec s
  | .benc mode => Sys2Proof.Machine.execBenc mode s
  | .bdec mode => Sys2Proof.Machine.execBdec mode s
  | .ist5 => Sys2Proof.Machine.execIst5 s
  | .sha3_224 => Sys2Proof.Machine.execSha3_224 s
  | .sha3_256 => Sys2Proof.Machine.execSha3_256 s
  | .sha3_384 => Sys2Proof.Machine.execSha3_384 s
  | .sha3_512 => Sys2Proof.Machine.execSha3_512 s
  | .shake128 => Sys2Proof.Machine.execShake128 s
  | .shake256 => Sys2Proof.Machine.execShake256 s

end Sys2Proof.Machine
end

