-- ==== Sys2Proof/Machine/Host.lean ====
section
/-!
DEFINITION. What the host can do: the closed table of 20_memory.md R66, one definition per row. A refused operation
gives no step. HostIssue is where a command word is fetched: the host hands it over (R65).
-/

namespace Sys2Proof.Machine

/-- `HostLoad(B, s)` (20_memory.md R66); loading `KEY` clears `CSV`, even with identical bytes (10_state.md R28). -/
def hostLoad (c : Config) (b : LoadName) (bytes : Bytes) (s : State) : Host.Outcome State Fault Refusal :=
  if within (loadCapacity c b) bytes.length then
    let t := { s with mem := s.mem.put b.target bytes }
    .next (match b with
      | .key => t.clearCsv
      | .buf | .ext | .msg => t)
  else .refused .loadExceedsCapacity

/-- A value returned to the host; no read has a side effect (20_memory.md R61). -/
def State.answer (s : State) (r : Reply) : State := { s with reply := some r }

/-- `HostRead(B)` (20_memory.md R66). -/
def hostRead (b : BufName) (s : State) : Host.Outcome State Fault Refusal := .next (s.answer (.bytes (s.mem.get b)))

/-- `HostRead(B, i)` (20_memory.md R66): one byte. -/
def hostReadByte (b : BufName) (i : Nat) (s : State) : Host.Outcome State Fault Refusal :=
  match memRead s.mem b i 1 with
  | some v => .next (s.answer (.number (leNat v)))
  | none => .refused .readBeyondLength

/-- Whether a value fits the width of a register the host writes (20_memory.md R66, 10_state.md R35). -/
def fitsWidth (c : Config) (r : SetName) (v : Nat) : Bool :=
  match r with
  | .len =>
    match c.lenBits with
    | none => true
    | some n => decide (v < 2 ^ n)
  | .w => decide (v < 2 ^ 32)
  | .nblock => true

/-- `HostSetReg(r, v)` (20_memory.md R66). -/
def hostSetReg (c : Config) (r : SetName) (v : Nat) (s : State) : Host.Outcome State Fault Refusal :=
  if fitsWidth c r v then
    .next (match r with
      | .len => { s with len := v }
      | .w => { s with w := BitVec.ofNat 32 v }
      | .nblock => { s with nblock := v })
  else .refused .valueExceedsWidth

/-- `HostSetFB(i, w)`: writes the word and clears `V_IB` (20_memory.md R66, 10_state.md R32). -/
def hostSetFB (i : Fin 32) (word : Word) (s : State) : Host.Outcome State Fault Refusal :=
  .next { s with fb := s.fb.set i.val word, ib := none }

/-- Register 9: `SPMODE + 2*SPSEC + 16*SPPHASE + 64*SPPOS` (10_state.md R35). -/
def Sponge.packed (sp : Sponge) : Nat := modeBit sp.mode + 2 * sp.sec.code + 16 * sp.phase.code + 64 * sp.pos

/-- The length of a sequence that may hold no value, which then reads 0 (10_state.md R39). DEDUCED (log 7). Unsafe: hardware
that refuses this read gives the host no 0. -/
def lengthOr0 {α : Type} (s : Option (List α)) : Nat :=
  match s with
  | some xs => xs.length
  | none => 0

/-- The value of the register of a number of 10_state.md R35, `none` where its valid bit is 0. -/
def getReg (s : State) (r : Fin 22) : Option Nat :=
  match r.val with
  | 0 => some s.err.toNat
  | 1 => some s.errInfo.toNat
  | 2 => some s.len
  | 3 => some s.w.toNat
  | 4 => some s.mem.key.length
  | 5 => some s.mem.buf.length
  | 6 => some s.mem.ext.length
  | 7 => some s.mem.msg.length
  | 8 => some s.mem.dig.length
  | 9 => some s.sponge.packed
  | 10 => some (lengthOr0 s.cipher.addx)
  | 11 => some (lengthOr0 s.cipher.ks)
  | 12 => some s.cipher.csv.toNat
  | 13 => s.cipher.csel.map Fin.val
  | 14 => s.cipher.ssel.map Fin.val
  | 15 => s.cipher.rounds.map RoundRegs.bitcnt
  | 16 => s.cipher.rounds.map RoundRegs.rcount
  | 17 => s.cipher.rounds.map RoundRegs.rounds
  | 18 => some s.nblock
  | 19 => some s.items.length
  | 20 => some s.vIB.toNat
  | _ => s.cipher.rounds.map RoundRegs.kint

/-- `HostGetReg(r)` (20_memory.md R66). -/
def hostGetReg (r : Fin 22) (s : State) : Host.Outcome State Fault Refusal :=
  match getReg s r with
  | some v => .next (s.answer (.number v))
  | none => .refused .registerHoldsNoValue

/-- Element `i` of a bit-vector array as a number. -/
def numberAt {w : Nat} (xs : List (BitVec w)) (i : Nat) : Option Reply := xs[i]?.map fun v => .number v.toNat

/-- Element `i` of an array that may hold no value. -/
def numberAtValid {w : Nat} (xs : Option (List (BitVec w))) (i : Nat) : Option Reply :=
  match xs with
  | some ys => numberAt ys i
  | none => none

/-- The 256 entries of `ISBOX` (10_state.md R30). -/
def isboxList (c : Config) : Bytes := (List.range 256).map fun y => isboxAt c (BitVec.ofNat 8 y)

/-- The 25 entries of `RHO` by lane index, row after row (40_sponge.md R92). -/
def rhoList : List Nat := (List.finRange 5).flatMap fun y => (List.finRange 5).map fun x => rotationOffset x y

/-- Element `i` of an array, `none` where `i` is out of range or the array's valid bit is 0 (20_memory.md R66). -/
def getArr (c : Config) (s : State) (x : ArrName) (i : Nat) : Option Reply :=
  match x with
  | .lanes => numberAt s.sponge.lanes.toList i
  | .fb => numberAt s.fb.toList i
  | .ib => numberAtValid (s.ib.map Vector.toList) i
  | .nkey => numberAtValid (s.cipher.tables.map fun t => t.nkey.toList) i
  | .table => numberAtValid (s.cipher.tables.map fun t => t.table.toList) i
  | .addx => numberAtValid s.cipher.addx i
  | .ks => numberAtValid s.cipher.ks i
  | .addc set => numberAt (addcSet c set) i
  | .mixc set => numberAt c.mixc[set].toList i
  | .sbox => numberAt c.sbox.toList i
  | .isbox => numberAt (isboxList c) i
  | .invb k => numberAt (invb c k).toList i
  | .rc => numberAt ((List.finRange 24).map roundConstant) i
  | .rho => rhoList[i]?.map .number
  | .ikey => s.items[i]?.map fun it => .bytes it.key
  | .ibuf => s.items[i]?.map fun it => .bytes it.data
  | .iext => s.items[i]?.map fun it => .bytes it.ext
  | .ierr => s.items[i]?.map fun it => .number it.err.toNat

/-- `HostGetArr(X, i)` (20_memory.md R66). -/
def hostGetArr (c : Config) (x : ArrName) (i : Nat) (s : State) : Host.Outcome State Fault Refusal :=
  match getArr c s x i with
  | some r => .next (s.answer r)
  | none => .refused .elementHoldsNoValue

/-- Whether the fields of an item are within their capacities (20_memory.md R66); the extension has none. DEDUCED (log 13).
Unsafe: other capacities would refuse other lists. -/
def itemFits (c : Config) (it : Bytes × Bytes × Bytes) : Bool :=
  within c.keyMax it.1.length && within c.bufMax it.2.1.length

/-- `HostLoadItems` (20_memory.md R66): sets `NITEMS` and every item, zeroes every `IERR` (10_state.md R34). -/
def hostLoadItems (c : Config) (items : List (Bytes × Bytes × Bytes)) (s : State) : Host.Outcome State Fault Refusal :=
  if within c.nitemsMax items.length && items.all (itemFits c) then
    .next { s with items := items.map fun it => ⟨it.1, it.2.1, it.2.2, 0⟩ }
  else .refused .itemsExceedCapacity

/-- `HostIssue(cw)` (20_memory.md R66): the decoder first, before any state is read (30_encoding.md R79); an illegal
word raises IllegalCommand and has no other effect (R74, 60_exceptions.md R235). -/
def hostIssue (cw : Word) (s : State) : Host.Outcome State Fault Refusal :=
  match decode cw with
  | .ok i => exec i s
  | .error _ => .next (s.commit (.error (illegalCommand cw)))

/-- Reset (70_reset_and_hazards.md R260, R261): every piece of the block's state at its reset value. What the host does
next is not state of the block (10_state.md R40). DESIGN CHOICE for the model's two fields (log 21). Safe. -/
def hostReset (s : State) : Host.Outcome State Fault Refusal := .next { State.reset with pending := s.pending }

/-- One operation of the host (20_memory.md R66). -/
def hostStep (op : HostOp) (s : State) : Host.Outcome State Fault Refusal :=
  match op with
  | .load b bytes => hostLoad Config.impl b bytes s
  | .read b => hostRead b s
  | .readByte b i => hostReadByte b i s
  | .setReg r v => hostSetReg Config.impl r v s
  | .setFB i word => hostSetFB i word s
  | .getReg r => hostGetReg r s
  | .getArr x i => hostGetArr Config.impl x i s
  | .loadItems items => hostLoadItems Config.impl items s
  | .issue cw => hostIssue cw s
  | .reset => hostReset s

/-- Take the operation off the list; what an earlier one returned is gone. -/
def State.began (s : State) (rest : List HostOp) : State := { s with pending := rest, reply := none }

/-- The next operation of the host, performed; with none left the block idles (60_exceptions.md R242 (4)).
DESIGN CHOICE (log 1). Safe: an idle step changes nothing. -/
def stepHost (s : State) : Host.Outcome State Fault Refusal :=
  match s.pending with
  | [] => .next s
  | op :: rest => hostStep op (s.began rest)

/-- The host's next operation is HostIssue of the word of an opcode-table row (30_encoding.md R76). DESIGN CHOICE (log 2):
it stands for the host's program, which is outside the block. Safe. -/
def placeWord (s : State) (nbits w : Nat) : State :=
  { s with pending := .issue (BitVec.ofNat 32 (w % 2 ^ nbits)) :: s.pending }

end Sys2Proof.Machine
end

