-- ==== Sys2Proof/Machine/Step.lean ====
section
/-!
DEFINITION. One step of the machine: the host's next operation, a command word among them, from its start to its end
(20_memory.md R60, R63). The block has no program counter and fetches nothing itself (10_state.md R36).
-/

namespace Sys2Proof.Machine

/-- One step: the host's next operation (20_memory.md R63, R66). -/
def step (s : State) : Host.Outcome State Fault Refusal := stepHost s

/-- `s` with HostIssue of the word `w` as the host's next operation. -/
def State.withFetchWord (s : State) (nbits w : Nat) : State := placeWord s nbits w

end Sys2Proof.Machine
end

