-- ==== Sys2Proof/Safety.lean ====
section
/-!
DEFINITION. What a good state of the block is: the invariant of the machine, field by field as the spec gives it. Every
step keeps it and reset has it.
-/

namespace Sys2Proof.Machine

/-- The memory's form: every buffer is within its finite capacity parameter (20_memory.md R51). There is nothing else to
canonise: a buffer is its bytes, and a byte at or above the length does not exist (10_state.md R24). -/
def Memory.wf (c : Config) (m : Memory) : Bool :=
  within c.keyMax m.key.length && within c.bufMax m.buf.length && within c.msgMax m.msg.length &&
    within c.digMax m.dig.length

/-- The sponge context (10_state.md R21, 40_sponge.md R95, R100, R103): the position is below the rate, a constructed
context has a supported mode and level, and a finalized one is at position 0. -/
structure Sponge.Good (sp : Sponge) : Prop where
  pos_lt : sp.pos < sp.sec.rate
  constructed : sp.phase ≠ .idle → supported sp.mode sp.sec = true
  finalized : sp.phase = .done → sp.pos = 0

/-- Every cipher-state register that holds a value holds the one its derivation gives for the present `KEY`, which is
then not empty (10_state.md R28: "makes every valid register a function of the present `KEY`"). -/
structure CipherState.Derived (c : Config) (key : Bytes) (cs : CipherState) : Prop where
  key_nonempty : cs ≠ CipherState.empty → key ≠ []
  csel_eq : ∀ t, cs.csel = some t → t = Machine.csel key
  addx_eq : ∀ x, cs.addx = some x → cs.csel.isSome ∧ ∃ target, x = cext (addcSet c (Machine.csel key)) target
  ssel_eq : ∀ k, cs.ssel = some k → Machine.ssel key = .ok k
  tables_eq : ∀ t, cs.tables = some t → t = tgen c key
  ks_eq : ∀ ks, cs.ks = some ks → ks = keystream key ks.length
  rounds_eq : ∀ r, cs.rounds = some r → r = roundRegs c key

/-- The error codes `IERR` can hold (60_exceptions.md R231). -/
def itemCode (e : Byte) : Bool := e = 0 || e = 1 || e = 2 || e = 7 || e = 9

/-- The invariant of the machine. Its `items_fit`, that an item's key and data are within `KEY_MAX` and `BUF_MAX`, rests on
the model's choice of the item fields' capacities (log 13); the rest on the rules named at its parts, and on 10_state.md
R25, R32, R33, R34 and 20_memory.md R66. -/
structure State.Inv (c : Config) (s : State) : Prop where
  sponge_good : s.sponge.Good
  mem_wf : s.mem.wf c = true
  len_fits : fitsWidth c .len s.len = true
  cipher_derived : s.cipher.Derived c s.mem.key
  ib_inverse : ∀ g, s.ib = some g → lininv s.fb = some g
  err_le : s.err ≤ 9
  err_zero : s.err = 0 → s.errInfo = 0
  items_count : within c.nitemsMax s.items.length = true
  items_fit : ∀ it ∈ s.items, itemFits c (it.key, it.data, it.ext) = true
  items_code : ∀ it ∈ s.items, itemCode it.err = true

/-- A safe outcome: a next state that meets the invariant, or a refused host operation, which is no step of the block
(20_memory.md R66). -/
def Safe (c : Config) (o : Host.Outcome State Fault Refusal) : Prop :=
  match o with
  | .next s => s.Inv c
  | .fault _ => False
  | .refused _ => True

end Sys2Proof.Machine
end

