-- ==== Sys2Proof/Certificates/Slice0/Obligations.lean ====
section
/-!
DEFINITION. The statements for the provers. Each formalises rules of spec/ over the model's own functions; a docstring
says which. `Config.impl` is the implementation's configuration, a free value; statements about pure functions hold for
every configuration.
-/

open Sys2Proof Sys2Proof.Machine

/-! ## Encoding and issue -/

/-- 30_encoding.md §1, §3: a word decodes to an instruction exactly when that instruction is a command of the block and
the word is its encoding. So decode undoes encode, no bit is dropped, and every other word is illegal. -/
def Obligations.DecodeAcceptsExactlyTheEncodings : Prop :=
  ∀ (cw : Word) (i : Instr), decode cw = .ok i ↔ i.wellFormed = true ∧ encode i = cw

/-- 30_encoding.md R74 and 60_exceptions.md R235: the illegal words are exactly those of cases (a) to (e); issuing one
raises IllegalCommand with the word as its detail and has no other effect. -/
def Obligations.IllegalWordsAreCasesAToE : Prop :=
  (∀ cw : Word, (∀ i, decode cw ≠ .ok i) → ∀ s : State, hostIssue cw s = .next { s with err := 4, errInfo := cw }) ∧
  ∀ cw : Word, (∀ i, decode cw ≠ .ok i) ↔
    ((fieldOp cw).toNat ∉ [0x01, 0x02, 0x03, 0x04, 0x05, 0x10, 0x11, 0x12, 0x13, 0x14, 0x15, 0x16, 0x18, 0x19, 0x1A,
        0x20, 0x21, 0x22, 0x23, 0x24, 0x28, 0x29, 0x2A, 0x2B, 0x30, 0x31, 0x32, 0x33]
      ∨ fieldZ cw ≠ 0
      ∨ (fieldB cw ≠ 0 ∧ (fieldOp cw).toNat ∉ [0x02, 0x05])
      ∨ (fieldA cw ≠ 0 ∧ (fieldOp cw).toNat ∉ [0x02, 0x05, 0x18, 0x19, 0x32, 0x33])
      ∨ (2 ≤ (fieldA cw).toNat ∧ (fieldOp cw).toNat ∈ [0x02, 0x05, 0x32, 0x33])
      ∨ (4 ≤ (fieldA cw).toNat ∧ (fieldOp cw).toNat ∈ [0x18, 0x19]))

/-- 30_encoding.md R78: each pseudo-instruction is exactly one command, with the word of the table, and acts as that
command; its word decodes to that command. -/
def Obligations.PseudoInstructionsAreOneCommand : Prop :=
  ∀ p ∈ [(Instr.ist5, Instr.st5, 0x00000024#32), (.sha3_224, .hash .fixed 1, 0x00010005#32),
      (.sha3_256, .hash .fixed 2, 0x00020005#32), (.sha3_384, .hash .fixed 3, 0x00030005#32),
      (.sha3_512, .hash .fixed 4, 0x00040005#32), (.shake128, .hash .xof 0, 0x00000105#32),
      (.shake256, .hash .xof 2, 0x00020105#32)],
    encode p.1 = p.2.2 ∧ decode p.2.2 = .ok p.2.1 ∧ ∀ s, exec p.1 s = exec p.2.1 s

/-- Words written out from the field positions of 30_encoding.md §1 and the opcode map of §2. -/
def Obligations.SampleWordsDecodeAsTheMapSays : Prop :=
  decode 0x00000001#32 = .ok .kf ∧ decode 0x00020002#32 = .ok (.spinit .fixed 2) ∧
    decode 0x00050105#32 = .ok (.hash .xof 5) ∧ decode 0x00000318#32 = .ok (.sig 3) ∧
    decode 0x00000219#32 = .ok (.isig 2) ∧ decode 0x00000023#32 = .ok .st4 ∧ decode 0x0000002B#32 = .ok .ist4 ∧
    decode 0x00000132#32 = .ok (.benc .thr) ∧ decode 0x00000033#32 = .ok (.bdec .seq)

/-- A step runs the decoded instruction (20_memory.md R66 HostIssue, 30_encoding.md R79): where the host's next
operation issues a word that decodes, the step is the meaning of that instruction on the state with the operation
taken; where it does not decode, only `ERR = 4` and `ERRINFO = cw` are written (60_exceptions.md R235). `pending` and
`reply` are the model's own fields (log 1, log 9). -/
def Obligations.StepRunsTheIssuedCommand : Prop :=
  ∀ (s : State) (cw : Word) (rest : List HostOp), s.pending = .issue cw :: rest →
    (∀ i, decode cw = .ok i → step s = exec i { s with pending := rest, reply := none }) ∧
      ((∀ i, decode cw ≠ .ok i) →
        step s = .next { s with pending := rest, reply := none, err := 4, errInfo := cw })

/-! ## The machine as a whole -/

/-- 10_state.md R39: the reset values, as the host reads them, and every buffer and table empty. `pending` and `reply`
are the model's own fields (log 1, log 9). -/
def Obligations.ResetLeavesTheStatedValues : Prop :=
  (∀ i : Fin 25, State.reset.sponge.lanes[i] = 0) ∧ State.reset.sponge.packed = 0 ∧
    (∀ b, State.reset.mem.get b = []) ∧ State.reset.len = 0 ∧ State.reset.w = 0 ∧
    State.reset.cipher.csv = 0 ∧ getReg State.reset 10 = some 0 ∧ getReg State.reset 11 = some 0 ∧
    (∀ i : Fin 32, State.reset.fb[i] = 0) ∧ State.reset.vIB = false ∧ State.reset.err = 0 ∧ State.reset.errInfo = 0 ∧
    State.reset.nblock = 1 ∧ State.reset.items = []

/-- 60_exceptions.md R230: every command ends in exactly one of two ways, success with `ERR = 0` or one error with its
code of R231; in both the machine has a next state. -/
def Obligations.EveryCommandEndsInSuccessOrOneError : Prop :=
  ∀ (i : Instr) (s : State), ∃ t, exec i s = .next t ∧
    ((t.err = 0 ∧ t.errInfo = 0) ∨ (1 ≤ t.err.toNat ∧ t.err.toNat ≤ 9))

/-- 10_state.md §3, §4, §6 and 30_encoding.md §2: what each piece of state is written by. No command writes a buffer only
the host writes, `LEN`, `FB`, `NBLOCK`, an item's key or extension, or the number of items; `W` changes only under SIG
and ISIG, `DIG` and the sponge context only under sponge commands, `BUF` only under stage and cipher commands, `IB` only
under LINV, the item table only under batch commands, the cipher state only under the derivation commands, CSCLR and the
cipher and batch commands. `pending` and `reply` are the model's own fields (log 1, log 9). -/
def Obligations.EachPieceOfStateHasItsWriters : Prop :=
  ∀ (i : Instr) (s t : State), exec i s = .next t →
    t.mem.key = s.mem.key ∧ t.mem.ext = s.mem.ext ∧ t.mem.msg = s.mem.msg ∧ t.len = s.len ∧ t.fb = s.fb ∧
    t.nblock = s.nblock ∧ t.pending = s.pending ∧ t.reply = s.reply ∧
    t.items.map (fun it => (it.key, it.ext)) = s.items.map (fun it => (it.key, it.ext)) ∧
    ((∀ k, i ≠ .sig k ∧ i ≠ .isig k) → t.w = s.w) ∧
    (i ≠ .spfin → (∀ m b, i.expand ≠ .hash m b) → t.mem.dig = s.mem.dig) ∧
    (i ∉ [.kf, .spabs, .spfin] → (∀ m b, i ≠ .spinit m b ∧ i.expand ≠ .hash m b) → t.sponge = s.sponge) ∧
    (i.expand ∉ [.st1, .st2, .st3, .st4, .st5, .ist1, .ist2, .ist3, .ist4, .enc, .dec] → t.mem.buf = s.mem.buf) ∧
    (i ≠ .linv → t.ib = s.ib) ∧
    ((∀ m, i ≠ .benc m ∧ i ≠ .bdec m) → t.items = s.items) ∧
    (i ∉ [.dcsel, .dcext, .dssel, .dtgen, .dks, .drnd, .csclr, .enc, .dec] → (∀ m, i ≠ .benc m ∧ i ≠ .bdec m) →
      t.cipher = s.cipher)

/-- One invariant (`State.Inv`), kept by every step from every state that has it: 10_state.md R21, R24, R28, R32, R33,
the item table within `NITEMS_MAX` (20_memory.md R66), a constructed pair of mode and level supported and a finalized
context at position 0 (40_sponge.md R95, R100, R103), the codes of 60_exceptions.md R231. That valid registers are
functions of the present `KEY` is the spec's own inference in 10_state.md R28; that an item's key and data are within
`KEY_MAX` and `BUF_MAX` (`items_fit`) is the model's choice (log 13) and no rule of the spec. -/
def Obligations.StepKeepsTheInvariant : Prop :=
  ∀ s t : State, s.Inv Config.impl → step s = .next t → t.Inv Config.impl

/-- The invariant holds after reset (10_state.md §8). -/
def Obligations.ResetHasTheInvariant : Prop := ∀ c : Config, State.reset.Inv c

/-! ## Sponge Core -/

/-- 40_sponge.md R90: the five steps of a round and the 24 rounds of `KeccakF`, lane by lane; indices modulo 5. -/
def Obligations.KeccakRoundIsTheFiveSteps : Prop :=
  (∀ (a : Lanes) (x y : Fin 5),
    (theta a)[laneIndex x y] = a[laneIndex x y] ^^^
      ((a[laneIndex (x + 4) 0] ^^^ a[laneIndex (x + 4) 1] ^^^ a[laneIndex (x + 4) 2] ^^^ a[laneIndex (x + 4) 3] ^^^
          a[laneIndex (x + 4) 4]) ^^^
        rotl64 (a[laneIndex (x + 1) 0] ^^^ a[laneIndex (x + 1) 1] ^^^ a[laneIndex (x + 1) 2] ^^^
          a[laneIndex (x + 1) 3] ^^^ a[laneIndex (x + 1) 4]) 1)) ∧
  (∀ (a : Lanes) (x y : Fin 5),
    (rhoPi a)[laneIndex y (2 * x + 3 * y)] = rotl64 a[laneIndex x y] (rotationOffset x y)) ∧
  (∀ (b : Lanes) (x y : Fin 5),
    (chi b)[laneIndex x y] =
      b[laneIndex x y] ^^^ (~~~b[laneIndex (x + 1) y] &&& b[laneIndex (x + 2) y])) ∧
  (∀ (a : Lanes) (rc : Lane) (x y : Fin 5),
    (iota a rc)[laneIndex x y] = if x = 0 ∧ y = 0 then a[laneIndex x y] ^^^ rc else a[laneIndex x y]) ∧
  (∀ a : Lanes, keccakF a =
    (List.finRange 24).foldl (fun a ir => iota (chi (rhoPi (theta a))) (roundConstant ir)) a)

/-- 10_state.md R23: XORing a byte into the byte view changes that state byte and no other. -/
def Obligations.XorByteChangesOneStateByte : Prop :=
  ∀ (a : Lanes) (i j : Nat) (v : Byte), i < 200 → j < 200 →
    stateByte (xorByte a j v) i = if i = j then stateByte a i ^^^ v else stateByte a i

/-- 40_sponge.md R96: absorb keeps the position below the rate, permutes each time the block is full and at no other
time, and leaves position 0 after a full block; the empty sequence changes nothing, and absorbing two chunks is absorbing
their concatenation (the spec marks this sentence as derived), so that the permutation at each full block is said of every
message. -/
def Obligations.AbsorbPermutesAtEachFullBlock : Prop :=
  ∀ (r pos : Nat) (a : Lanes) (data : Bytes), pos < r →
    (absorb r (a, pos) data).2 = (pos + data.length) % r ∧
    (pos + data.length < r → ∀ j < 200, stateByte (absorb r (a, pos) data).1 j =
      if pos ≤ j then stateByte a j ^^^ data.getD (j - pos) 0 else stateByte a j) ∧
    (∀ v, pos + data.length + 1 = r →
      absorb r (a, pos) (data ++ [v]) = (keccakF (xorByte (absorb r (a, pos) data).1 (r - 1) v), 0)) ∧
    absorb r (a, pos) [] = (a, pos) ∧
    ∀ (st : AbsorbState) (d e : Bytes), absorb r (absorb r st d) e = absorb r st (d ++ e)

/-- 40_sponge.md R98: the pad is two XORs and one permutation, and where both bytes fall on the last byte of the block
that byte receives 0x86 (FIXED) or 0x9F (XOF). -/
def Obligations.PadIsTwoXorsAndOnePermutation : Prop :=
  ∀ (l : SecLevel) (m : SpongeMode) (a : Lanes) (pos : Nat), pos < l.rate →
    pad l.rate m (a, pos) =
      keccakF (xorByte (xorByte a pos (if m = .fixed then 0x06 else 0x1F)) (l.rate - 1) 0x80) ∧
    (pos = l.rate - 1 → pad l.rate m (a, pos) = keccakF (xorByte a pos (if m = .fixed then 0x86 else 0x9F)))

/-- 40_sponge.md R99: `Squeeze` delivers exactly `n` bytes: the first bytes of the state while `n ≤ r`, with no further
permutation; beyond that the first `r` bytes, one permutation, and the rest from the permuted state. Code, bits and rate
of the five levels are those of the table of R94. -/
def Obligations.SqueezeReadsBlocksOfTheRate : Prop :=
  ∀ (l : SecLevel) (a : Lanes) (n : Nat),
    (l.code, l.bits, l.rate) ∈ [(0, 128, 168), (1, 224, 144), (2, 256, 136), (3, 384, 104), (4, 512, 72)] ∧
    (squeeze l.rate a n).1.length = n ∧
    (n ≤ l.rate → squeeze l.rate a n = ((List.range n).map (stateByte a), a)) ∧
    (0 < n → squeeze l.rate a (l.rate + n) =
      ((squeeze l.rate a l.rate).1 ++ (squeeze l.rate (keccakF a) n).1, (squeeze l.rate (keccakF a) n).2))

/-- The source's own example, 40_sponge.md R106 and 95_test_vectors.md V2a: SHA3-256 of the empty message. -/
def Obligations.Sha3OfTheEmptyMessageMatchesTheSource : Prop :=
  sha3 .sec256 [] = [0xa7, 0xff, 0xc6, 0xf8, 0xbf, 0x1e, 0xd7, 0x66, 0x51, 0xc1, 0x47, 0x56, 0xa0, 0x61, 0xd6, 0x62,
    0xf5, 0x80, 0xff, 0x4d, 0xe4, 0x3b, 0x49, 0xfa, 0x82, 0xd8, 0x0a, 0x4b, 0x80, 0xf8, 0x43, 0x4a]

/-- 40_sponge.md R93: KF permutes the lanes and changes nothing else, in every phase. -/
def Obligations.KfPermutesTheVisibleState : Prop :=
  encode .kf = 0x00000001#32 ∧ ∀ s : State, exec .kf s =
    .next { s with sponge := { s.sponge with lanes := keccakF s.sponge.lanes }, err := 0, errInfo := 0 }

/-- 40_sponge.md R95: SPINIT constructs the context in any phase, or rejects the level with the command word and leaves
the old context. -/
def Obligations.SpinitConstructsOrRejects : Prop :=
  ∀ (m : SpongeMode) (b : Byte) (s : State),
    (encode (.spinit m b)).toNat = 0x02 + 256 * (if m = .fixed then 0 else 1) + 65536 * b.toNat ∧
    if 5 ≤ b.toNat ∨ (m = .fixed ∧ b = 0) then
      exec (.spinit m b) s = .next { s with err := 3, errInfo := encode (.spinit m b) }
    else ∃ l : SecLevel, l.code = b.toNat ∧
      exec (.spinit m b) s = .next { s with
        sponge := { lanes := Vector.replicate 25 0, mode := m, sec := l, pos := 0, phase := .absorbing }
        err := 0, errInfo := 0 }

/-- 40_sponge.md R97: SPABS absorbs `MSG` into an absorbing context; in another phase it raises SequenceError(0x100). -/
def Obligations.SpabsAbsorbsTheMessage : Prop :=
  encode .spabs = 0x00000003#32 ∧ ∀ s : State,
    (s.sponge.phase = .absorbing → exec .spabs s = .next { s with
      sponge := { s.sponge with
        lanes := (absorb s.sponge.sec.rate (s.sponge.lanes, s.sponge.pos) s.mem.msg).1
        pos := (absorb s.sponge.sec.rate (s.sponge.lanes, s.sponge.pos) s.mem.msg).2 }
      err := 0, errInfo := 0 }) ∧
    (s.sponge.phase ≠ .absorbing → exec .spabs s = .next { s with err := 5, errInfo := 0x100 })

/-- 40_sponge.md R100: SPFIN pads, squeezes `sec/8` bytes in FIXED mode and `LEN` in XOF mode into `DIG`, and finalizes
the context; SequenceError(0x100) outside ABSORBING, CapacityExceeded for a digest beyond a finite `DIG_MAX`. That the
test applies in FIXED mode too is the model's reading of R100 against 60_exceptions.md R239 (log 12). -/
def Obligations.SpfinDeliversTheDigest : Prop :=
  ∀ (c : Config) (s : State), ∃ (n : Nat) (out : Bytes × Lanes),
    n = (if s.sponge.mode = .fixed then s.sponge.sec.bits / 8 else s.len) ∧
    out = squeeze s.sponge.sec.rate (pad s.sponge.sec.rate s.sponge.mode (s.sponge.lanes, s.sponge.pos)) n ∧
    exec .spfin s = .next (runSpfin Config.impl s) ∧
    runSpfin c s =
      if s.sponge.phase ≠ .absorbing then { s with err := 5, errInfo := 0x100 }
      else if within c.digMax n = false then { s with err := 9, errInfo := 0 }
      else { s with
        sponge := { s.sponge with lanes := out.2, pos := 0, phase := .done }
        mem := { s.mem with dig := out.1 }
        err := 0, errInfo := 0 }

/-- 40_sponge.md R102: HASH delivers `SHA3(sec, MSG)` or `SHAKE(sec, MSG, LEN)` in any phase and leaves a finalized
context with the last permuted state; an unsupported level is rejected first, then a digest beyond a finite `DIG_MAX`,
and then nothing has changed. That the test applies in FIXED mode too is the model's reading (log 12). -/
def Obligations.HashDeliversTheHashFunction : Prop :=
  ∀ (c : Config) (m : SpongeMode) (b : Byte) (s : State),
    exec (.hash m b) s = .next (runHash Config.impl m b s) ∧
    ((5 ≤ b.toNat ∨ (m = .fixed ∧ b = 0)) →
      runHash c m b s = { s with err := 3, errInfo := encode (.hash m b) }) ∧
    (∀ (l : SecLevel) (n : Nat), l.code = b.toNat → ¬(m = .fixed ∧ b = 0) →
      n = (if m = .fixed then l.bits / 8 else s.len) →
      runHash c m b s =
        if within c.digMax n = false then { s with err := 9, errInfo := 0 }
        else { s with
          sponge := {
            lanes := (squeeze l.rate (pad l.rate m (absorb l.rate (Vector.replicate 25 0, 0) s.mem.msg)) n).2
            mode := m, sec := l, pos := 0, phase := .done }
          mem := { s.mem with dig := if m = .fixed then sha3 l s.mem.msg else shake l s.mem.msg s.len }
          err := 0, errInfo := 0 })

/-- 30_encoding.md §4 (the table of pseudo-instructions) and 40_sponge.md §3: the six hash spellings deliver the standard
functions their names say, unless the digest is beyond a finite `DIG_MAX` (in FIXED mode too: the model's reading,
log 12). -/
def Obligations.HashSpellingsDeliverTheirFunctions : Prop :=
  ∀ (s : State) (p : Instr × SpongeMode × SecLevel), p ∈ [(Instr.sha3_224, SpongeMode.fixed, SecLevel.sec224),
      (.sha3_256, .fixed, .sec256), (.sha3_384, .fixed, .sec384), (.sha3_512, .fixed, .sec512),
      (.shake128, .xof, .sec128), (.shake256, .xof, .sec256)] →
    ∃ (n : Nat) (lanes : Lanes), n = (if p.2.1 = .fixed then p.2.2.bits / 8 else s.len) ∧
      exec p.1 s = .next (
        if within Config.impl.digMax n = false then { s with err := 9, errInfo := 0 }
        else { s with
          sponge := { lanes := lanes, mode := p.2.1, sec := p.2.2, pos := 0, phase := .done }
          mem := { s.mem with dig := if p.2.1 = .fixed then sha3 p.2.2 s.mem.msg else shake p.2.2 s.mem.msg s.len }
          err := 0, errInfo := 0 })

/-- 40_sponge.md §3, its sentence on chunked hashing, which the spec marks as derived: SPINIT, then SPABS with each chunk
loaded in turn, then SPFIN, leaves the same `DIG` and the same context as HASH of the whole message. -/
def Obligations.ChunkedHashingEqualsOneShot : Prop :=
  ∀ (c : Config) (m : SpongeMode) (b : Byte) (chunks : List Bytes) (s : State),
    (supportedLevel m b).isSome = true →
    let chunked := runSpfin c (chunks.foldl
      (fun s chunk => runSpabs { s with mem := { s.mem with msg := chunk } }) (runSpinit m b s))
    let oneShot := runHash c m b { s with mem := { s.mem with msg := chunks.flatten } }
    chunked.err = oneShot.err ∧ chunked.mem.dig = oneShot.mem.dig ∧
      (oneShot.err = 0 → chunked.sponge = oneShot.sponge)

/-! ## Derivation units -/

/-- 60_exceptions.md R232 (a): every derivation command, ENC and DEC raise InvalidKey(0) on the empty key, whatever else
is wrong; the derivation commands then change nothing else, ENC and DEC only clear `CSV`. -/
def Obligations.EmptyKeyIsInvalid : Prop :=
  ∀ s : State, s.mem.key = [] →
    (∀ i ∈ [Instr.dcsel, .dcext, .dssel, .dtgen, .dks, .drnd],
      exec i s = .next { s with err := 1, errInfo := 0 }) ∧
    (∀ i ∈ [Instr.enc, .dec],
      exec i s = .next { s with cipher := CipherState.empty, err := 1, errInfo := 0 })

/-- 41_constants_sigma.md R121, R124 and 42_subst_keystream_rounds.md R157, R160, R166, with the values of R120, R161,
R162, R164 and R165: DCSEL, DCEXT, DTGEN, DKS and DRND write their groups of the cipher state and nothing else; with the
empty key each raises InvalidKey(0). -/
def Obligations.DerivationCommandsWriteTheirGroups : Prop :=
  encode .dcsel = 0x00000010#32 ∧ encode .dcext = 0x00000011#32 ∧ encode .dtgen = 0x00000013#32 ∧
  encode .dks = 0x00000014#32 ∧ encode .drnd = 0x00000015#32 ∧
  ∀ s : State,
    (s.mem.key = [] → ∀ i ∈ [Instr.dcsel, .dcext, .dtgen, .dks, .drnd],
      exec i s = .next { s with err := 1, errInfo := 0 }) ∧
    (s.mem.key ≠ [] →
      (∃ k : Tag, k.val = (s.mem.key.map fun b => b.toNat % 4).sum % 4 ∧
        exec .dcsel s = .next { s with cipher := { s.cipher with csel := some k }, err := 0, errInfo := 0 } ∧
        exec .dcext s = .next { s with
          cipher := { s.cipher with csel := some k, addx := some (cext Config.impl.addc[k].toList s.len) }
          err := 0, errInfo := 0 }) ∧
      exec .dtgen s = .next { s with
        cipher := { s.cipher with tables := some (tgen Config.impl s.mem.key) }, err := 0, errInfo := 0 } ∧
      (keystream s.mem.key s.len).length = s.len ∧
      exec .dks s = .next { s with
        cipher := { s.cipher with ks := some (keystream s.mem.key s.len) }, err := 0, errInfo := 0 } ∧
      (∃ (bc rc : Nat) (r : RoundRegs), bc = popNat (leNat s.mem.key) ∧
        rc = ((primeSet Config.impl.primeRule (bc / 2)).map fun p => bc % p).sum ∧
        r = { kint := leNat s.mem.key, bitcnt := bc, rcount := rc, rounds := if rc = 0 then 1 else 1 + clog2 rc } ∧
        exec .drnd s = .next { s with
          cipher := { s.cipher with rounds := some r }, err := 0, errInfo := 0 }))

/-- 41_constants_sigma.md R125, R127: DSSEL writes the tag, or raises InvalidKey(0) on the empty key and InvalidKey(1)
where the digest has no set bit (R126; no such key is known, so the case stands as a branch and not as a hypothesis). -/
def Obligations.DsselWritesTheTagOrRejectsTheKey : Prop :=
  encode .dssel = 0x00000012#32 ∧ ∀ s : State,
    (s.mem.key = [] → exec .dssel s = .next { s with err := 1, errInfo := 0 }) ∧
    (s.mem.key ≠ [] →
      ∃ (hb : Nat) (k : Tag), hb = popBytes (shake .sec128 s.mem.key 16) ∧ k.val = popBytes s.mem.key % hb % 4 ∧
        exec .dssel s = .next (
          if hb = 0 then { s with err := 1, errInfo := 1 }
          else { s with cipher := { s.cipher with ssel := some k }, err := 0, errInfo := 0 }))

/-- 41_constants_sigma.md R122: the extension starts with the base set, each 8 further words are the little-endian words
of the 32-byte SHAKE256 digest of all words before them, and it has `32 + 8*m` words for the least `m` with
`128 + 32*m ≥ target`. -/
def Obligations.CextAppendsDigestsUntilLongEnough : Prop :=
  ∀ (base : List Word) (target : Nat), base.length = 32 →
    ∃ m, (cext base target).length = 32 + 8 * m ∧ target ≤ 128 + 32 * m ∧
      (∀ m' < m, 128 + 32 * m' < target) ∧
      (cext base target).take 32 = base ∧
      ∀ j < m, ((cext base target).drop (32 + 8 * j)).take 8 =
        leWords (shake .sec256 (leBytes ((cext base target).take (32 + 8 * j))) 32)

/-- 42_subst_keystream_rounds.md R150, R151, R152: the normalised key has exactly 256 bytes; a key of 256 bytes is used
verbatim, a shorter one is followed by one constant filler byte, a longer one is four hashed slices. -/
def Obligations.NormalisedKeyByLength : Prop :=
  ∀ key : Bytes, key ≠ [] →
    (nkey key).toList = nkeyBytes key ∧
    (key.length = 256 → nkeyBytes key = key) ∧
    (key.length < 256 → ∃ last f : Byte, key.getLast? = some last ∧ key[last.toNat % key.length]? = some f ∧
      nkeyBytes key = key ++ List.replicate (256 - key.length) f) ∧
    (256 < key.length → nkeyBytes key =
      ((List.range 4).map fun i =>
        shake .sec256 ((key.drop (i * (key.length / 4))).take (key.length / 4)) 64).flatten)

/-- 42_subst_keystream_rounds.md R154, R155, R156: entry 0 of the table is the shift value of shift 0, entry `i` that of
`(T[i-1] + i) mod 256`; the shift value of `s` is the root of the sum of the squares of `M[0][s]`, `M[s][0]` and the
entry those two index, modulo 256. -/
def Obligations.TransformTableIsTheChain : Prop :=
  ∀ (c : Config) (key : Bytes),
    let nk := nkey key
    let entry := fun i j : Byte => (c.sbox[i.toNat] * nk[j.toNat] : Byte)
    let shift := fun s : Byte => BitVec.ofNat 8 (Nat.sqrt ((entry 0 s).toNat ^ 2 + (entry s 0).toNat ^ 2 +
      (entry (entry 0 s) (entry s 0)).toNat ^ 2))
    (tgen c key).nkey = nk ∧ (tgen c key).table[0] = shift 0 ∧
      ∀ i : Fin 255, (tgen c key).table[i.val + 1] =
        shift ((tgen c key).table[i.val] + BitVec.ofNat 8 (i.val + 1))

/-- 00_scope.md R10, R11, R12 and 42_subst_keystream_rounds.md R165: `popcount` of a number below `2^k` is how many of its
bits below `k` are 1, that of a byte sequence the sum over its bytes, and that of the key integer that of the key's bytes
(R10 marks this sentence as derived), `isqrt n` is the largest `r` with `r*r ≤ n`, `clog2 n` the least
`m` with `2^m ≥ n`, and the repetition count is `1 + clog2`, or 1 for the round count 0. -/
def Obligations.IntegerFunctionsAreExact : Prop :=
  (∀ n k : Nat, n < 2 ^ k → popNat n = (List.range k).countP fun i => n.testBit i) ∧
  (∀ bs : Bytes, popBytes bs = (bs.map fun b => (List.range 8).countP fun i => b.getLsbD i).sum) ∧
  (∀ key : Bytes, popNat (leNat key) = popBytes key) ∧
  (∀ n r : Nat, r ≤ isqrt n ↔ r * r ≤ n) ∧
  repetitions 0 = 1 ∧
  ∀ n m : Nat, 1 ≤ n → (clog2 n ≤ m ↔ n ≤ 2 ^ m) ∧ repetitions n = 1 + clog2 n

/-- 42_subst_keystream_rounds.md R158: the stream has exactly `n` bytes; up to the key's length it is the key's first
bytes; then the key's SHA3-256 digest; then round after round the digest of the window ANDed with the latest digest
block, truncated to `n`. -/
def Obligations.KeystreamIsKeyThenDigests : Prop :=
  ∀ (key : Bytes) (n : Nat), key ≠ [] →
    (keystream key n).length = n ∧
    (n ≤ key.length → keystream key n = key.take n) ∧
    keystream key (key.length + 32) = key ++ sha3 .sec256 key ∧
    (∀ j, let s := keystream key (key.length + 32 * (j + 1))
      let rs := min key.length 32
      keystream key (key.length + 32 * (j + 2)) = s ++ sha3 .sec256 (List.zipWith (· &&& ·)
        ((s.drop (s.length - 32 - rs)).take rs) ((s.drop (s.length - 32)).take rs))) ∧
    (∀ m, n ≤ m → keystream key n = (keystream key m).take n)

/-- 42_subst_keystream_rounds.md R163: the candidates are the primes from 2 to `h`, or under `reference_literal` the
primes up to 137 and every integer from 138 to `h`; each once, and the two rules agree for `h ≤ 137`. -/
def Obligations.PrimeSetIsThePrimesUpToTheBound : Prop :=
  ∀ h p : Nat,
    (p ∈ primeSet .truePrimes h ↔ p.Prime ∧ p ≤ h) ∧
    (p ∈ primeSet .referenceLiteral h ↔ (p.Prime ∧ p ≤ min h 137) ∨ (138 ≤ p ∧ p ≤ h)) ∧
    (primeSet .truePrimes h).Nodup ∧ (primeSet .referenceLiteral h).Nodup ∧
    (h ≤ 137 → primeSet .truePrimes h = primeSet .referenceLiteral h)

/-- 42_subst_keystream_rounds.md R167: CSCLR clears the six valid bits, so that no cipher-state register holds a value,
and changes nothing else. -/
def Obligations.CsclrDiscardsTheCipherState : Prop :=
  encode .csclr = 0x00000016#32 ∧ ∀ s : State, ∃ t, exec .csclr s = .next t ∧ t.cipher.csv = 0 ∧
    t = { s with cipher := ⟨none, none, none, none, none, none⟩, err := 0, errInfo := 0 }

/-! ## Mixing functions and the inverter -/

/-- 41_constants_sigma.md R129, R132: SIG and ISIG replace `W` and change nothing else. -/
def Obligations.SigAndIsigReplaceW : Prop :=
  ∀ (k : Tag) (s : State),
    (encode (.sig k)).toNat = 0x18 + 256 * k.val ∧ (encode (.isig k)).toNat = 0x19 + 256 * k.val ∧
    exec (.sig k) s = .next { s with w := sigma Config.impl k s.w, err := 0, errInfo := 0 } ∧
    exec (.isig k) s = .next { s with w := isigma Config.impl k s.w, err := 0, errInfo := 0 }

/-- 41_constants_sigma.md §3: the mixing function is the XOR of the right-rotations of the word by the amounts of its set
(R128), said bit by bit: bit `i` is the parity of how many amounts `r` bring a set bit there, from `(i + r) mod 32`; so the
mixing functions are linear over GF(2) (R130, first sentence) and commute with rotation (its remark marked derived). -/
def Obligations.SigmaIsLinear : Prop :=
  ∀ (c : Config) (k : Tag) (x y : Word) (n : Nat),
    (∀ i < 32, (sigma c k x).getLsbD i =
      decide ((c.sigmaRot[k].countP fun r => x.getLsbD ((i + r.val) % 32)) % 2 = 1)) ∧
    sigma c k (x ^^^ y) = sigma c k x ^^^ sigma c k y ∧ sigma c k 0 = 0 ∧
      sigma c k (x.rotateLeft n) = (sigma c k x).rotateLeft n

/-- 10_state.md R31: `INVB[k][i]` is the unique word that `sigma_k` sends to `e_i`; equivalently the table is what the
inverter gives for the columns `sigma_k(e_i)`. -/
def Obligations.BasisTablesInvertSigma : Prop :=
  ∀ (c : Config) (k : Tag),
    (∀ (i : Fin 32) (v : Word), sigma c k v = unitWord i.val ↔ v = (invb c k)[i]) ∧
    lininv (Vector.ofFn fun i => sigma c k (unitWord i.val)) = some (invb c k)

/-- 41_constants_sigma.md §3 (the source's property test, which its R133 makes a theorem of the model): every mixing
function and its inverse by basis vectors undo each other, under every configuration. -/
def Obligations.SigmaAndIsigmaAreInverse : Prop :=
  ∀ (c : Config) (k : Tag) (x : Word), isigma c k (sigma c k x) = x ∧ sigma c k (isigma c k x) = x

/-- 41_constants_sigma.md R134: where the columns are linearly independent, `lininv` gives the unique 32 words that the
map sends to the unit vectors; where they are dependent it gives nothing. -/
def Obligations.LininvInvertsExactlyTheBijections : Prop :=
  ∀ f : Vector Word 32,
    ((∃ x : Word, x ≠ 0 ∧ xorOverBits f x = 0) → lininv f = none) ∧
    ((∀ x : Word, xorOverBits f x = 0 → x = 0) →
      ∃ g, lininv f = some g ∧ ∀ (i : Fin 32) (v : Word), xorOverBits f v = unitWord i.val ↔ v = g[i])

/-- 41_constants_sigma.md R135: LINV writes the inverse's columns and sets `V_IB`, or raises SingularMap and clears
`V_IB`; nothing else changes. -/
def Obligations.LinvWritesTheInverseOrIsSingular : Prop :=
  encode .linv = 0x0000001A#32 ∧ ∀ s : State,
    ((∃ x : Word, x ≠ 0 ∧ xorOverBits s.fb x = 0) →
      exec .linv s = .next { s with ib := none, err := 6, errInfo := 0 }) ∧
    ((∀ x : Word, xorOverBits s.fb x = 0 → x = 0) → ∃ g : Vector Word 32,
      exec .linv s = .next { s with ib := some g, err := 0, errInfo := 0 } ∧
      ∀ i : Fin 32, xorOverBits s.fb g[i] = unitWord i.val)

/-! ## Stages -/

/-- 43_pipeline_stages.md R180, 60_exceptions.md R236 (a): a stage command whose needed valid bits are not all 1 raises
SequenceError with the needed bits that are 0 and changes nothing else. What each command needs is in 43_pipeline_stages.md
R182 and R184 (Stage 1), R186 and R188 (Stage 2), R190 and R192 (Stage 3), R198 (Stage 5). -/
def Obligations.StageCommandsNeedTheirValidBits : Prop :=
  ∀ (s : State) (p : Instr × BitVec 6), p ∈ [(Instr.st1, 0x02#6), (.ist1, 0x02#6), (.st2, 0x05#6), (.ist2, 0x05#6),
      (.st3, 0x28#6), (.ist3, 0x28#6), (.st5, 0x10#6), (.ist5, 0x10#6)] →
    p.2 &&& ~~~s.cipher.csv ≠ 0 →
    exec p.1 s = .next { s with err := 5, errInfo := (p.2 &&& ~~~s.cipher.csv).setWidth 32 }

/-- 43_pipeline_stages.md R181, R182, R183, R184: with `ADDX` valid, ST1 adds and IST1 subtracts byte by byte the
little-endian bytes of `ADDX`, repeated; nothing else changes. -/
def Obligations.Stage1AddsTheConstantBytes : Prop :=
  ∀ (s : State) (x : List Word), s.cipher.addx = some x → 32 ≤ x.length →
    (leBytes x).length = 4 * x.length ∧
    (∃ b, exec .st1 s = .next { s with mem := { s.mem with buf := b }, err := 0, errInfo := 0 } ∧
      b.length = s.mem.buf.length ∧ ∀ i < s.mem.buf.length,
        b.getD i 0 = s.mem.buf.getD i 0 + (leBytes x).getD (i % (4 * x.length)) 0) ∧
    (∃ b, exec .ist1 s = .next { s with mem := { s.mem with buf := b }, err := 0, errInfo := 0 } ∧
      b.length = s.mem.buf.length ∧ ∀ i < s.mem.buf.length,
        b.getD i 0 = s.mem.buf.getD i 0 - (leBytes x).getD (i % (4 * x.length)) 0)

/-- 43_pipeline_stages.md R185, R186, R187, R188: with `CSEL` and `SSEL` valid, ST2 replaces each whole group of four
bytes by the little-endian bytes of the mixed big-endian word and adds to each trailing byte the low byte of its mixed
constant; IST2 replaces each whole group by the big-endian bytes of the recovered word and subtracts the same masks;
nothing else changes. -/
def Obligations.Stage2MixesWordsThenTrailingBytes : Prop :=
  ∀ (s : State) (set k : Tag) (old : Bytes) (n : Nat) (at4 : Nat → Byte) (con : Nat → Word),
    s.cipher.csel = some set → s.cipher.ssel = some k → old = s.mem.buf → n = old.length / 4 →
    (∀ i, at4 i = old.getD i 0) → (∀ i, con i = (Config.impl.mixc[set])[i % 32]) →
    (∃ b, exec .st2 s = .next { s with mem := { s.mem with buf := b }, err := 0, errInfo := 0 } ∧
      b.length = old.length ∧
      (∀ i < n, (b.drop (4 * i)).take 4 = toLE32 (sigma Config.impl k
        (be32 (at4 (4 * i)) (at4 (4 * i + 1)) (at4 (4 * i + 2)) (at4 (4 * i + 3)) + con i))) ∧
      (∀ t < old.length % 4, b.getD (4 * n + t) 0 =
        at4 (4 * n + t) + (sigma Config.impl k (con (n + t))).setWidth 8)) ∧
    (∃ b, exec .ist2 s = .next { s with mem := { s.mem with buf := b }, err := 0, errInfo := 0 } ∧
      b.length = old.length ∧
      (∀ i < n, (b.drop (4 * i)).take 4 = toBE32 (isigma Config.impl k
        (le32 (at4 (4 * i)) (at4 (4 * i + 1)) (at4 (4 * i + 2)) (at4 (4 * i + 3))) - con i)) ∧
      (∀ t < old.length % 4, b.getD (4 * n + t) 0 =
        at4 (4 * n + t) - (sigma Config.impl k (con (n + t))).setWidth 8))

/-- 43_pipeline_stages.md R189, R190, R191, R192: with `ROUNDS` and `T` valid, ST3 leaves at each index the byte that
stood `ROUNDS` positions further on, cyclically, sent `ROUNDS` times through the substitution box, plus the table's
entry; IST3 subtracts the table first and leaves at index `i + ROUNDS`, cyclically, what came from index `i`, sent
`ROUNDS` times through the inverse box of 00_scope.md R5 (a); nothing else changes. -/
def Obligations.Stage3SubstitutesRotatesAndMasks : Prop :=
  (∀ (c : Config) (v : Byte), isboxAt c c.sbox[v.toNat] = v) ∧
  ∀ (s : State) (r : RoundRegs) (t : KeyTables), s.cipher.rounds = some r → s.cipher.tables = some t →
    (∃ b, exec .st3 s = .next { s with mem := { s.mem with buf := b }, err := 0, errInfo := 0 } ∧
      b.length = s.mem.buf.length ∧
      ∀ i < s.mem.buf.length, b.getD i 0 =
        (fun v : Byte => Config.impl.sbox[v.toNat])^[r.rounds] (s.mem.buf.getD ((i + r.rounds) % s.mem.buf.length) 0) +
          t.table[i % 256]) ∧
    (∃ b, exec .ist3 s = .next { s with mem := { s.mem with buf := b }, err := 0, errInfo := 0 } ∧
      b.length = s.mem.buf.length ∧
      ∀ i < s.mem.buf.length, b.getD ((i + r.rounds) % s.mem.buf.length) 0 =
        (isboxAt Config.impl)^[r.rounds] (s.mem.buf.getD i 0 - t.table[i % 256]))

/-- 43_pipeline_stages.md R193, R194: ST4 appends the extension and the byte of its length; InvalidExtension with the
length for more than 255 bytes, then CapacityExceeded beyond a finite `BUF_MAX`; nothing else changes, `EXT`
included. -/
def Obligations.Stage4AppendsTheExtensionAndItsLength : Prop :=
  encode .st4 = 0x00000023#32 ∧ ∀ (c : Config) (s : State),
    exec .st4 s = .next (runSt4 Config.impl s) ∧
    (255 < s.mem.ext.length →
      runSt4 c s = { s with err := 7, errInfo := BitVec.ofNat 32 s.mem.ext.length }) ∧
    (∀ m, s.mem.ext.length ≤ 255 → c.bufMax = some m → m < s.mem.buf.length + s.mem.ext.length + 1 →
      runSt4 c s = { s with err := 9, errInfo := 0 }) ∧
    (s.mem.ext.length ≤ 255 → (∀ m, c.bufMax = some m → s.mem.buf.length + s.mem.ext.length + 1 ≤ m) →
      ∃ e : Byte, e.toNat = s.mem.ext.length ∧ runSt4 c s = { s with
        mem := { s.mem with buf := s.mem.buf ++ s.mem.ext ++ [e] }, err := 0, errInfo := 0 })

/-- 43_pipeline_stages.md R195, R196: IST4 drops the last `e + 1` bytes, `e` the last byte; InvalidCiphertext(0) on the
empty buffer, InvalidCiphertext(1) where the trailer is longer than the buffer; nothing else changes. -/
def Obligations.InverseStage4DropsTheTrailer : Prop :=
  encode .ist4 = 0x0000002B#32 ∧ ∀ s : State,
    (s.mem.buf = [] → exec .ist4 s = .next { s with err := 2, errInfo := 0 }) ∧
    ∀ (rest : Bytes) (e : Byte), s.mem.buf = rest ++ [e] →
      (rest.length < e.toNat → exec .ist4 s = .next { s with err := 2, errInfo := 1 }) ∧
      (e.toNat ≤ rest.length → exec .ist4 s = .next { s with
        mem := { s.mem with buf := rest.take (rest.length - e.toNat) }, err := 0, errInfo := 0 })

/-- 43_pipeline_stages.md R198, with R197: with a keystream of the buffer's length ST5 (also spelled IST5) XORs it into
the buffer byte by byte; without a keystream it raises SequenceError(0x10), with one of another length
SequenceError(0x200); nothing else changes. -/
def Obligations.Stage5XorsTheKeystream : Prop :=
  encode .st5 = 0x00000024#32 ∧ encode .ist5 = 0x00000024#32 ∧
  ∀ s : State, ∀ i ∈ [Instr.st5, .ist5],
    (s.cipher.ks = none → exec i s = .next { s with err := 5, errInfo := 0x10 }) ∧
    ∀ ks : Bytes, s.cipher.ks = some ks →
      (ks.length ≠ s.mem.buf.length → exec i s = .next { s with err := 5, errInfo := 0x200 }) ∧
      (ks.length = s.mem.buf.length →
        ∃ b, exec i s = .next { s with mem := { s.mem with buf := b }, err := 0, errInfo := 0 } ∧
          b.length = s.mem.buf.length ∧
          ∀ j < s.mem.buf.length, b.getD j 0 = s.mem.buf.getD j 0 ^^^ ks.getD j 0)

/-- 43_pipeline_stages.md, the five inverse identities, which the spec marks as derived: each inverse stage undoes its
stage, under every configuration. -/
def Obligations.InverseStagesUndoTheStages : Prop :=
  ∀ (c : Config) (b : Bytes),
    (∀ x, invStage1 x (stage1 x b) = b) ∧
    (∀ set k, invStage2 c set k (stage2 c set k b) = b) ∧
    (∀ n t, invStage3 c n t (stage3 c n t b) = b) ∧
    (∀ x, x.length ≤ 255 → invStage4 (stage4 x b) = .ok b) ∧
    (∀ ks, ks.length = b.length → stage5 ks (stage5 ks b) = b)

/-! ## Encrypt, decrypt, batch -/

/-- 44_cipher_batch.md R210, with the capacity test and the exit of R211: what ENC leaves, with its errors in the order
tested; the five stages in order with every derived value; `CSV` is cleared on every exit and nothing but `BUF`, `CSV`,
`ERR` and `ERRINFO` changes. No key with a zero digest is known, so that case stands as a branch and not as a
hypothesis. -/
def Obligations.EncEncryptsTheBufferOrReports : Prop :=
  ∀ (c : Config) (s : State) (key : Bytes), s.mem.key = key →
    exec .enc s = .next (runEnc Config.impl s) ∧
    (key = [] → runEnc c s = { s with cipher := CipherState.empty, err := 1, errInfo := 0 }) ∧
    (key ≠ [] → ∃ (hb : Nat) (set k : Tag) (n : Nat) (ct : Bytes), hb = popBytes (shake .sec128 key 16) ∧
      set.val = (key.map fun b => b.toNat % 4).sum % 4 ∧ k.val = popBytes key % hb % 4 ∧
      n = s.mem.buf.length + s.mem.ext.length + 1 ∧ ct.length = n ∧
      ct = stage5 (keystream key n) (stage4 s.mem.ext (stage3 c (roundRegs c key).rounds (tgen c key).table
        (stage2 c set k (stage1 (cext c.addc[set].toList s.mem.buf.length) s.mem.buf)))) ∧
      runEnc c s =
        if hb = 0 then { s with cipher := CipherState.empty, err := 1, errInfo := 1 }
        else if 255 < s.mem.ext.length then
          { s with cipher := CipherState.empty, err := 7, errInfo := BitVec.ofNat 32 s.mem.ext.length }
        else if within c.bufMax n = false then { s with cipher := CipherState.empty, err := 9, errInfo := 0 }
        else { s with mem := { s.mem with buf := ct }, cipher := CipherState.empty, err := 0, errInfo := 0 })

/-- 44_cipher_batch.md R212, with the exit of R213: what DEC leaves, with its errors in the order tested; the inverse
stages in the order 5, 4, 3, 2, 1; `CSV` is cleared on every exit and nothing but `BUF`, `CSV`, `ERR` and `ERRINFO`
changes. The trailer byte is the last byte with its mask removed. -/
def Obligations.DecDecryptsTheBufferOrReports : Prop :=
  ∀ (c : Config) (s : State) (key : Bytes), s.mem.key = key →
    exec .dec s = .next (runDec Config.impl s) ∧
    (key = [] → runDec c s = { s with cipher := CipherState.empty, err := 1, errInfo := 0 }) ∧
    (key ≠ [] → ∃ (hb : Nat) (set k : Tag) (open5 pt : Bytes) (e : Byte), hb = popBytes (shake .sec128 key 16) ∧
      set.val = (key.map fun b => b.toNat % 4).sum % 4 ∧ k.val = popBytes key % hb % 4 ∧
      open5 = stage5 (keystream key s.mem.buf.length) s.mem.buf ∧ e = open5.getD (open5.length - 1) 0 ∧
      pt = invStage1 (cext c.addc[set].toList (s.mem.buf.length - e.toNat - 1))
        (invStage2 c set k (invStage3 c (roundRegs c key).rounds (tgen c key).table
          (open5.take (s.mem.buf.length - e.toNat - 1)))) ∧
      runDec c s =
        if hb = 0 then { s with cipher := CipherState.empty, err := 1, errInfo := 1 }
        else if s.mem.buf = [] then { s with cipher := CipherState.empty, err := 2, errInfo := 0 }
        else if s.mem.buf.length < e.toNat + 1 then { s with cipher := CipherState.empty, err := 2, errInfo := 1 }
        else { s with mem := { s.mem with buf := pt }, cipher := CipherState.empty, err := 0, errInfo := 0 })

/-- 44_cipher_batch.md §3, the round trip the source requires (its R214, which the spec derives): under every
configuration, every key that is not rejected, every plaintext and every draw of at most 255 bytes. -/
def Obligations.DecryptUndoesEncrypt : Prop :=
  ∀ (c : Config) (p key x ct : Bytes), encrypt c p key x = .ok ct →
    ct.length = p.length + x.length + 1 ∧ decrypt c ct key = .ok p

/-- 44_cipher_batch.md §3, the extent of the draw's influence (its R216, which the spec derives): two ciphertexts of the
same plaintext under the same key agree on the plaintext's length, and where the draws are equally long on the last
byte. -/
def Obligations.DrawsOnlyReachTheAppendedRegion : Prop :=
  ∀ (c : Config) (p key x x' ct ct' : Bytes), encrypt c p key x = .ok ct → encrypt c p key x' = .ok ct' →
    ct.take p.length = ct'.take p.length ∧ (x.length = x'.length → ct.getLast? = ct'.getLast?)

/-- 44_cipher_batch.md §1, the equivalence the spec derives (its R211): where ENC succeeds, the derivation and stage
commands in order leave the same `BUF` and the same cipher state. -/
def Obligations.EncEqualsTheStageCommands : Prop :=
  ∀ (c : Config) (s : State), (runEnc c s).err = 0 →
    let setLen := fun s : State => { s with len := s.mem.buf.length }
    let afterStage4 := runSt4 c (runSt3 c (runSt2 c (runSt1 (runDrnd c (runDtgen c (runDssel (runDcext c
      (setLen s))))))))
    let final := runCsclr (runSt5 (runDks (setLen afterStage4)))
    final.mem.buf = (runEnc c s).mem.buf ∧ final.cipher = (runEnc c s).cipher ∧ final.err = 0

/-- 44_cipher_batch.md §2, the equivalence the spec derives (its R213): where DEC succeeds, the stage commands in reverse
order leave the same `BUF` and the same cipher state. -/
def Obligations.DecEqualsTheStageCommands : Prop :=
  ∀ (c : Config) (s : State), (runDec c s).err = 0 →
    let setLen := fun s : State => { s with len := s.mem.buf.length }
    let afterStage2 := runIst2 c (runDcsel (runIst3 c (runDrnd c (runDtgen c (runDssel (runIst4 (runSt5 (runDks
      (setLen s)))))))))
    let final := runCsclr (runIst1 (runDcext c (setLen afterStage2)))
    final.mem.buf = (runDec c s).mem.buf ∧ final.cipher = (runDec c s).cipher ∧ final.err = 0

/-- 44_cipher_batch.md §4 (its R220, which the spec derives): whatever turns the workers take, for every block size,
every item is processed once, in its own slot. -/
def Obligations.EveryInterleavingGivesTheSameTable : Prop :=
  ∀ (f : Item → Item) (schedule : List Nat) (nb : Nat) (items : List Item), 1 ≤ nb →
    processItems f (interleave schedule (workers nb items.length)) items = items.map f

/-- 44_cipher_batch.md R217: the workers hold the contiguous blocks of `nb` indices in order, together every index once,
only the last block shorter. -/
def Obligations.WorkersPartitionTheItems : Prop :=
  ∀ nb n : Nat, 1 ≤ nb →
    (workers nb n).flatten = List.range n ∧
    (workers nb n).length = (n + nb - 1) / nb ∧
    (∀ w q, (workers nb n)[w]? = some q → q.head? = some (w * nb) ∧
      (w + 1 < (workers nb n).length → q.length = nb))

/-- 44_cipher_batch.md R218, R219, R221: in either mode and for every block size but 0, BENC and BDEC leave each item with
its own result or, failing, its data and its code; `CSV` is cleared; BatchItemFailed with the least failing index where
there is one; nothing else changes. Block size 0 raises SequenceError(0x400) and leaves the table. -/
def Obligations.BatchCommandsProcessEveryItem : Prop :=
  ∀ (mode : ExecMode) (s : State) (p : Instr × (Item → Except CmdError Bytes)),
    p ∈ [(Instr.benc mode, fun it => encryptWithin Config.impl it.data it.key it.ext),
      (.bdec mode, fun it => decrypt Config.impl it.data it.key)] →
    (s.nblock = 0 → exec p.1 s = .next { s with cipher := CipherState.empty, err := 5, errInfo := 0x400 }) ∧
    (s.nblock ≠ 0 → ∃ (table : List Item) (code : Byte) (detail : Word),
      table = s.items.map (fun it => match p.2 it with
        | .ok d => { it with data := d, err := 0 }
        | .error e => { it with err := e.code.num }) ∧
      exec p.1 s = .next { s with items := table, cipher := CipherState.empty, err := code, errInfo := detail } ∧
      ((∀ it ∈ table, it.err = 0) → code = 0 ∧ detail = 0) ∧
      (∀ i, (∀ j < i, ∀ it, table[j]? = some it → it.err = 0) → (∃ it, table[i]? = some it ∧ it.err ≠ 0) →
        code = 8 ∧ detail = BitVec.ofNat 32 i))

/-- 44_cipher_batch.md §4 (the source's batch property, R219): after a BENC in which no item failed, a BDEC in any mode
with any block size but 0 restores every item and no item fails. -/
def Obligations.BatchDecryptRestoresTheItems : Prop :=
  ∀ (mode mode' : ExecMode) (s t : State) (nb : Nat), 1 ≤ nb →
    exec (.benc mode) s = .next t → t.err = 0 →
    ∃ u, exec (.bdec mode') { t with nblock := nb } = .next u ∧ u.err = 0 ∧
      u.items.map (fun it => (it.key, it.data, it.ext)) = s.items.map (fun it => (it.key, it.data, it.ext))

/-! ## The host -/

/-- 20_memory.md R66, the operations that write, where they are not refused: HostLoad (clearing `CSV` for `KEY`),
HostSetReg, HostSetFB (clearing `V_IB`), HostLoadItems (zeroing every `IERR`), reset. A step performs the operation the
host has next. `pending` and `reply` are the model's own fields (log 1, log 9); `EXT` has no capacity (log 13). -/
def Obligations.HostWritesDoWhatTheTableSays : Prop :=
  ∀ (c : Config) (s : State),
    (∀ op rest, s.pending = op :: rest → step s = hostStep op { s with pending := rest, reply := none }) ∧
    (∀ n b, hostStep (.load n b) s = hostLoad Config.impl n b s) ∧
    (∀ b, within c.keyMax b.length = true →
      hostLoad c .key b s = .next { s with mem := { s.mem with key := b }, cipher := CipherState.empty }) ∧
    (∀ b, within c.bufMax b.length = true → hostLoad c .buf b s = .next { s with mem := { s.mem with buf := b } }) ∧
    (∀ b, hostLoad c .ext b s = .next { s with mem := { s.mem with ext := b } }) ∧
    (∀ b, within c.msgMax b.length = true → hostLoad c .msg b s = .next { s with mem := { s.mem with msg := b } }) ∧
    (∀ r v, hostStep (.setReg r v) s = hostSetReg Config.impl r v s) ∧
    (∀ v, (∀ n, c.lenBits = some n → v < 2 ^ n) → hostSetReg c .len v s = .next { s with len := v }) ∧
    (∀ v : Word, hostSetReg c .w v.toNat s = .next { s with w := v }) ∧
    (∀ v, hostSetReg c .nblock v s = .next { s with nblock := v }) ∧
    (∀ i v, hostStep (.setFB i v) s = .next { s with fb := s.fb.set i.val v, ib := none }) ∧
    (∀ l, hostStep (.loadItems l) s = hostLoadItems Config.impl l s) ∧
    (∀ l, within c.nitemsMax l.length = true → (∀ it ∈ l, itemFits c it = true) →
      hostLoadItems c l s = .next { s with
        items := l.map fun it => { key := it.1, data := it.2.1, ext := it.2.2, err := 0 } }) ∧
    hostStep .reset s = .next { State.reset with pending := s.pending }

/-- 20_memory.md R61, R66: a host read returns its value and has no side effect on the block: what the step leaves differs
from the state before it in the model's own two fields alone (log 1, log 9). The value of each register number is that of the
table of 10_state.md R35, `none` where the register holds no value, and the value of each array is its element `i`. That
`ADDXLEN` and `KSLEN` can be read while invalid is the model's reading (log 7), and so are the form of the values, the whole
field as element `i` of an item field (log 20), and how `i` reaches the tables with two indices (log 22). -/
def Obligations.HostReadsHaveNoSideEffect : Prop :=
  ∀ (s : State) (rest : List HostOp),
    (∀ b, s.pending = .read b :: rest →
      step s = .next { s with pending := rest, reply := some (.bytes (s.mem.get b)) }) ∧
    (∀ b i v, s.pending = .readByte b i :: rest → (s.mem.get b)[i]? = some v →
      step s = .next { s with pending := rest, reply := some (.number v.toNat) }) ∧
    (∀ r v, s.pending = .getReg r :: rest → getReg s r = some v →
      step s = .next { s with pending := rest, reply := some (.number v) }) ∧
    (∀ x i v, s.pending = .getArr x i :: rest → getArr Config.impl s x i = some v →
      step s = .next { s with pending := rest, reply := some v }) ∧
    (getReg s 0 = some s.err.toNat ∧ getReg s 1 = some s.errInfo.toNat ∧ getReg s 2 = some s.len ∧
      getReg s 3 = some s.w.toNat ∧ getReg s 4 = some s.mem.key.length ∧ getReg s 5 = some s.mem.buf.length ∧
      getReg s 6 = some s.mem.ext.length ∧ getReg s 7 = some s.mem.msg.length ∧ getReg s 8 = some s.mem.dig.length ∧
      getReg s 9 = some ((if s.sponge.mode = .fixed then 0 else 1) + 2 * s.sponge.sec.code +
        16 * (if s.sponge.phase = .idle then 0 else if s.sponge.phase = .absorbing then 1 else 2) +
        64 * s.sponge.pos) ∧
      getReg s 10 = some ((s.cipher.addx.map List.length).getD 0) ∧
      getReg s 11 = some ((s.cipher.ks.map List.length).getD 0) ∧
      getReg s 12 = some ((if s.cipher.csel.isSome then 1 else 0) + (if s.cipher.addx.isSome then 2 else 0) +
        (if s.cipher.ssel.isSome then 4 else 0) + (if s.cipher.tables.isSome then 8 else 0) +
        (if s.cipher.ks.isSome then 16 else 0) + (if s.cipher.rounds.isSome then 32 else 0)) ∧
      getReg s 13 = s.cipher.csel.map Fin.val ∧ getReg s 14 = s.cipher.ssel.map Fin.val ∧
      getReg s 15 = s.cipher.rounds.map (fun r => r.bitcnt) ∧ getReg s 16 = s.cipher.rounds.map (fun r => r.rcount) ∧
      getReg s 17 = s.cipher.rounds.map (fun r => r.rounds) ∧ getReg s 18 = some s.nblock ∧
      getReg s 19 = some s.items.length ∧ getReg s 20 = some (if s.ib.isSome then 1 else 0) ∧
      getReg s 21 = s.cipher.rounds.map (fun r => r.kint)) ∧
    ∀ c : Config,
      (∀ i : Fin 25, getArr c s .lanes i = some (.number s.sponge.lanes[i].toNat)) ∧
      (∀ i : Fin 32, getArr c s .fb i = some (.number s.fb[i].toNat)) ∧
      (∀ g, s.ib = some g → ∀ i : Fin 32, getArr c s .ib i = some (.number g[i].toNat)) ∧
      (∀ t, s.cipher.tables = some t → ∀ i : Fin 256,
        getArr c s .nkey i = some (.number t.nkey[i].toNat) ∧ getArr c s .table i = some (.number t.table[i].toNat)) ∧
      (∀ x i v, s.cipher.addx = some x → x[i]? = some v → getArr c s .addx i = some (.number v.toNat)) ∧
      (∀ ks i v, s.cipher.ks = some ks → ks[i]? = some v → getArr c s .ks i = some (.number v.toNat)) ∧
      (∀ (k : Tag) (i : Fin 32), getArr c s (.addc k) i = some (.number c.addc[k][i].toNat) ∧
        getArr c s (.mixc k) i = some (.number c.mixc[k][i].toNat) ∧
        getArr c s (.invb k) i = some (.number (invb c k)[i].toNat)) ∧
      (∀ i : Fin 256, getArr c s .sbox i = some (.number c.sbox[i].toNat) ∧
        getArr c s .isbox c.sbox[i].toNat = some (.number i.val)) ∧
      (∀ ir : Fin 24, getArr c s .rc ir = some (.number (roundConstant ir).toNat)) ∧
      (∀ x y : Fin 5, getArr c s .rho (x.val + 5 * y.val) = some (.number (rotationOffset x y))) ∧
      (∀ i it, s.items[i]? = some it → getArr c s .ikey i = some (.bytes it.key) ∧
        getArr c s .ibuf i = some (.bytes it.data) ∧ getArr c s .iext i = some (.bytes it.ext) ∧
        getArr c s .ierr i = some (.number it.err.toNat))

/-- 20_memory.md R66, the refusals: which host operations the block refuses. A refused operation gives no step (log 8);
`EXT` has no capacity and the item fields have those of `KEY` and `BUF` (log 13); `ADDXLEN` and `KSLEN` are never refused
(log 7). HostGetArr is refused for an index at or above the array's length, and for an array whose valid bit is 0; the length
of an item field is the number of items (log 20), that of one set or tag of `ADDC`, `MIXC` or `INVB` is 32 (log 22). The
rows that are never refused, HostRead of a whole buffer, HostSetFB, HostIssue and reset, are the last clause. -/
def Obligations.HostOperationsAreRefusedAsTheTableSays : Prop :=
  ∀ (c : Config) (s : State),
    (∀ n b, hostLoad c n b s = .refused .loadExceedsCapacity ↔
      ∃ m, m < b.length ∧ (n = .key ∧ c.keyMax = some m ∨ n = .buf ∧ c.bufMax = some m ∨ n = .msg ∧ c.msgMax = some m)) ∧
    (∀ b i, hostReadByte b i s = .refused .readBeyondLength ↔ (s.mem.get b).length ≤ i) ∧
    (∀ r v, hostSetReg c r v s = .refused .valueExceedsWidth ↔
      r = .w ∧ 2 ^ 32 ≤ v ∨ r = .len ∧ ∃ n, c.lenBits = some n ∧ 2 ^ n ≤ v) ∧
    (∀ r, hostGetReg r s = .refused .registerHoldsNoValue ↔
      r = 13 ∧ s.cipher.csv.getLsbD 0 = false ∨ r = 14 ∧ s.cipher.csv.getLsbD 2 = false ∨
        r ∈ [15, 16, 17, 21] ∧ s.cipher.csv.getLsbD 5 = false) ∧
    (∀ x i, hostGetArr c x i s = .refused .elementHoldsNoValue ↔
      x = .lanes ∧ 25 ≤ i ∨ x = .fb ∧ 32 ≤ i ∨ x = .ib ∧ (s.vIB = false ∨ 32 ≤ i) ∨
        x ∈ [.nkey, .table] ∧ (s.cipher.csv.getLsbD 3 = false ∨ 256 ≤ i) ∨
        x = .addx ∧ (s.cipher.csv.getLsbD 1 = false ∨ ∃ ws, s.cipher.addx = some ws ∧ ws.length ≤ i) ∨
        x = .ks ∧ (s.cipher.csv.getLsbD 4 = false ∨ ∃ ks, s.cipher.ks = some ks ∧ ks.length ≤ i) ∨
        (∃ k, x ∈ [.addc k, .mixc k, .invb k]) ∧ 32 ≤ i ∨ x ∈ [.sbox, .isbox] ∧ 256 ≤ i ∨
        x = .rc ∧ 24 ≤ i ∨ x = .rho ∧ 25 ≤ i ∨ x ∈ [.ikey, .ibuf, .iext, .ierr] ∧ s.items.length ≤ i) ∧
    (∀ l, hostLoadItems c l s = .refused .itemsExceedCapacity ↔
      (∃ m, c.nitemsMax = some m ∧ m < l.length) ∨
        ∃ it ∈ l, ∃ m, c.keyMax = some m ∧ m < it.1.length ∨ c.bufMax = some m ∧ m < it.2.1.length) ∧
    ∀ op, (∃ b, op = .read b) ∨ (∃ i v, op = .setFB i v) ∨ (∃ cw, op = .issue cw) ∨ op = .reset →
      ∃ t, hostStep op s = .next t
end

