-- ==== Sys2Proof/Laws/Bytes.lean ====
section
/-!
SUPPORT. The byte-order helpers and the integer functions: what each computes (00_scope.md R9 to R12).
-/

namespace Sys2Proof.Machine

/-- The bytes of an assembled word (00_scope.md R9). -/
theorem wordByte_le32 (b0 b1 b2 b3 : Byte) :
    wordByte (le32 b0 b1 b2 b3) 0 = b0 ∧ wordByte (le32 b0 b1 b2 b3) 1 = b1 ∧
    wordByte (le32 b0 b1 b2 b3) 2 = b2 ∧ wordByte (le32 b0 b1 b2 b3) 3 = b3 := by
  have h : ∀ i, (le32 b0 b1 b2 b3).getLsbD i =
    if i < 8 then b0.getLsbD i else if i < 16 then b1.getLsbD (i - 8) else if i < 24 then b2.getLsbD (i - 16)
    else b3.getLsbD (i - 24) := by
    intro i
    change BitVec.getLsbD (w := 8+8+8+8) (b3 ++ b2 ++ b1 ++ b0) i = _
    simp only [BitVec.getLsbD_append]
    by_cases h1 : i < 8
    · simp [h1]
    · by_cases h2 : i < 16
      · simp [h1, h2, show i - 8 < 8 by omega]
      · by_cases h3 : i < 24
        · simp [h1, h2, h3, show ¬ i - 8 < 8 by omega, show i - 8 - 8 < 8 by omega, show i - 16 = i - 8 - 8 by omega]
        · simp [h1, h2, h3, show ¬ i - 8 < 8 by omega, show ¬ i - 8 - 8 < 8 by omega, show i - 24 =
            i - 8 - 8 - 8 by omega]
  refine ⟨?_, ?_, ?_, ?_⟩ <;> (apply BitVec.eq_of_getLsbD_eq; intro i hi; simp only [wordByte,
    BitVec.getLsbD_extractLsb', h, hi, decide_true, Bool.true_and])
  · simp [hi]
  · simp [hi, show 8 + i < 16 by omega]
  · simp [show ¬ 16 + i < 8 by omega, hi, show 16 + i < 24 by omega]
  · simp [show ¬ 24 + i < 8 by omega, show ¬ 24 + i < 16 by omega]

/-- A word is assembled from its bytes (00_scope.md R9). -/
theorem le32_wordByte (w : Word) : le32 (wordByte w 0) (wordByte w 1) (wordByte w 2) (wordByte w 3) = w := by
  obtain ⟨h0, h1, h2, h3⟩ := wordByte_le32 (wordByte w 0) (wordByte w 1) (wordByte w 2) (wordByte w 3)
  apply BitVec.eq_of_getLsbD_eq; intro i hi
  have key : ∀ (u v : Word) (k : Nat), wordByte u k = wordByte v k → 8 * k ≤ i → i < 8 * k + 8 → u.getLsbD i =
    v.getLsbD i := by
    intro u v k h hl hr
    have := congrArg (fun b => b.getLsbD (i - 8 * k)) h
    simpa [wordByte, show i - 8 * k < 8 by omega, show 8 * k + (i - 8 * k) = i by omega] using this
  rcases (by omega : i < 8 ∨ (8 ≤ i ∧ i < 16) ∨ (16 ≤ i ∧ i < 24) ∨ 24 ≤ i) with h | h | h | h
  · exact key _ _ 0 h0 (by omega) (by omega)
  · exact key _ _ 1 h1 (by omega) (by omega)
  · exact key _ _ 2 h2 (by omega) (by omega)
  · exact key _ _ 3 h3 (by omega) (by omega)

/-- `BE32` is `LE32` of the reversed bytes (00_scope.md R9). -/
theorem be32_eq (b0 b1 b2 b3 : Byte) : be32 b0 b1 b2 b3 = le32 b3 b2 b1 b0 := rfl

/-- `toLE32` undoes `LE32` (00_scope.md R9). -/
theorem toLE32_le32 (b0 b1 b2 b3 : Byte) : toLE32 (le32 b0 b1 b2 b3) = [b0, b1, b2, b3] := by
  obtain ⟨h0, h1, h2, h3⟩ := wordByte_le32 b0 b1 b2 b3
  simp [toLE32, h0, h1, h2, h3]

/-- `toBE32` undoes `BE32` (00_scope.md R9). -/
theorem toBE32_be32 (b0 b1 b2 b3 : Byte) : toBE32 (be32 b0 b1 b2 b3) = [b0, b1, b2, b3] := by
  obtain ⟨h0, h1, h2, h3⟩ := wordByte_le32 b3 b2 b1 b0
  simp [toBE32, be32_eq, h0, h1, h2, h3]

/-- `LEbytes` gives four bytes a word (20_memory.md R55). -/
theorem leBytes_length (ws : List Word) : (leBytes ws).length = 4 * ws.length := by
  induction ws with
  | nil => rfl
  | cons w ws ih => simp only [leBytes, List.flatMap_cons, List.length_append] at ih ⊢; rw [ih]; simp [toLE32]; omega

/-- One word for each whole group of four bytes (20_memory.md R55). -/
theorem leWords_length : ∀ bs : Bytes, (leWords bs).length = bs.length / 4
  | [] => rfl
  | [_] => by simp [leWords]
  | [_, _] => by simp [leWords]
  | [_, _, _] => by simp [leWords]
  | _ :: _ :: _ :: _ :: rest => by simp only [leWords, List.length_cons, leWords_length rest]; omega

/-- The loop of `isqrt` closes in on the root. -/
theorem isqrtFrom_spec (n : Nat) : ∀ k r, r * r ≤ n → n < (r + 2 ^ k) * (r + 2 ^ k) →
    isqrtFrom n k r * isqrtFrom n k r ≤ n ∧ n < (isqrtFrom n k r + 1) * (isqrtFrom n k r + 1)
  | 0, r, h1, h2 => ⟨h1, by simpa [isqrtFrom] using h2⟩
  | k + 1, r, h1, h2 => by
    unfold isqrtFrom
    split
    · next h => exact isqrtFrom_spec n k _ h (by rw [pow_succ] at h2; convert h2 using 2 <;> ring)
    · next h => exact isqrtFrom_spec n k _ h1 (by omega)

/-- `isqrt` is the root from below and its successor is not (00_scope.md R11). -/
theorem isqrt_spec (n : Nat) : isqrt n * isqrt n ≤ n ∧ n < (isqrt n + 1) * (isqrt n + 1) := by
  apply isqrtFrom_spec
  · simp
  · have h1 : n < 2 ^ (n.log2 + 1) := Nat.lt_log2_self
    have h2 : 2 ^ (n.log2 + 1) ≤ 2 ^ ((n.log2 / 2 + 1) + (n.log2 / 2 + 1)) :=
      Nat.pow_le_pow_right (by norm_num) (by omega)
    rw [pow_add 2 (n.log2 / 2 + 1)] at h2
    simp only [zero_add]
    omega

/-- `isqrt` is the natural square root (00_scope.md R11). -/
theorem isqrt_eq_sqrt (n : Nat) : isqrt n = Nat.sqrt n :=
  Nat.eq_sqrt.2 (isqrt_spec n)

/-- `clog2` by its bound (00_scope.md R12). -/
theorem clog2_le (n m : Nat) (h : 1 ≤ n) : clog2 n ≤ m ↔ n ≤ 2 ^ m := by
  unfold clog2
  split
  · have : n = 1 := by omega
    subst this; simp; exact Nat.one_le_two_pow
  · rw [Nat.add_one_le_iff, Nat.log2_lt (by omega)]
    omega

/-- The bits of a number, counted up to any bound above its highest one. -/
theorem popNat_eq (n k : Nat) (h : n < 2 ^ k) : popNat n = (List.range k).countP fun i => n.testBit i := by
  have key : ∀ a b, a ≤ b → n < 2 ^ a → (List.range b).countP (fun i => n.testBit i) =
    (List.range a).countP fun i => n.testBit i := by
    intro a b hab hn
    obtain ⟨d, rfl⟩ := Nat.exists_eq_add_of_le hab
    rw [List.range_add, List.countP_append, List.countP_map]
    have : List.countP ((fun i => n.testBit i) ∘ fun x => a + x) (List.range d) = 0 := by
      rw [List.countP_eq_zero]
      intro i _
      simp only [Function.comp]
      rw [Nat.testBit_lt_two_pow]
      · simp
      · exact hn.trans_le (Nat.pow_le_pow_right (by norm_num) (by omega))
    omega
  unfold popNat
  have hl : n < 2 ^ (n.log2 + 1) := Nat.lt_log2_self
  rcases Nat.le_total k (n.log2 + 1) with h' | h'
  · exact key _ _ h' h
  · exact (key _ _ h' hl).symm

/-- The bits of a number with one more byte below it (00_scope.md R10). -/
theorem popNat_add (b n : Nat) (h : b < 256) : popNat (b + 256 * n) = popNat b + popNat n := by
  have hn : n < 2 ^ (n.log2 + 1) := Nat.lt_log2_self
  set k := n.log2 + 1
  have h1 : b + 256 * n < 2 ^ (8 + k) := by rw [pow_add]; norm_num; omega
  rw [popNat_eq _ _ h1, popNat_eq b 8 (by simpa using h), popNat_eq n k hn, List.range_add, List.countP_append,
    List.countP_map]
  congr 1
  · apply List.countP_congr
    intro i hi
    rw [List.mem_range] at hi
    rw [add_comm, show 256 * n = 2 ^ 8 * n by norm_num, Nat.testBit_two_pow_mul_add _ (by simpa using h)]
    simp [hi]
  · apply List.countP_congr
    intro i hi
    simp only [Function.comp]
    rw [add_comm b, show 256 * n = 2 ^ 8 * n by norm_num, Nat.testBit_two_pow_mul_add _ (by simpa using h)]
    simp

/-- The bits of `LEnat` are the bits of the bytes (00_scope.md R10). -/
theorem popNat_leNat (bs : Bytes) : popNat (leNat bs) = popBytes bs := by
  induction bs with
  | nil => rfl
  | cons b bs ih =>
    rw [leNat, popNat_add _ _ b.isLt, ih]
    simp [popBytes]

end Sys2Proof.Machine
end

