-- ==== Sys2Proof/Laws/Keccak.lean ====
section
/-!
SUPPORT. The permutation's tables, the absorb and squeeze loops, and the lengths of the hash functions (40_sponge.md).
-/

namespace Sys2Proof.Machine

/-- A lane of a table is its function at the column and row. -/
theorem laneTable_get (f : Fin 5 → Fin 5 → Lane) (x y : Fin 5) : (laneTable f)[laneIndex x y] = f x y := by
  simp only [laneTable, laneIndex, Fin.getElem_fin, Vector.getElem_ofFn]
  congr 1
  · exact Fin.ext (by simp)
  · exact Fin.ext (by simp; omega)

/-- There is no state byte at 200 or above. -/
theorem xorByte_ge (a : Lanes) (j : Nat) (v : Byte) (hj : 200 ≤ j) : xorByte a j v = a := by
  simp [xorByte, show ¬ j / 8 < 25 by omega]

/-- Two XORs into one state byte. -/
theorem xorByte_xorByte (a : Lanes) (j : Nat) (u v : Byte) : xorByte (xorByte a j u) j v = xorByte a j (u ^^^ v) := by
  unfold xorByte
  split
  · apply Vector.ext; intro i hi
    simp only [Vector.getElem_set]
    split
    · next h => subst h; simp [BitVec.xor_assoc, BitVec.setWidth_xor, BitVec.shiftLeft_xor_distrib]
    · rfl
  · rfl

/-- Absorbing nothing. -/
theorem absorb_nil (r : Nat) (st : AbsorbState) : absorb r st [] = st := rfl

/-- Absorbing one byte more. -/
theorem absorb_cons (r : Nat) (st : AbsorbState) (v : Byte) (d : Bytes) : absorb r st (v :: d) =
    absorb r (absorbByte r st v) d := rfl

/-- Chunks concatenate (40_sponge.md R96). -/
theorem absorb_append (r : Nat) (st : AbsorbState) (d e : Bytes) : absorb r st (d ++ e) =
    absorb r (absorb r st d) e :=
  List.foldl_append

/-- The position after absorbing (40_sponge.md R96). -/
theorem absorb_pos (r : Nat) (st : AbsorbState) (d : Bytes) (h : st.2 < r) : (absorb r st d).2 =
    (st.2 + d.length) % r := by
  induction d generalizing st with
  | nil => simp [absorb_nil, Nat.mod_eq_of_lt h]
  | cons v d ih =>
    rw [absorb_cons]
    unfold absorbByte
    split
    · next h1 => rw [ih _ (by dsimp only; omega)]; dsimp only; rw [List.length_cons, show st.2 + (d.length + 1) =
        r + d.length by omega]; simp
    · next h1 => rw [ih _ (by dsimp only; omega)]; dsimp only; congr 1; simp; omega

/-- The loop of `Squeeze` delivers the bytes asked for. -/
theorem squeezeFrom_length (r n j : Nat) (a : Lanes) : (squeezeFrom r n j a).1.length = n := by
  induction n generalizing j a with
  | zero => rfl
  | succ n ih => unfold squeezeFrom; split <;> simp [ih]

/-- Inside one block the loop of `Squeeze` reads the state bytes in order. -/
theorem squeezeFrom_within (r n j : Nat) (a : Lanes) (h : j + n ≤ r) :
    squeezeFrom r n j a = ((List.range' j n).map (stateByte a), a) := by
  induction n generalizing j with
  | zero => rfl
  | succ n ih => rw [squeezeFrom, if_neg (by omega), ih _ (by omega)]; simp [List.range'_succ]

/-- The loop of `Squeeze` in two parts, the first inside the block. -/
theorem squeezeFrom_add (r m n j : Nat) (a : Lanes) (h : j + m ≤ r) :
    squeezeFrom r (m + n) j a = ((squeezeFrom r m j a).1 ++ (squeezeFrom r n (j + m) a).1,
      (squeezeFrom r n (j + m) a).2) := by
  induction m generalizing j with
  | zero => simp [squeezeFrom]
  | succ m ih =>
    rw [show m + 1 + n = (m + n) + 1 by omega, squeezeFrom, if_neg (by omega), ih _ (by omega)]
    rw [squeezeFrom, if_neg (by omega)]
    simp [show j + 1 + m = j + (m + 1) by omega]

/-- At the end of a block the loop of `Squeeze` permutes. -/
theorem squeezeFrom_full (r n : Nat) (a : Lanes) (h : 0 < r) : squeezeFrom r (n + 1) r a =
    squeezeFrom r (n + 1) 0 (keccakF a) := by
  rw [squeezeFrom, if_pos rfl, squeezeFrom, if_neg (by omega)]

/-- The rates lie between 72 and 168 bytes (40_sponge.md R94). -/
theorem rate_bounds (l : SecLevel) : 72 ≤ l.rate ∧ l.rate ≤ 168 := by cases l <;> decide

/-- No rate is 0. -/
theorem rate_pos (l : SecLevel) : 0 < l.rate := by have := (rate_bounds l).1; omega

/-- `Squeeze` delivers `L` bytes (40_sponge.md R99). -/
theorem squeeze_length (r n : Nat) (a : Lanes) : (squeeze r a n).1.length = n := squeezeFrom_length r n 0 a

/-- A hash has the length asked for. -/
theorem spongeHash_length (m : SpongeMode) (l : SecLevel) (d : Bytes) (n : Nat) : (spongeHash m l d n).length =
    n := squeeze_length _ _ _

/-- The length of a fixed digest (40_sponge.md R94). -/
theorem sha3_length (l : SecLevel) (d : Bytes) : (sha3 l d).length = l.bits / 8 := spongeHash_length _ _ _ _

/-- The length of an extendable output. -/
theorem shake_length (l : SecLevel) (d : Bytes) (n : Nat) : (shake l d n).length = n := spongeHash_length _ _ _ _

end Sys2Proof.Machine
end

