-- ==== Sys2Proof/Laws/State.lean ====
section
/-!
SUPPORT. The small lemmas of every state update: what each field is after it. All true by unfolding the update once, so
that no later proof unfolds one.
-/

namespace Sys2Proof.Machine

/-! `commit` on success: every field but `ERR` and `ERRINFO` is the new state's. -/

@[simp] theorem commit_ok_sponge (s t : State) : (s.commit (.ok t)).sponge = t.sponge := rfl
@[simp] theorem commit_ok_mem (s t : State) : (s.commit (.ok t)).mem = t.mem := rfl
@[simp] theorem commit_ok_len (s t : State) : (s.commit (.ok t)).len = t.len := rfl
@[simp] theorem commit_ok_w (s t : State) : (s.commit (.ok t)).w = t.w := rfl
@[simp] theorem commit_ok_cipher (s t : State) : (s.commit (.ok t)).cipher = t.cipher := rfl
@[simp] theorem commit_ok_fb (s t : State) : (s.commit (.ok t)).fb = t.fb := rfl
@[simp] theorem commit_ok_ib (s t : State) : (s.commit (.ok t)).ib = t.ib := rfl
@[simp] theorem commit_ok_err (s t : State) : (s.commit (.ok t)).err = 0 := rfl
@[simp] theorem commit_ok_errInfo (s t : State) : (s.commit (.ok t)).errInfo = 0 := rfl
@[simp] theorem commit_ok_nblock (s t : State) : (s.commit (.ok t)).nblock = t.nblock := rfl
@[simp] theorem commit_ok_items (s t : State) : (s.commit (.ok t)).items = t.items := rfl
@[simp] theorem commit_ok_pending (s t : State) : (s.commit (.ok t)).pending = t.pending := rfl
@[simp] theorem commit_ok_reply (s t : State) : (s.commit (.ok t)).reply = t.reply := rfl

/-! `commit` on an error: every field but `ERR` and `ERRINFO` is as it was. -/

@[simp] theorem commit_error_sponge (s : State) (e : CmdError) : (s.commit (.error e)).sponge = s.sponge := rfl
@[simp] theorem commit_error_mem (s : State) (e : CmdError) : (s.commit (.error e)).mem = s.mem := rfl
@[simp] theorem commit_error_len (s : State) (e : CmdError) : (s.commit (.error e)).len = s.len := rfl
@[simp] theorem commit_error_w (s : State) (e : CmdError) : (s.commit (.error e)).w = s.w := rfl
@[simp] theorem commit_error_cipher (s : State) (e : CmdError) : (s.commit (.error e)).cipher = s.cipher := rfl
@[simp] theorem commit_error_fb (s : State) (e : CmdError) : (s.commit (.error e)).fb = s.fb := rfl
@[simp] theorem commit_error_ib (s : State) (e : CmdError) : (s.commit (.error e)).ib = s.ib := rfl
@[simp] theorem commit_error_err (s : State) (e : CmdError) : (s.commit (.error e)).err = e.code.num := rfl
@[simp] theorem commit_error_errInfo (s : State) (e : CmdError) : (s.commit (.error e)).errInfo = e.info := rfl
@[simp] theorem commit_error_nblock (s : State) (e : CmdError) : (s.commit (.error e)).nblock = s.nblock := rfl
@[simp] theorem commit_error_items (s : State) (e : CmdError) : (s.commit (.error e)).items = s.items := rfl
@[simp] theorem commit_error_pending (s : State) (e : CmdError) : (s.commit (.error e)).pending = s.pending := rfl
@[simp] theorem commit_error_reply (s : State) (e : CmdError) : (s.commit (.error e)).reply = s.reply := rfl

/-! The buffers by name: reading one, and putting a byte sequence into one. -/

@[simp] theorem get_key (m : Memory) : m.get .key = m.key := rfl
@[simp] theorem get_buf (m : Memory) : m.get .buf = m.buf := rfl
@[simp] theorem get_ext (m : Memory) : m.get .ext = m.ext := rfl
@[simp] theorem get_msg (m : Memory) : m.get .msg = m.msg := rfl
@[simp] theorem get_dig (m : Memory) : m.get .dig = m.dig := rfl
@[simp] theorem put_key (m : Memory) (d : Bytes) : m.put .key d = { m with key := d } := rfl
@[simp] theorem put_buf (m : Memory) (d : Bytes) : m.put .buf d = { m with buf := d } := rfl
@[simp] theorem put_ext (m : Memory) (d : Bytes) : m.put .ext d = { m with ext := d } := rfl
@[simp] theorem put_msg (m : Memory) (d : Bytes) : m.put .msg d = { m with msg := d } := rfl
@[simp] theorem put_dig (m : Memory) (d : Bytes) : m.put .dig d = { m with dig := d } := rfl

/-! `BUF <- b`. -/

@[simp] theorem setBuf_sponge (s : State) (b : Bytes) : (s.setBuf b).sponge = s.sponge := rfl
@[simp] theorem setBuf_len (s : State) (b : Bytes) : (s.setBuf b).len = s.len := rfl
@[simp] theorem setBuf_w (s : State) (b : Bytes) : (s.setBuf b).w = s.w := rfl
@[simp] theorem setBuf_cipher (s : State) (b : Bytes) : (s.setBuf b).cipher = s.cipher := rfl
@[simp] theorem setBuf_fb (s : State) (b : Bytes) : (s.setBuf b).fb = s.fb := rfl
@[simp] theorem setBuf_ib (s : State) (b : Bytes) : (s.setBuf b).ib = s.ib := rfl
@[simp] theorem setBuf_err (s : State) (b : Bytes) : (s.setBuf b).err = s.err := rfl
@[simp] theorem setBuf_errInfo (s : State) (b : Bytes) : (s.setBuf b).errInfo = s.errInfo := rfl
@[simp] theorem setBuf_nblock (s : State) (b : Bytes) : (s.setBuf b).nblock = s.nblock := rfl
@[simp] theorem setBuf_items (s : State) (b : Bytes) : (s.setBuf b).items = s.items := rfl
@[simp] theorem setBuf_pending (s : State) (b : Bytes) : (s.setBuf b).pending = s.pending := rfl
@[simp] theorem setBuf_reply (s : State) (b : Bytes) : (s.setBuf b).reply = s.reply := rfl
@[simp] theorem setBuf_mem_key (s : State) (b : Bytes) : (s.setBuf b).mem.key = s.mem.key := rfl
@[simp] theorem setBuf_mem_buf (s : State) (b : Bytes) : (s.setBuf b).mem.buf = b := rfl
@[simp] theorem setBuf_mem_ext (s : State) (b : Bytes) : (s.setBuf b).mem.ext = s.mem.ext := rfl
@[simp] theorem setBuf_mem_msg (s : State) (b : Bytes) : (s.setBuf b).mem.msg = s.mem.msg := rfl
@[simp] theorem setBuf_mem_dig (s : State) (b : Bytes) : (s.setBuf b).mem.dig = s.mem.dig := rfl

/-! `DIG <- d`. -/

@[simp] theorem setDig_sponge (s : State) (d : Bytes) : (s.setDig d).sponge = s.sponge := rfl
@[simp] theorem setDig_len (s : State) (d : Bytes) : (s.setDig d).len = s.len := rfl
@[simp] theorem setDig_w (s : State) (d : Bytes) : (s.setDig d).w = s.w := rfl
@[simp] theorem setDig_cipher (s : State) (d : Bytes) : (s.setDig d).cipher = s.cipher := rfl
@[simp] theorem setDig_fb (s : State) (d : Bytes) : (s.setDig d).fb = s.fb := rfl
@[simp] theorem setDig_ib (s : State) (d : Bytes) : (s.setDig d).ib = s.ib := rfl
@[simp] theorem setDig_err (s : State) (d : Bytes) : (s.setDig d).err = s.err := rfl
@[simp] theorem setDig_errInfo (s : State) (d : Bytes) : (s.setDig d).errInfo = s.errInfo := rfl
@[simp] theorem setDig_nblock (s : State) (d : Bytes) : (s.setDig d).nblock = s.nblock := rfl
@[simp] theorem setDig_items (s : State) (d : Bytes) : (s.setDig d).items = s.items := rfl
@[simp] theorem setDig_pending (s : State) (d : Bytes) : (s.setDig d).pending = s.pending := rfl
@[simp] theorem setDig_reply (s : State) (d : Bytes) : (s.setDig d).reply = s.reply := rfl
@[simp] theorem setDig_mem_key (s : State) (d : Bytes) : (s.setDig d).mem.key = s.mem.key := rfl
@[simp] theorem setDig_mem_buf (s : State) (d : Bytes) : (s.setDig d).mem.buf = s.mem.buf := rfl
@[simp] theorem setDig_mem_ext (s : State) (d : Bytes) : (s.setDig d).mem.ext = s.mem.ext := rfl
@[simp] theorem setDig_mem_msg (s : State) (d : Bytes) : (s.setDig d).mem.msg = s.mem.msg := rfl
@[simp] theorem setDig_mem_dig (s : State) (d : Bytes) : (s.setDig d).mem.dig = d := rfl

/-! `CSV <- 0`. -/

@[simp] theorem clearCsv_sponge (s : State) : (s.clearCsv).sponge = s.sponge := rfl
@[simp] theorem clearCsv_mem (s : State) : (s.clearCsv).mem = s.mem := rfl
@[simp] theorem clearCsv_len (s : State) : (s.clearCsv).len = s.len := rfl
@[simp] theorem clearCsv_w (s : State) : (s.clearCsv).w = s.w := rfl
@[simp] theorem clearCsv_cipher (s : State) : (s.clearCsv).cipher = CipherState.empty := rfl
@[simp] theorem clearCsv_fb (s : State) : (s.clearCsv).fb = s.fb := rfl
@[simp] theorem clearCsv_ib (s : State) : (s.clearCsv).ib = s.ib := rfl
@[simp] theorem clearCsv_err (s : State) : (s.clearCsv).err = s.err := rfl
@[simp] theorem clearCsv_errInfo (s : State) : (s.clearCsv).errInfo = s.errInfo := rfl
@[simp] theorem clearCsv_nblock (s : State) : (s.clearCsv).nblock = s.nblock := rfl
@[simp] theorem clearCsv_items (s : State) : (s.clearCsv).items = s.items := rfl
@[simp] theorem clearCsv_pending (s : State) : (s.clearCsv).pending = s.pending := rfl
@[simp] theorem clearCsv_reply (s : State) : (s.clearCsv).reply = s.reply := rfl

/-! A value returned to the host. -/

@[simp] theorem answer_sponge (s : State) (r : Reply) : (s.answer r).sponge = s.sponge := rfl
@[simp] theorem answer_mem (s : State) (r : Reply) : (s.answer r).mem = s.mem := rfl
@[simp] theorem answer_len (s : State) (r : Reply) : (s.answer r).len = s.len := rfl
@[simp] theorem answer_w (s : State) (r : Reply) : (s.answer r).w = s.w := rfl
@[simp] theorem answer_cipher (s : State) (r : Reply) : (s.answer r).cipher = s.cipher := rfl
@[simp] theorem answer_fb (s : State) (r : Reply) : (s.answer r).fb = s.fb := rfl
@[simp] theorem answer_ib (s : State) (r : Reply) : (s.answer r).ib = s.ib := rfl
@[simp] theorem answer_err (s : State) (r : Reply) : (s.answer r).err = s.err := rfl
@[simp] theorem answer_errInfo (s : State) (r : Reply) : (s.answer r).errInfo = s.errInfo := rfl
@[simp] theorem answer_nblock (s : State) (r : Reply) : (s.answer r).nblock = s.nblock := rfl
@[simp] theorem answer_items (s : State) (r : Reply) : (s.answer r).items = s.items := rfl
@[simp] theorem answer_pending (s : State) (r : Reply) : (s.answer r).pending = s.pending := rfl
@[simp] theorem answer_reply (s : State) (r : Reply) : (s.answer r).reply = some r := rfl

/-! Taking an operation off the host's list. -/

@[simp] theorem began_sponge (s : State) (rest : List HostOp) : (s.began rest).sponge = s.sponge := rfl
@[simp] theorem began_mem (s : State) (rest : List HostOp) : (s.began rest).mem = s.mem := rfl
@[simp] theorem began_len (s : State) (rest : List HostOp) : (s.began rest).len = s.len := rfl
@[simp] theorem began_w (s : State) (rest : List HostOp) : (s.began rest).w = s.w := rfl
@[simp] theorem began_cipher (s : State) (rest : List HostOp) : (s.began rest).cipher = s.cipher := rfl
@[simp] theorem began_fb (s : State) (rest : List HostOp) : (s.began rest).fb = s.fb := rfl
@[simp] theorem began_ib (s : State) (rest : List HostOp) : (s.began rest).ib = s.ib := rfl
@[simp] theorem began_err (s : State) (rest : List HostOp) : (s.began rest).err = s.err := rfl
@[simp] theorem began_errInfo (s : State) (rest : List HostOp) : (s.began rest).errInfo = s.errInfo := rfl
@[simp] theorem began_nblock (s : State) (rest : List HostOp) : (s.began rest).nblock = s.nblock := rfl
@[simp] theorem began_items (s : State) (rest : List HostOp) : (s.began rest).items = s.items := rfl
@[simp] theorem began_pending (s : State) (rest : List HostOp) : (s.began rest).pending = rest := rfl
@[simp] theorem began_reply (s : State) (rest : List HostOp) : (s.began rest).reply = none := rfl

/-! Placing a command word. -/

@[simp] theorem placeWord_sponge (s : State) (n v : Nat) : (placeWord s n v).sponge = s.sponge := rfl
@[simp] theorem placeWord_mem (s : State) (n v : Nat) : (placeWord s n v).mem = s.mem := rfl
@[simp] theorem placeWord_len (s : State) (n v : Nat) : (placeWord s n v).len = s.len := rfl
@[simp] theorem placeWord_w (s : State) (n v : Nat) : (placeWord s n v).w = s.w := rfl
@[simp] theorem placeWord_cipher (s : State) (n v : Nat) : (placeWord s n v).cipher = s.cipher := rfl
@[simp] theorem placeWord_fb (s : State) (n v : Nat) : (placeWord s n v).fb = s.fb := rfl
@[simp] theorem placeWord_ib (s : State) (n v : Nat) : (placeWord s n v).ib = s.ib := rfl
@[simp] theorem placeWord_err (s : State) (n v : Nat) : (placeWord s n v).err = s.err := rfl
@[simp] theorem placeWord_errInfo (s : State) (n v : Nat) : (placeWord s n v).errInfo = s.errInfo := rfl
@[simp] theorem placeWord_nblock (s : State) (n v : Nat) : (placeWord s n v).nblock = s.nblock := rfl
@[simp] theorem placeWord_items (s : State) (n v : Nat) : (placeWord s n v).items = s.items := rfl
@[simp] theorem placeWord_reply (s : State) (n v : Nat) : (placeWord s n v).reply = s.reply := rfl

/-! No cipher-state register holds a value after `CSV <- 0`. -/

@[simp] theorem empty_csel : CipherState.empty.csel = none := rfl
@[simp] theorem empty_addx : CipherState.empty.addx = none := rfl
@[simp] theorem empty_ssel : CipherState.empty.ssel = none := rfl
@[simp] theorem empty_tables : CipherState.empty.tables = none := rfl
@[simp] theorem empty_ks : CipherState.empty.ks = none := rfl
@[simp] theorem empty_rounds : CipherState.empty.rounds = none := rfl

@[simp] theorem empty_csv : CipherState.empty.csv = 0 := rfl

end Sys2Proof.Machine
end

