-- ==== Sys2Proof/Laws/Ops.lean ====
section
/-!
SUPPORT. What each shared operation can do, said once: the end of a command, the buffer-writing commands, the
derivation commands, the valid bits, and the capacity test.
-/

namespace Sys2Proof.Machine

@[simp] theorem finish_eq (s : State) : finish s = .next s := rfl

/-- A command that succeeds writes its state and zeroes the status registers. -/
theorem commit_ok (s t : State) : s.commit (.ok t) = { t with err := 0, errInfo := 0 } := rfl

/-- A command that raises an error writes the status registers alone. -/
theorem commit_error (s : State) (e : CmdError) :
    s.commit (.error e) = { s with err := e.code.num, errInfo := e.info } := rfl

/-- The two ends of a command (60_exceptions.md R230). -/
theorem commit_cases (s : State) (r : Except CmdError State) :
    (∃ t, r = .ok t ∧ s.commit r = { t with err := 0, errInfo := 0 }) ∨
      ∃ e, r = .error e ∧ s.commit r = { s with err := e.code.num, errInfo := e.info } := by
  cases r with
  | ok t => exact .inl ⟨t, rfl, rfl⟩
  | error e => exact .inr ⟨e, rfl, rfl⟩

theorem commitBuf_ok (s : State) (b : Bytes) :
    s.commitBuf (.ok b) = { s with mem := { s.mem with buf := b }, err := 0, errInfo := 0 } := rfl

theorem commitBuf_error (s : State) (e : CmdError) :
    s.commitBuf (.error e) = { s with err := e.code.num, errInfo := e.info } := rfl

/-- The two ends of a command that writes `BUF`. -/
theorem commitBuf_cases (s : State) (r : Except CmdError Bytes) :
    (∃ b, r = .ok b ∧ s.commitBuf r = { s with mem := { s.mem with buf := b }, err := 0, errInfo := 0 }) ∨
      ∃ e, r = .error e ∧ s.commitBuf r = { s with err := e.code.num, errInfo := e.info } := by
  cases r with
  | ok b => exact .inl ⟨b, rfl, rfl⟩
  | error e => exact .inr ⟨e, rfl, rfl⟩

/-- A derivation on the empty key raises InvalidKey(0) (60_exceptions.md R232). -/
theorem derive_empty_key (s : State) (r : Except CmdError CipherState) (h : s.mem.key = []) :
    derive s r = { s with err := 1, errInfo := 0 } := by
  simp [derive, h, commit_error, invalidKey, ErrCode.num]

theorem derive_ok (s : State) (cs : CipherState) (h : s.mem.key ≠ []) :
    derive s (.ok cs) = { s with cipher := cs, err := 0, errInfo := 0 } := by
  simp [derive, h, commit_ok]

theorem derive_error (s : State) (e : CmdError) (h : s.mem.key ≠ []) :
    derive s (.error e) = { s with err := e.code.num, errInfo := e.info } := by
  simp [derive, h, commit_error]

/-- The codes of the errors are 1 to 9 (60_exceptions.md R231). -/
theorem num_le_nine (e : ErrCode) : e.num ≤ 9 := by cases e <;> decide

theorem num_ne_zero (e : ErrCode) : e.num ≠ 0 := by cases e <;> decide

@[simp] theorem within_none (n : Nat) : within none n = true := rfl

theorem within_some (m n : Nat) : within (some m) n = true ↔ n ≤ m := by simp [within]

/-- A shorter sequence is within every capacity a longer one is within. -/
theorem within_mono {cap : Option Nat} {m n : Nat} (h : within cap n = true) (hmn : m ≤ n) : within cap m = true := by
  cases cap with
  | none => rfl
  | some k =>
    rw [within_some] at h ⊢
    exact hmn.trans h

theorem validBit_getLsbD {α : Type} (g : Option α) (b i : Nat) (hb : b < 6) :
    (validBit g b).getLsbD i = (g.isSome && decide (i = b)) := by
  cases g with
  | none => simp [validBit]
  | some v =>
    simp only [validBit, Option.isSome_some, if_true, BitVec.getLsbD_shiftLeft, Bool.true_and]
    by_cases h : i = b
    · subst h; simp [hb]
    · by_cases h6 : i < 6 <;> by_cases hlt : i < b <;> simp [h, h6, hlt, BitVec.getLsbD_one]; omega

/-- Each bit of `CSV` says whether its group holds a value (10_state.md R27). -/
theorem csv_bits (cs : CipherState) :
    cs.csv.getLsbD 0 = cs.csel.isSome ∧ cs.csv.getLsbD 1 = cs.addx.isSome ∧ cs.csv.getLsbD 2 = cs.ssel.isSome ∧
      cs.csv.getLsbD 3 = cs.tables.isSome ∧ cs.csv.getLsbD 4 = cs.ks.isSome ∧ cs.csv.getLsbD 5 = cs.rounds.isSome := by
  refine ⟨?_, ?_, ?_, ?_, ?_, ?_⟩ <;>
    simp only [CipherState.csv, BitVec.getLsbD_or, validBit_getLsbD, Nat.reduceLT] <;> simp

/-- The status after a command (60_exceptions.md R230, R231). -/
theorem commit_ends (s : State) (r) :
    ((s.commit r).err = 0 ∧ (s.commit r).errInfo = 0) ∨
      (1 ≤ (s.commit r).err.toNat ∧ (s.commit r).err.toNat ≤ 9) := by
  cases r with
  | ok t => exact .inl ⟨rfl, rfl⟩
  | error e => exact .inr (show 1 ≤ e.code.num.toNat ∧ e.code.num.toNat ≤ 9 by cases e.code <;> decide)

/-- A command that writes `BUF` touches `BUF` and the status alone. -/
theorem commitBuf_frame (s : State) (r) : ∃ b e d,
    s.commitBuf r = { s with mem := { s.mem with buf := b }, err := e, errInfo := d } := by
  cases r with
  | ok b => exact ⟨b, 0, 0, rfl⟩
  | error e => exact ⟨s.mem.buf, e.code.num, e.info, rfl⟩

/-- A derivation command touches the cipher state and the status alone. -/
theorem derive_frame (s : State) (r) : ∃ cs e d, derive s r = { s with cipher := cs, err := e, errInfo := d } := by
  unfold derive
  split
  · exact ⟨s.cipher, 1, 0, rfl⟩
  · cases r with
    | ok cs => exact ⟨cs, 0, 0, rfl⟩
    | error e => exact ⟨s.cipher, e.code.num, e.info, rfl⟩

end Sys2Proof.Machine
end

