-- ==== Sys2Proof/Laws/Derive.lean ====
section
/-!
SUPPORT. The derivation functions: what each can give (41_constants_sigma.md §1, §2; 42_subst_keystream_rounds.md).
-/

namespace Sys2Proof.Machine

/-- One append adds 8 words (41_constants_sigma.md R122). -/
theorem extendOnce_length (ws : List Word) : (extendOnce ws).length = ws.length + 8 := by
  simp [extendOnce, leWords_length, shake_length]

/-- `m` appends. -/
def extendTimes (m : Nat) (ws : List Word) : List Word := extendOnce^[m] ws

/-- The length after `m` appends. -/
theorem extendTimes_length (m : Nat) (ws : List Word) : (extendTimes m ws).length = ws.length + 8 * m := by
  induction m with
  | zero => rfl
  | succ m ih => simp only [extendTimes, Function.iterate_succ_apply'] at ih ⊢; rw [extendOnce_length, ih]; omega

/-- More appends only add words at the end. -/
theorem extendTimes_prefix (m n : Nat) (ws : List Word) (h : m ≤ n) : extendTimes m ws <+: extendTimes n ws := by
  obtain ⟨d, rfl⟩ := Nat.exists_eq_add_of_le h
  induction d with
  | zero => exact List.prefix_rfl
  | succ d ih =>
    refine (ih (by omega)).trans ?_
    simp only [extendTimes, ← Nat.add_assoc, Function.iterate_succ_apply']
    exact List.prefix_append _ _

/-- The loop of `cext` stops at the least number of appends that reaches the target. -/
theorem cextFrom_eq (target n : Nat) (ws : List Word) (h : target ≤ 4 * ws.length + 32 * n) :
    ∃ m, cextFrom target n ws = extendTimes m ws ∧ target ≤ 4 * ws.length + 32 * m ∧ ∀ m' < m,
      4 * ws.length + 32 * m' < target := by
  induction n generalizing ws with
  | zero => exact ⟨0, rfl, by omega, by omega⟩
  | succ n ih =>
    unfold cextFrom
    split
    · next hlt =>
      obtain ⟨m, h1, h2, h3⟩ := ih (extendOnce ws) (by rw [extendOnce_length]; omega)
      rw [extendOnce_length] at h2 h3
      refine ⟨m + 1, ?_, by omega, ?_⟩
      · rw [h1]; rfl
      · intro m' hm'
        cases m' with
        | zero => omega
        | succ m' => have := h3 m' (by omega); omega
    · exact ⟨0, rfl, by omega, by omega⟩

/-- `cext` is `m` appends for the least `m` that reaches the target (41_constants_sigma.md R122). -/
theorem cext_eq (base : List Word) (target : Nat) :
    ∃ m, cext base target = extendTimes m base ∧ target ≤ 4 * base.length + 32 * m ∧ ∀ m' < m,
      4 * base.length + 32 * m' < target :=
  cextFrom_eq target target base (by omega)

/-- `ssel` gives the tag or rejects the key (41_constants_sigma.md R125, R126). -/
theorem ssel_cases (key : Bytes) : ∃ k : Tag, k.val = popBytes key % popBytes (shake .sec128 key 16) % 4 ∧
    ssel key = if popBytes (shake .sec128 key 16) = 0 then .error (invalidKey 1) else .ok k :=
  ⟨⟨popBytes key % popBytes (shake .sec128 key 16) % 4, Nat.mod_lt _ (by decide)⟩, rfl, by unfold ssel; dsimp only⟩

/-- `ssel` has one error. -/
theorem ssel_error {key e} (h : ssel key = .error e) : e = invalidKey 1 := by
  obtain ⟨k, -, hk⟩ := ssel_cases key
  rw [hk] at h
  split at h
  · exact (Except.error.inj h).symm
  · cases h

/-- The normalised key has 256 bytes (42_subst_keystream_rounds.md R150). -/
theorem nkeyBytes_length (key : Bytes) : (nkeyBytes key).length = 256 := by
  unfold nkeyBytes
  dsimp only
  split
  · simp; omega
  · split
    · assumption
    · simp [shake_length]

/-- A 256-byte register holds its sequence. -/
theorem bytes256_toList (s : Bytes) (h : s.length = 256) : (bytes256 s).toList = s := by
  apply List.ext_getElem
  · simp [h]
  · intro i h1 h2; simp [bytes256, h2]

/-- The chain has the entries asked for. -/
theorem chainFrom_length (c : Config) (nk) (n i : Nat) (p : Byte) : (chainFrom c nk n i p).length = n := by
  induction n generalizing i p with
  | zero => rfl
  | succ n ih => simp [chainFrom, ih]

/-- Each entry of the chain comes from the one before it (42_subst_keystream_rounds.md R156). -/
theorem chainFrom_get (c : Config) (nk) (n i : Nat) (p : Byte) (j : Nat) (hj : j < n) :
    (chainFrom c nk n i p).getD j 0 =
      shiftAt c nk ((p :: chainFrom c nk n i p).getD j 0 + BitVec.ofNat 8 (i + j)) := by
  induction n generalizing i p j with
  | zero => omega
  | succ n ih =>
    cases j with
    | zero => simp [chainFrom]
    | succ j =>
      simp only [chainFrom, List.getD_cons_succ]
      rw [ih _ _ j (by omega)]
      rw [show i + 1 + j = i + (j + 1) by omega]

/-- The stream after `m` rounds. -/
def keystreamTimes (key : Bytes) : Nat → Bytes
  | 0 => key ++ sha3 .sec256 key
  | m + 1 => keystreamTimes key m ++ sha3 .sec256 (andWindow (min key.length 32) (keystreamTimes key m))

/-- Its length. -/
theorem keystreamTimes_length (key : Bytes) (m : Nat) : (keystreamTimes key m).length =
    key.length + 32 * (m + 1) := by
  induction m with
  | zero => simp [keystreamTimes, sha3_length, SecLevel.bits]
  | succ m ih => simp [keystreamTimes, sha3_length, SecLevel.bits, ih]; omega

/-- More rounds only add bytes at the end. -/
theorem keystreamTimes_prefix (key : Bytes) (m n : Nat) (h : m ≤ n) :
    keystreamTimes key m <+: keystreamTimes key n := by
  obtain ⟨d, rfl⟩ := Nat.exists_eq_add_of_le h
  induction d with
  | zero => exact List.prefix_rfl
  | succ d ih => exact (ih (by omega)).trans (List.prefix_append _ _)

/-- The loop of `keystream` is some number of rounds that reaches `n`. -/
theorem keystreamFrom_eq (key : Bytes) (n k m : Nat) (h : n ≤ (keystreamTimes key m).length + 32 * k) :
    ∃ j, m ≤ j ∧ keystreamFrom n (min key.length 32) k (keystreamTimes key m) = keystreamTimes key j ∧
      n ≤ (keystreamTimes key j).length := by
  induction k generalizing m with
  | zero => exact ⟨m, le_rfl, rfl, by omega⟩
  | succ k ih =>
    unfold keystreamFrom
    split
    · obtain ⟨j, h1, h2, h3⟩ := ih (m + 1) (by rw [keystreamTimes_length] at h ⊢; omega)
      exact ⟨j, by omega, h2, h3⟩
    · exact ⟨m, le_rfl, rfl, by omega⟩

/-- A beginning of a longer sequence. -/
theorem take_of_prefix {s t : Bytes} (h : s <+: t) (n : Nat) (hn : n ≤ s.length) : t.take n = s.take n := by
  obtain ⟨u, rfl⟩ := h
  exact List.take_append_of_le_length hn

/-- The keystream is a beginning of the stream after any number of rounds that reaches far enough
(42_subst_keystream_rounds.md R158). -/
theorem keystream_eq (key : Bytes) (n m : Nat) (h : n ≤ key.length + 32 * (m + 1)) :
    keystream key n = (keystreamTimes key m).take n := by
  unfold keystream
  split
  · next hn =>
    rw [take_of_prefix (keystreamTimes_prefix key 0 m (Nat.zero_le _)) n (by rw [keystreamTimes_length]; omega)]
    rw [keystreamTimes, List.take_append_of_le_length hn]
  · obtain ⟨j, -, h2, h3⟩ := keystreamFrom_eq key n n 0 (by omega)
    rw [show key ++ sha3 .sec256 key = keystreamTimes key 0 from rfl, h2]
    rcases Nat.le_total j m with hj | hj
    · rw [take_of_prefix (keystreamTimes_prefix key j m hj) n h3]
    · rw [take_of_prefix (keystreamTimes_prefix key m j hj) n (by rw [keystreamTimes_length]; omega)]

/-- The keystream has `n` bytes. -/
theorem keystream_length (key : Bytes) (n : Nat) : (keystream key n).length = n := by
  rw [keystream_eq key n n (by omega), List.length_take, keystreamTimes_length]; omega

/-- A shorter keystream is a beginning of a longer one. -/
theorem keystream_take (key : Bytes) (n m : Nat) (h : n ≤ m) : (keystream key m).take n = keystream key n := by
  rw [keystream_eq key m m (by omega), keystream_eq key n m (by omega), List.take_take, Nat.min_eq_left h]

/-- The keystream that ends with a round. -/
theorem keystream_round (key : Bytes) (m : Nat) : keystream key (key.length + 32 * (m + 1)) =
    keystreamTimes key m := by
  rw [keystream_eq key _ m le_rfl, ← keystreamTimes_length, List.take_length]

/-- Trial division finds the primes. -/
theorem isPrime_iff (p : Nat) : isPrime p = true ↔ p.Prime := by
  unfold isPrime
  simp only [Bool.and_eq_true, decide_eq_true_eq, List.all_eq_true, List.mem_range, Bool.or_eq_true, bne_iff_ne,
    ne_eq, isqrt_eq_sqrt]
  rw [Nat.prime_def_le_sqrt]
  refine and_congr_right fun h2 => ?_
  constructor
  · intro h m hm hs hd
    rcases h m (by omega) with h' | h'
    · omega
    · exact h' (Nat.mod_eq_zero_of_dvd hd)
  · intro h d hd
    by_cases hd2 : d < 2
    · exact .inl hd2
    · exact .inr fun h0 => h d (by omega) (by omega) (Nat.dvd_of_mod_eq_zero h0)

end Sys2Proof.Machine
end

