-- ==== Sys2Proof/Laws/Linear.lean ====
section
/-!
SUPPORT. Linear maps over GF(2), the mixing functions as sums of rotations, and the elimination of LINV
(41_constants_sigma.md R128 to R134).
-/

namespace Sys2Proof.Machine

/-- The accumulator of the XOR over set bits comes out. -/
theorem xorFold_acc (p : Fin 32 → Bool) (f : Fin 32 → Word) (l : List (Fin 32)) (acc : Word) :
    l.foldl (fun acc i => if p i then acc ^^^ f i else acc) acc =
      acc ^^^ l.foldl (fun acc i => if p i then acc ^^^ f i else acc) 0 := by
  induction l generalizing acc with
  | nil => simp
  | cons i l ih =>
    simp only [List.foldl_cons]
    rw [ih, ih (if p i then 0 ^^^ f i else 0)]
    split <;> simp [BitVec.xor_assoc]

/-- The XOR over set bits is linear. -/
theorem xorFold_xor (g : Fin 32 → Word) (x y : Word) (l : List (Fin 32)) :
    l.foldl (fun acc i => if (x ^^^ y).getLsbD i.val then acc ^^^ g i else acc) 0 =
      l.foldl (fun acc i => if x.getLsbD i.val then acc ^^^ g i else acc) 0 ^^^
      l.foldl (fun acc i => if y.getLsbD i.val then acc ^^^ g i else acc) 0 := by
  induction l with
  | nil => simp
  | cons i l ih =>
    simp only [List.foldl_cons]
    rw [xorFold_acc (fun i => (x ^^^ y).getLsbD i.val), xorFold_acc (fun i => x.getLsbD i.val),
      xorFold_acc (fun i => y.getLsbD i.val), ih]
    simp only [BitVec.getLsbD_xor]
    cases x.getLsbD i.val <;> cases y.getLsbD i.val <;> simp <;> ac_nf
    simp

/-- A map given by its columns is linear over GF(2) (41_constants_sigma.md R131). -/
theorem xorOverBits_xor (f : Vector Word 32) (x y : Word) :
    xorOverBits f (x ^^^ y) = xorOverBits f x ^^^ xorOverBits f y :=
  xorFold_xor (fun i => f[i]) x y _

/-- A linear map sends 0 to 0. -/
theorem xorOverBits_zero (f : Vector Word 32) : xorOverBits f 0 = 0 := by
  have := xorOverBits_xor f 0 0
  simpa using this

/-- The bits of `e_i` (00_scope.md R6). -/
theorem unitWord_getLsbD (i j : Nat) (h : i < 32) : (unitWord i).getLsbD j = decide (i = j) := by
  simp [unitWord, BitVec.getLsbD_one]
  by_cases h2 : i = j
  · subst h2; simp [h]
  · simp [h2]; omega

/-- The XOR over the one set bit of `e_i`. -/
theorem xorFold_single (g : Fin 32 → Word) (i : Fin 32) (l : List (Fin 32)) (hn : l.Nodup) :
    l.foldl (fun acc j => if (unitWord i.val).getLsbD j.val then acc ^^^ g j else acc) 0 =
      if i ∈ l then g i else 0 := by
  induction l with
  | nil => simp
  | cons j l ih =>
    simp only [List.foldl_cons]
    rw [xorFold_acc (fun j => (unitWord i.val).getLsbD j.val), ih hn.of_cons, unitWord_getLsbD _ _ i.isLt]
    have hj := (List.nodup_cons.1 hn).1
    by_cases h : i = j
    · subst h; simp [hj]
    · have : i.val ≠ j.val := fun h' => h (Fin.ext h')
      simp [h, this]

/-- A linear map sends `e_i` to its column `i` (41_constants_sigma.md R134). -/
theorem xorOverBits_unit (f : Vector Word 32) (i : Fin 32) : xorOverBits f (unitWord i.val) = f[i] := by
  have := xorFold_single (fun j => f[j]) i (List.finRange 32) (List.nodup_finRange 32)
  simpa [xorOverBits] using this

/-- What holds of 0 and of every `e_i` and is kept by XOR holds of every word. -/
theorem word_induction {P : Word → Prop} (h0 : P 0) (hu : ∀ i : Fin 32, P (unitWord i.val)) (hx : ∀ x y, P x →
    P y → P (x ^^^ y)) (x : Word) : P x := by
  have key : ∀ n, n ≤ 32 → ∀ x : Word, x.toNat < 2 ^ n → P x := by
    intro n
    induction n with
    | zero => intro _ x hxlt; have : x = 0 := by apply BitVec.eq_of_toNat_eq; simpa using hxlt
              rw [this]; exact h0
    | succ n ih =>
      intro hn x hxlt
      by_cases hb : x.getLsbD n
      · have : x = (x ^^^ unitWord n) ^^^ unitWord n := by simp
        rw [this]
        refine hx _ _ (ih (by omega) _ ?_) (hu ⟨n, by omega⟩)
        apply Nat.lt_pow_two_of_testBit
        intro j hj
        have := unitWord_getLsbD n j (by omega)
        rw [← BitVec.getLsbD, BitVec.getLsbD_xor, this]
        by_cases hjn : n = j
        · subst hjn; simp [hb]
        · simp [hjn]
          exact Nat.testBit_lt_two_pow (hxlt.trans_le (Nat.pow_le_pow_right (by norm_num) (by omega)))
      · refine ih (by omega) x ?_
        apply Nat.lt_pow_two_of_testBit
        intro j hj
        by_cases hjn : n = j
        · subst hjn; simpa [BitVec.getLsbD] using hb
        · exact Nat.testBit_lt_two_pow (hxlt.trans_le (Nat.pow_le_pow_right (by norm_num) (by omega)))
  exact key 32 le_rfl x x.isLt

/-- The XOR of the rotations of a word by a list of amounts, each any number. -/
def rotSum (l : List Nat) (x : Word) : Word := l.foldr (fun r acc => rotr32 x r ^^^ acc) 0

/-- The bits of a rotated word (00_scope.md R8). -/
theorem rotr32_getLsbD (x : Word) (n i : Nat) (hi : i < 32) : (rotr32 x n).getLsbD i = x.getLsbD ((i + n) % 32) := by
  rw [rotr32, BitVec.getLsbD_rotateRight, cond_eq_ite]
  simp only [decide_eq_true_eq]
  split
  · congr 1; omega
  · simp [hi]; congr 1; omega

/-- A rotation is linear. -/
theorem rotr32_xor (x y : Word) (n : Nat) : rotr32 (x ^^^ y) n = rotr32 x n ^^^ rotr32 y n := by
  apply BitVec.eq_of_getLsbD_eq; intro i hi
  simp [rotr32_getLsbD _ _ _ hi]

/-- A rotation of 0 is 0. -/
theorem rotr32_zero (n : Nat) : rotr32 0 n = 0 := by
  apply BitVec.eq_of_getLsbD_eq; intro i hi
  simp [rotr32_getLsbD _ _ _ hi]

/-- Two rotations add up. -/
theorem rotr32_rotr32 (x : Word) (m n : Nat) : rotr32 (rotr32 x m) n = rotr32 x (m + n) := by
  apply BitVec.eq_of_getLsbD_eq; intro i hi
  rw [rotr32_getLsbD _ _ _ hi, rotr32_getLsbD _ _ _ (Nat.mod_lt _ (by norm_num)), rotr32_getLsbD _ _ _ hi]
  congr 1; omega

/-- A rotation by a multiple of the width does nothing (00_scope.md R8). -/
theorem rotr32_full (x : Word) (n : Nat) : rotr32 x (32 * n) = x := by
  apply BitVec.eq_of_getLsbD_eq; intro i hi
  rw [rotr32_getLsbD _ _ _ hi]
  congr 1; omega

/-- A XOR of rotations is linear. -/
theorem rotSum_xor (l : List Nat) (x y : Word) : rotSum l (x ^^^ y) = rotSum l x ^^^ rotSum l y := by
  induction l with
  | nil => simp [rotSum]
  | cons r l ih =>
    simp only [rotSum, List.foldr_cons] at ih ⊢
    rw [ih, rotr32_xor]; ac_nf

/-- A XOR of rotations commutes with a rotation. -/
theorem rotSum_rotr (l : List Nat) (x : Word) (n : Nat) : rotSum l (rotr32 x n) = rotr32 (rotSum l x) n := by
  induction l with
  | nil => exact (rotr32_zero n).symm
  | cons r l ih =>
    simp only [rotSum, List.foldr_cons] at ih ⊢
    rw [ih, rotr32_xor, rotr32_rotr32, rotr32_rotr32, Nat.add_comm]

/-- Applying it twice doubles the amounts: the mixed terms cancel. -/
theorem rotSum_twice (l : List Nat) (x : Word) : rotSum l (rotSum l x) = rotSum (l.map (2 * ·)) x := by
  induction l with
  | nil => simp [rotSum]
  | cons r l ih =>
    have e : ∀ y, rotSum (r :: l) y = rotr32 y r ^^^ rotSum l y := fun y => rfl
    rw [e, e, rotSum_xor, rotr32_xor, rotSum_rotr, ih, rotr32_rotr32, ← two_mul]
    have : rotSum (List.map (2 * ·) (r :: l)) x = rotr32 x (2 * r) ^^^ rotSum (l.map (2 * ·)) x := rfl
    rw [this]
    generalize rotr32 x (2 * r) = a, rotr32 (rotSum l x) r = b, rotSum (l.map (2 * ·)) x = c'
    rw [BitVec.xor_assoc a b, ← BitVec.xor_assoc b b]; simp

/-- Applying it 32 times multiplies the amounts by 32. -/
theorem rotSum_thirtytwo (l : List Nat) (x : Word) : (rotSum l)^[32] x = rotSum (l.map (32 * ·)) x := by
  have h2 : ∀ l : List Nat, (rotSum l)^[2] = rotSum (l.map (2 * ·)) := fun l => funext fun x => rotSum_twice l x
  have h : (rotSum l)^[32] = (((((rotSum l)^[2])^[2])^[2])^[2])^[2] := by
    rw [← Function.iterate_mul, ← Function.iterate_mul, ← Function.iterate_mul, ← Function.iterate_mul]
  rw [h, h2, h2, h2, h2, h2]
  simp only [List.map_map]
  congr 2
  funext n; simp; ring

/-- With amounts that are multiples of the width, an odd number of them is the identity. -/
theorem rotSum_full (l : List Nat) (x : Word) : rotSum (l.map (32 * ·)) x = if l.length % 2 = 1 then x else 0 := by
  induction l with
  | nil => simp [rotSum]
  | cons r l ih =>
    have : rotSum (List.map (32 * ·) (r :: l)) x = rotr32 x (32 * r) ^^^ rotSum (l.map (32 * ·)) x := rfl
    rw [this, ih, rotr32_full]
    rcases Nat.mod_two_eq_zero_or_one l.length with h | h <;> simp [h, Nat.add_mod]

/-- The mixing function as a XOR of rotations (41_constants_sigma.md R128). -/
theorem xorRotations_eq (l : List (Fin 32)) (x : Word) : xorRotations l x = rotSum (l.map Fin.val) x := by
  unfold xorRotations rotSum
  rw [List.foldr_map, List.foldl_eq_foldr_reverse]
  have : ∀ (l : List (Fin 32)) , List.foldr (fun r acc => acc ^^^ rotr32 x r.val) 0 l.reverse =
    List.foldr (fun r acc => rotr32 x r.val ^^^ acc) 0 l := by
    intro l
    have e : (fun (r : Fin 32) acc => acc ^^^ rotr32 x r.val) = (fun r acc => rotr32 x r.val ^^^ acc) := by
      funext r acc; exact BitVec.xor_comm _ _
    rw [e]
    have : LeftCommutative (fun (r : Fin 32) (acc : Word) => rotr32 x r.val ^^^ acc) := ⟨fun a b c => by ac_nf⟩
    exact (List.reverse_perm l).foldr_eq 0
  exact this l

/-- `sigma_k` as a XOR of rotations (41_constants_sigma.md R128). -/
theorem sigma_eq (c : Config) (k : Tag) : sigma c k =
    rotSum (c.sigmaRot[k].map Fin.val) := funext fun x => xorRotations_eq _ x

/-- `sigma_k` is linear over GF(2). -/
theorem sigma_xor (c : Config) (k : Tag) (x y : Word) : sigma c k (x ^^^ y) = sigma c k x ^^^ sigma c k y := by
  rw [sigma_eq]; exact rotSum_xor _ _ _

/-- `sigma_k` sends 0 to 0. -/
theorem sigma_zero (c : Config) (k : Tag) : sigma c k 0 = 0 := by simpa using sigma_xor c k 0 0

/-- `sigma_k` commutes with rotation. -/
theorem sigma_rotr (c : Config) (k : Tag) (x : Word) (n : Nat) : sigma c k (rotr32 x n) = rotr32 (sigma c k x) n := by
  rw [sigma_eq]; exact rotSum_rotr _ _ _

/-- `sigma_k` applied 32 times is the identity, because its set is odd (00_scope.md R5 (b)). -/
theorem sigma_iterate (c : Config) (k : Tag) (x : Word) : (sigma c k)^[32] x = x := by
  rw [sigma_eq, rotSum_thirtytwo, rotSum_full, List.length_map, if_pos (c.sigmaRot_odd k)]

/-- `sigma_k` is injective for every configuration (00_scope.md R5 (b)). -/
theorem sigma_injective (c : Config) (k : Tag) : Function.Injective (sigma c k) := by
  intro x y h
  have := congrArg (sigma c k)^[31] h
  rwa [← Function.iterate_succ_apply, ← Function.iterate_succ_apply, sigma_iterate, sigma_iterate] at this

/-- `sigma_k` is the map of its columns (10_state.md R31). -/
theorem sigma_columns (c : Config) (k : Tag) (x : Word) : xorOverBits (sigmaColumns c k) x = sigma c k x := by
  refine word_induction (P := fun x => xorOverBits (sigmaColumns c k) x = sigma c k x) ?_ ?_ ?_ x
  · rw [xorOverBits_zero, sigma_zero]
  · intro i; rw [xorOverBits_unit]; simp [sigmaColumns]
  · intro x y hx hy; rw [xorOverBits_xor, sigma_xor, hx, hy]

/-- The combinations of the rows of the elimination. -/
def combOf (rows : Vector Row 32) : Vector Word 32 := rows.map Row.comb

/-- The images of the rows of the elimination. -/
def imgOf (rows : Vector Row 32) : Vector Word 32 := rows.map Row.img

@[simp] theorem combOf_get (rows : Vector Row 32) (r : Fin 32) : (combOf rows)[r] = (rows[r]).comb := by simp [combOf]
@[simp] theorem imgOf_get (rows : Vector Row 32) (r : Fin 32) : (imgOf rows)[r] = (rows[r]).img := by simp [imgOf]

/-- What the elimination of 41_constants_sigma.md R134 keeps when the bits below `done` are finished: every row is a true
equation, the combinations span all words, and the finished columns are unit vectors. -/
structure Solving (f : Vector Word 32) (done : Nat) (rows : Vector Row 32) : Prop where
  holds : ∀ r : Fin 32, xorOverBits f (rows[r]).comb = (rows[r]).img
  spans : ∀ x, ∃ z, xorOverBits (combOf rows) z = x
  unit : ∀ r j : Fin 32, j.val < done → (rows[r]).img.getLsbD j.val = decide (r = j)

/-- The map sends a combination of combinations to the same combination of images. -/
theorem Solving.image {f done rows} (h : Solving f done rows) (z : Word) :
    xorOverBits f (xorOverBits (combOf rows) z) = xorOverBits (imgOf rows) z := by
  refine word_induction (P := fun z => xorOverBits f (xorOverBits (combOf rows) z) =
    xorOverBits (imgOf rows) z) ?_ ?_ ?_ z
  · simp only [xorOverBits_zero]
  · intro i; rw [xorOverBits_unit, xorOverBits_unit, combOf_get, imgOf_get, h.holds]
  · intro x y hx hy; rw [xorOverBits_xor, xorOverBits_xor, xorOverBits_xor, hx, hy]

/-- The rows the elimination starts from. -/
theorem solving_start (f : Vector Word 32) : Solving f 0 (startRows f) := by
  refine ⟨?_, ?_, fun _ _ h => absurd h (Nat.not_lt_zero _)⟩
  · intro r; simp [startRows, xorOverBits_unit]
  · intro x
    refine ⟨x, ?_⟩
    refine word_induction (P := fun x => xorOverBits (combOf (startRows f)) x = x) (xorOverBits_zero _) ?_ ?_ x
    · intro i; rw [xorOverBits_unit]; simp [combOf, startRows]
    · intro a b ha hb; rw [xorOverBits_xor, ha, hb]

/-- The combinations of new rows span when they reach every old combination. -/
theorem spans_of {rows rows' : Vector Row 32} (h : ∀ x, ∃ z, xorOverBits (combOf rows) z = x)
    (hr : ∀ r : Fin 32, ∃ z, xorOverBits (combOf rows') z = (rows[r]).comb) : ∀ x, ∃ z,
      xorOverBits (combOf rows') z = x := by
  intro x
  obtain ⟨z, rfl⟩ := h x
  refine word_induction (P := fun z => ∃ y, xorOverBits (combOf rows') y = xorOverBits (combOf rows) z) ?_ ?_ ?_ z
  · exact ⟨0, by simp only [xorOverBits_zero]⟩
  · intro i; rw [xorOverBits_unit, combOf_get]; exact hr i
  · rintro a b ⟨y, hy⟩ ⟨y', hy'⟩; exact ⟨y ^^^ y', by rw [xorOverBits_xor, xorOverBits_xor, hy, hy']⟩

/-- A row after a swap. -/
theorem swap_get (rows : Vector Row 32) (a b r : Fin 32) :
    (rows.swap a.val b.val)[r] = rows[Equiv.swap a b r] := by
  simp only [Fin.getElem_fin, Vector.getElem_swap]
  by_cases h1 : r = a
  · subst h1; simp
  · by_cases h2 : r = b
    · subst h2; simp [Equiv.swap_apply_right]; intro h; simp [h]
    · have e1 : r.val ≠ a.val := fun h => h1 (Fin.ext h)
      have e2 : r.val ≠ b.val := fun h => h2 (Fin.ext h)
      simp [Equiv.swap_apply_of_ne_of_ne h1 h2, e1, e2]

/-- Swapping two unfinished rows keeps the invariant. -/
theorem solving_swap {f rows} {bit p : Fin 32} (h : Solving f bit.val rows) (hp : bit ≤ p) :
    Solving f bit.val (rows.swap bit.val p.val) := by
  refine ⟨?_, ?_, ?_⟩
  · intro r; rw [swap_get]; exact h.holds _
  · refine spans_of h.spans fun r => ⟨unitWord (Equiv.swap bit p r).val, ?_⟩
    rw [xorOverBits_unit, combOf_get, swap_get]; simp
  · intro r j hj
    rw [swap_get, h.unit _ _ hj]
    have : (Equiv.swap bit p r = j) ↔ (r = j) := by
      have hb : j ≠ bit := fun e => by subst e; omega
      have hq : j ≠ p := fun e => by subst e; exact absurd hj (by simpa using hp)
      rw [Equiv.swap_apply_eq_iff, Equiv.swap_apply_of_ne_of_ne hb hq]
    simp [this]

/-- A row after its bit is cleared. -/
theorem eliminate_get (bit : Fin 32) (rows : Vector Row 32) (r : Fin 32) : (eliminate bit rows)[r] =
    if r ≠ bit ∧ (rows[r]).img.getLsbD bit.val = true then
      ⟨(rows[r]).img ^^^ (rows[bit]).img, (rows[r]).comb ^^^ (rows[bit]).comb⟩ else rows[r] := by
  simp [eliminate]

/-- Clearing a bit in every row but the pivot finishes that bit. -/
theorem solving_eliminate {f rows} {bit : Fin 32} (h : Solving f bit.val rows)
    (hb : (rows[bit]).img.getLsbD bit.val = true) : Solving f (bit.val + 1) (eliminate bit rows) := by
  refine ⟨?_, ?_, ?_⟩
  · intro r; rw [eliminate_get]; split
    · rw [xorOverBits_xor, h.holds, h.holds]
    · exact h.holds r
  · have hbit : xorOverBits (combOf (eliminate bit rows)) (unitWord bit.val) = (rows[bit]).comb := by
      rw [xorOverBits_unit, combOf_get, eliminate_get]; simp
    refine spans_of h.spans fun r => ?_
    by_cases hr : r ≠ bit ∧ (rows[r]).img.getLsbD bit.val = true
    · refine ⟨unitWord r.val ^^^ unitWord bit.val, ?_⟩
      rw [xorOverBits_xor, hbit, xorOverBits_unit, combOf_get, eliminate_get, if_pos hr]
      simp
    · refine ⟨unitWord r.val, ?_⟩
      rw [xorOverBits_unit, combOf_get, eliminate_get, if_neg hr]
  · intro r j hj
    rw [eliminate_get]
    rcases Nat.lt_succ_iff_lt_or_eq.1 hj with hlt | heq
    · have hne : bit ≠ j := fun e => by subst e; omega
      split
      · simp only [BitVec.getLsbD_xor, h.unit _ _ hlt]; simp [hne]
      · exact h.unit _ _ hlt
    · have : j = bit := Fin.ext heq
      subst this
      by_cases hr : r = j
      · subst hr; rw [if_neg (fun hc => hc.1 rfl), hb]; simp
      · by_cases hx : (rows[r]).img.getLsbD j.val = true
        · simp only [ne_eq, hr, not_false_eq_true, hx, and_self, if_true, BitVec.getLsbD_xor, hb]; simp
        · rw [if_neg (fun hc => hx hc.2), Bool.eq_false_iff.2 hx]; simp [hr]

/-- A pivot has its bit. -/
theorem findPivot_some {bit p : Fin 32} {rows : Vector Row 32} (h : findPivot bit rows = some p) :
    bit ≤ p ∧ (rows[p]).img.getLsbD bit.val = true := by
  have := List.find?_some h
  simpa using this

/-- With no pivot no unfinished row has the bit. -/
theorem findPivot_none {bit : Fin 32} {rows : Vector Row 32} (h : findPivot bit rows = none) (r : Fin 32) (hr :
    bit ≤ r) :
    (rows[r]).img.getLsbD bit.val = false := by
  have := List.find?_eq_none.1 h r (List.mem_finRange r)
  simpa [hr] using this

/-- A pivot step that succeeds finishes its bit. -/
theorem solving_pivotStep {f rows rows'} {bit : Fin 32} (h : Solving f bit.val rows) (hs : pivotStep bit rows =
    some rows') :
    Solving f (bit.val + 1) rows' := by
  unfold pivotStep at hs
  split at hs
  · cases hs
  · next p hp =>
    obtain rfl := Option.some.inj hs
    obtain ⟨h1, h2⟩ := findPivot_some hp
    refine solving_eliminate (solving_swap h h1) ?_
    rw [swap_get]; simpa using h2

/-- One bit of a XOR over set bits. -/
theorem xorOverBits_getLsbD (g : Vector Word 32) (z : Word) (j : Nat) :
    (xorOverBits g z).getLsbD j =
      (List.finRange 32).foldl (fun acc i => acc ^^ (z.getLsbD i.val && (g[i]).getLsbD j)) false := by
  unfold xorOverBits
  have : ∀ (l : List (Fin 32)) (acc : Word),
    (l.foldl (fun acc i => if z.getLsbD i.val then acc ^^^ g[i] else acc) acc).getLsbD j
      = l.foldl (fun acc i => acc ^^ (z.getLsbD i.val && (g[i]).getLsbD j)) (acc.getLsbD j) := by
    intro l
    induction l with
    | nil => intro acc; rfl
    | cons i l ih =>
      intro acc; simp only [List.foldl_cons]; rw [ih]; congr 1; split <;> simp_all
  simpa using this (List.finRange 32) 0

/-- A column that is a unit vector on the set bits. -/
theorem xorFold_bool_single (z : Word) (p : Fin 32 → Bool) (j : Fin 32) (l : List (Fin 32)) (hn : l.Nodup) (hp :
    ∀ i ∈ l, z.getLsbD i.val = true → p i = decide (i = j)) (acc : Bool) :
    l.foldl (fun acc i => acc ^^ (z.getLsbD i.val && p i)) acc = (acc ^^ (z.getLsbD j.val && decide (j ∈ l))) := by
  induction l generalizing acc with
  | nil => simp
  | cons i l ih =>
    simp only [List.foldl_cons]
    rw [ih hn.of_cons (fun i hi => hp i (List.mem_cons_of_mem _ hi))]
    have hi := (List.nodup_cons.1 hn).1
    have := hp i (by simp)
    by_cases hij : i = j
    · subst hij
      cases hz : z.getLsbD i.val <;> simp_all
    · have hji : ¬ j = i := fun e => hij e.symm
      cases hz : z.getLsbD i.val <;> simp_all

/-- A pivot step that fails has found a unit vector the map does not reach. -/
theorem pivotStep_none {f rows} {bit : Fin 32} (h : Solving f bit.val rows) (hs : pivotStep bit rows = none) :
    ∀ x, xorOverBits f x ≠ unitWord bit.val := by
  unfold pivotStep at hs
  split at hs
  · next hp =>
    intro x hx
    obtain ⟨z, rfl⟩ := h.spans x
    rw [h.image] at hx
    have hlow : ∀ j : Fin 32, j.val < bit.val → z.getLsbD j.val = false := by
      intro j hj
      have h1 := congrArg (fun w => w.getLsbD j.val) hx
      simp only [xorOverBits_getLsbD, unitWord_getLsbD _ _ bit.isLt, imgOf_get] at h1
      rw [xorFold_bool_single z (fun i => (rows[i]).img.getLsbD j.val) j _ (List.nodup_finRange 32)
        (fun i _ _ => h.unit i j hj)] at h1
      simpa [show ¬ bit.val = j.val by omega] using h1
    have h2 := congrArg (fun w => w.getLsbD bit.val) hx
    simp only [xorOverBits_getLsbD, unitWord_getLsbD _ _ bit.isLt, imgOf_get, decide_true] at h2
    have : ∀ (l : List (Fin 32)),
      l.foldl (fun acc i => acc ^^ (z.getLsbD i.val && (rows[i]).img.getLsbD bit.val)) false = false := by
      intro l
      induction l with
      | nil => rfl
      | cons i l ih =>
        simp only [List.foldl_cons]
        rcases Nat.lt_or_ge i.val bit.val with hi | hi
        · rw [hlow i hi]; simpa only [Bool.false_and, Bool.xor_false] using ih
        · rw [findPivot_none hp i hi]; simpa only [Bool.and_false, Bool.xor_false] using ih
    rw [this] at h2
    exact absurd h2 (by decide)
  · cases hs

/-- What the elimination can do over the bits from `n` on. -/
theorem eliminateAll_spec {f : Vector Word 32} : ∀ (n : Nat) (bits : List (Fin 32)) (rows : Vector Row 32),
    bits.map Fin.val = List.range' n (32 - n) → n ≤ 32 → Solving f n rows →
    (∀ rows', eliminateAll bits rows = some rows' → Solving f 32 rows') ∧
    (eliminateAll bits rows = none → ∃ b : Fin 32, ∀ x, xorOverBits f x ≠ unitWord b.val) := by
  intro n bits
  induction bits generalizing n with
  | nil =>
    intro rows hb hn h
    have : n = 32 := by
      have := congrArg List.length hb
      simp at this; omega
    subst this
    refine ⟨?_, by simp [eliminateAll]⟩
    intro rows' hr; simp [eliminateAll] at hr; exact hr ▸ h
  | cons bit bits ih =>
    intro rows hb hn h
    have hlt : n < 32 := by
      have := congrArg List.length hb
      simp at this; omega
    rw [show 32 - n = (32 - (n + 1)) + 1 by omega, List.range'_succ] at hb
    simp only [List.map_cons, List.cons.injEq] at hb
    obtain ⟨rfl, hb⟩ := hb
    simp only [eliminateAll]
    split
    · next hs => exact ⟨by simp, fun _ => ⟨bit, pivotStep_none h hs⟩⟩
    · next rows' hs => exact ih (bit.val + 1) rows' hb (by omega) (solving_pivotStep h hs)

/-- The bits in order. -/
theorem finRange_val : (List.finRange 32).map Fin.val = List.range' 0 32 := by decide

/-- What `lininv` gives is sent to the unit vectors (41_constants_sigma.md R134). -/
theorem lininv_some {f g : Vector Word 32} (h : lininv f = some g) (i : Fin 32) : xorOverBits f g[i] =
    unitWord i.val := by
  unfold lininv at h
  rw [Option.map_eq_some_iff] at h
  obtain ⟨rows, hr, rfl⟩ := h
  have hs := (eliminateAll_spec 0 _ _ finRange_val (by norm_num) (solving_start f)).1 rows hr
  have : (rows.map Row.comb)[i] = (rows[i]).comb := combOf_get rows i
  rw [this, hs.holds]
  apply BitVec.eq_of_getLsbD_eq; intro j hj
  rw [hs.unit i ⟨j, hj⟩ hj, unitWord_getLsbD _ _ i.isLt]
  simp [Fin.ext_iff]

/-- What `lininv` gives is a right inverse. -/
theorem xorOverBits_rightInverse {f g : Vector Word 32} (h : lininv f = some g) (x : Word) :
    xorOverBits f (xorOverBits g x) = x := by
  refine word_induction (P := fun x => xorOverBits f (xorOverBits g x) = x) ?_ ?_ ?_ x
  · simp only [xorOverBits_zero]
  · intro i; rw [xorOverBits_unit, lininv_some h]
  · intro a b ha hb; rw [xorOverBits_xor, xorOverBits_xor, ha, hb]

/-- What `lininv` gives is a left inverse. -/
theorem xorOverBits_leftInverse {f g : Vector Word 32} (h : lininv f = some g) (x : Word) :
    xorOverBits g (xorOverBits f x) = x := by
  have hs : Function.Surjective (xorOverBits f) := fun y => ⟨_, xorOverBits_rightInverse h y⟩
  have hi : Function.Injective (xorOverBits f) := Finite.injective_iff_surjective.2 hs
  exact hi (xorOverBits_rightInverse h _)

/-- Where `lininv` gives nothing the columns are dependent (41_constants_sigma.md R134). -/
theorem lininv_none {f : Vector Word 32} (h : lininv f = none) : ∃ x, x ≠ 0 ∧ xorOverBits f x = 0 := by
  unfold lininv at h
  rw [Option.map_eq_none_iff] at h
  obtain ⟨b, hb⟩ := (eliminateAll_spec 0 _ _ finRange_val (by norm_num) (solving_start f)).2 h
  have hns : ¬ Function.Injective (xorOverBits f) := fun hi =>
    let ⟨x, hx⟩ := Finite.injective_iff_surjective.1 hi (unitWord b.val)
    hb x hx
  simp only [Function.Injective, not_forall] at hns
  obtain ⟨x, y, hxy, hne⟩ := hns
  refine ⟨x ^^^ y, ?_, ?_⟩
  · intro h0; apply hne; exact BitVec.xor_eq_zero_iff.1 h0
  · rw [xorOverBits_xor, hxy]; simp

/-- `lininv` inverts every injective map. -/
theorem lininv_isSome_of_injective {f : Vector Word 32} (h : ∀ x, xorOverBits f x = 0 → x = 0) : ∃ g, lininv f =
    some g := by
  cases hl : lininv f with
  | some g => exact ⟨g, rfl⟩
  | none => obtain ⟨x, hx, h0⟩ := lininv_none hl; exact absurd (h x h0) hx

/-- `INVB[k]` is the inverse of the columns of `sigma_k` (41_constants_sigma.md R133). -/
theorem lininv_sigmaColumns (c : Config) (k : Tag) : lininv (sigmaColumns c k) = some (invb c k) := by
  obtain ⟨g, hg⟩ := lininv_isSome_of_injective (f := sigmaColumns c k) (by
    intro x hx; rw [sigma_columns] at hx; exact sigma_injective c k (hx.trans (sigma_zero c k).symm))
  simp [invb, hg]

end Sys2Proof.Machine
end

