-- ==== Sys2Proof/Laws/Stages.lean ====
section
/-!
SUPPORT. The stages: lengths, where each byte comes from, and the stage commands without their valid bits
(43_pipeline_stages.md).
-/

namespace Sys2Proof.Machine

/-- `S1` keeps the length. -/
theorem stage1_length (x b) : (stage1 x b).length = b.length := by simp [stage1]

/-- `IS1` keeps the length. -/
theorem invStage1_length (x b) : (invStage1 x b).length = b.length := by simp [invStage1]

/-- A byte of `S1` (43_pipeline_stages.md R181). -/
theorem stage1_getD (x b) (i : Nat) (h : i < b.length) : (stage1 x b).getD i 0 = b.getD i 0 + constantByte x i := by
  simp [stage1, h]

/-- A byte of `IS1` (43_pipeline_stages.md R183). -/
theorem invStage1_getD (x b) (i : Nat) (h : i < b.length) : (invStage1 x b).getD i 0 =
    b.getD i 0 - constantByte x i := by
  simp [invStage1, h]

/-- The two shapes of what is left of a buffer. -/
theorem four_cases (b : Bytes) : (∃ b0 b1 b2 b3 rest, b = b0 :: b1 :: b2 :: b3 :: rest) ∨ b.length < 4 := by
  match b with
  | [] => right; simp
  | [_] => right; simp
  | [_, _] => right; simp
  | [_, _, _] => right; simp
  | b0 :: b1 :: b2 :: b3 :: rest => left; exact ⟨b0, b1, b2, b3, rest, rfl⟩

/-- `S2` on the trailing bytes. -/
theorem stage2From_tail (c set k i) (b : Bytes) (h : b.length < 4) : stage2From c set k i b =
    b.mapIdx fun t v => v + trailMask c set k (i + t) := by
  match b, h with
  | [], _ => rfl
  | [_], _ => rfl
  | [_, _], _ => rfl
  | [_, _, _], _ => rfl

/-- `IS2` on the trailing bytes. -/
theorem invStage2From_tail (c set k i) (b : Bytes) (h : b.length < 4) : invStage2From c set k i b =
    b.mapIdx fun t v => v - trailMask c set k (i + t) := by
  match b, h with
  | [], _ => rfl
  | [_], _ => rfl
  | [_, _], _ => rfl
  | [_, _, _], _ => rfl

/-- `S2` keeps the length. -/
theorem stage2From_length (c set k) : ∀ (i : Nat) (b : Bytes), (stage2From c set k i b).length = b.length
  | i, b0 :: b1 :: b2 :: b3 :: rest => by simp [stage2From, stage2From_length c set k (i + 1) rest, toLE32]
  | i, [] => rfl
  | i, [_] => rfl
  | i, [_, _] => rfl
  | i, [_, _, _] => rfl

/-- `IS2` keeps the length. -/
theorem invStage2From_length (c set k) : ∀ (i : Nat) (b : Bytes), (invStage2From c set k i b).length = b.length
  | i, b0 :: b1 :: b2 :: b3 :: rest => by simp [invStage2From, invStage2From_length c set k (i + 1) rest, toBE32]
  | i, [] => rfl
  | i, [_] => rfl
  | i, [_, _] => rfl
  | i, [_, _, _] => rfl

/-- Where each byte of `S2` comes from (43_pipeline_stages.md R185). -/
theorem stage2From_get (c set k) (i : Nat) (b : Bytes) :
    (∀ j < b.length / 4, ((stage2From c set k i b).drop (4 * j)).take 4 = toLE32 (sigma c k
      (be32 (b.getD (4 * j) 0) (b.getD (4 * j + 1) 0) (b.getD (4 * j + 2) 0) (b.getD (4 * j + 3) 0) + mixcAt c set (i + j)))) ∧
    (∀ t < b.length % 4, (stage2From c set k i b).getD (4 * (b.length / 4) + t) 0 =
      b.getD (4 * (b.length / 4) + t) 0 + trailMask c set k (i + b.length / 4 + t)) := by
  induction hn : b.length / 4 generalizing i b with
  | zero =>
    refine ⟨fun j hj => absurd hj (Nat.not_lt_zero _), fun t ht => ?_⟩
    have hl : b.length < 4 := by omega
    rw [stage2From_tail _ _ _ _ _ hl]
    simp [show t < b.length by omega]
  | succ n ih =>
    obtain ⟨b0, b1, b2, b3, rest, rfl⟩ | h := four_cases b
    · have hr : rest.length / 4 = n := by simp at hn; omega
      obtain ⟨h1, h2⟩ := ih (i + 1) rest hr
      have hl4 : ∀ w, (toLE32 w).length = 4 := fun w => rfl
      refine ⟨fun j hj => ?_, fun t ht => ?_⟩
      · rw [stage2From]
        cases j with
        | zero => simp [List.take_left', hl4]
        | succ j =>
          rw [show 4 * (j + 1) = 4 + 4 * j by omega, ← List.drop_drop, List.drop_left' (hl4 _), h1 j (by omega)]
          simp [show 4 + 4 * j = 4 * j + 1 + 1 + 1 + 1 by omega, show i + 1 + j = i + (j + 1) by omega]
      · have := h2 t (by simp at ht; omega)
        rw [stage2From]
        simp only [toLE32, List.cons_append, List.nil_append, show 4 * (n + 1) + t =
          4 * n + t + 1 + 1 + 1 + 1 by omega, List.getD_cons_succ]
        rw [this]; congr 2; omega
    · omega

/-- Where each byte of `IS2` comes from (43_pipeline_stages.md R187). -/
theorem invStage2From_get (c set k) (i : Nat) (b : Bytes) :
    (∀ j < b.length / 4, ((invStage2From c set k i b).drop (4 * j)).take 4 = toBE32 (isigma c k
      (le32 (b.getD (4 * j) 0) (b.getD (4 * j + 1) 0) (b.getD (4 * j + 2) 0) (b.getD (4 * j + 3) 0)) - mixcAt c set (i + j))) ∧
    (∀ t < b.length % 4, (invStage2From c set k i b).getD (4 * (b.length / 4) + t) 0 =
      b.getD (4 * (b.length / 4) + t) 0 - trailMask c set k (i + b.length / 4 + t)) := by
  induction hn : b.length / 4 generalizing i b with
  | zero =>
    refine ⟨fun j hj => absurd hj (Nat.not_lt_zero _), fun t ht => ?_⟩
    have hl : b.length < 4 := by omega
    rw [invStage2From_tail _ _ _ _ _ hl]
    simp [show t < b.length by omega]
  | succ n ih =>
    obtain ⟨b0, b1, b2, b3, rest, rfl⟩ | h := four_cases b
    · have hr : rest.length / 4 = n := by simp at hn; omega
      obtain ⟨h1, h2⟩ := ih (i + 1) rest hr
      have hl4 : ∀ w, (toBE32 w).length = 4 := fun w => rfl
      refine ⟨fun j hj => ?_, fun t ht => ?_⟩
      · rw [invStage2From]
        cases j with
        | zero => simp [List.take_left', hl4]
        | succ j =>
          rw [show 4 * (j + 1) = 4 + 4 * j by omega, ← List.drop_drop, List.drop_left' (hl4 _), h1 j (by omega)]
          simp [show 4 + 4 * j = 4 * j + 1 + 1 + 1 + 1 by omega, show i + 1 + j = i + (j + 1) by omega]
      · have := h2 t (by simp at ht; omega)
        rw [invStage2From]
        simp only [toBE32, List.cons_append, List.nil_append, show 4 * (n + 1) + t =
          4 * n + t + 1 + 1 + 1 + 1 by omega, List.getD_cons_succ]
        rw [this]; congr 2; omega
    · omega

/-- `rotl_seq` keeps the length. -/
theorem rotlSeq_length (b : Bytes) : (rotlSeq b).length = b.length := by cases b <;> simp [rotlSeq]

/-- `rotr_seq` undoes `rotl_seq`. -/
theorem rotrSeq_rotlSeq (b : Bytes) : rotrSeq (rotlSeq b) = b := by cases b <;> simp [rotlSeq, rotrSeq]

/-- `rotr_seq` keeps the length. -/
theorem rotrSeq_length (b : Bytes) : (rotrSeq b).length = b.length := by
  unfold rotrSeq
  split
  · next h => rw [List.getLast?_eq_none_iff] at h; simp [h]
  · next v h =>
    have : b ≠ [] := by rintro rfl; simp at h
    have := List.length_pos_iff.2 this
    simp; omega

/-- A byte after `rotl_seq` (43_pipeline_stages.md R189). -/
theorem rotlSeq_getD (b : Bytes) (i : Nat) (h : i < b.length) : (rotlSeq b).getD i 0 =
    b.getD ((i + 1) % b.length) 0 := by
  cases b with
  | nil => simp at h
  | cons v rest =>
    simp only [rotlSeq, List.length_cons] at h ⊢
    rcases Nat.lt_or_ge i rest.length with hi | hi
    · rw [Nat.mod_eq_of_lt (by omega)]; simp [List.getElem?_append_left hi]
    · have : i = rest.length := by omega
      subst this; simp

/-- A byte after `rotr_seq` (43_pipeline_stages.md R191). -/
theorem rotrSeq_getD (b : Bytes) (i : Nat) (h : i < b.length) : (rotrSeq b).getD ((i + 1) % b.length) 0 =
    b.getD i 0 := by
  have hb : b ≠ [] := by rintro rfl; simp at h
  have e : rotlSeq (rotrSeq b) = b := by
    unfold rotrSeq
    rw [List.getLast?_eq_some_getLast hb]; simp only [rotlSeq]; exact List.dropLast_append_getLast hb
  have := rotlSeq_getD (rotrSeq b) i (by rwa [rotrSeq_length])
  rw [e, rotrSeq_length] at this
  exact this.symm

/-- `ISBOX` undoes `SBOX` (00_scope.md R5 (a)). -/
theorem isboxAt_sboxAt (c : Config) (v : Byte) : isboxAt c (sboxAt c v) = v := by
  have hlen : v.toNat < c.sbox.toList.length := by simp; exact v.isLt
  have : c.sbox.toList.idxOf (sboxAt c v) = v.toNat := by
    have := List.Nodup.idxOf_getElem c.sbox_nodup v.toNat hlen
    simpa [sboxAt] using this
  simp [isboxAt, this]

/-- The iterations of `S3` keep the length. -/
theorem substRotate_length (c : Config) (n : Nat) (b : Bytes) : (substRotate c n b).length = b.length := by
  induction n generalizing b with
  | zero => rfl
  | succ n ih => rw [substRotate, ih, rotlSeq_length, List.length_map]

/-- The iterations of `IS3` keep the length. -/
theorem invSubstRotate_length (c : Config) (n : Nat) (b : Bytes) : (invSubstRotate c n b).length = b.length := by
  induction n generalizing b with
  | zero => rfl
  | succ n ih => rw [invSubstRotate, ih, List.length_map, rotrSeq_length]

/-- The last iteration of `S3`. -/
theorem substRotate_succ' (c : Config) (n : Nat) (b : Bytes) : substRotate c (n + 1) b =
    rotlSeq ((substRotate c n b).map (sboxAt c)) := by
  induction n generalizing b with
  | zero => rfl
  | succ n ih => rw [substRotate, ih, substRotate]

/-- A byte of a mapped sequence. -/
theorem getD_map_lt (f : Byte → Byte) (b : Bytes) (i : Nat) (h : i < b.length) : (b.map f).getD i 0 =
    f (b.getD i 0) := by
  simp [h]

/-- A byte after the iterations of `S3`. -/
theorem substRotate_getD (c : Config) (n : Nat) (b : Bytes) (i : Nat) (h : i < b.length) :
    (substRotate c n b).getD i 0 = (sboxAt c)^[n] (b.getD ((i + n) % b.length) 0) := by
  induction n generalizing i with
  | zero => simp [substRotate, Nat.mod_eq_of_lt h]
  | succ n ih =>
    have hp : 0 < b.length := by omega
    rw [substRotate_succ', rotlSeq_getD _ _ (by simpa [substRotate_length] using h), List.length_map,
      substRotate_length,
      getD_map_lt _ _ _ (by rw [substRotate_length]; exact Nat.mod_lt _ hp), ih _ (Nat.mod_lt _ hp),
        Function.iterate_succ_apply']
    rw [Nat.mod_add_mod, show i + 1 + n = i + (n + 1) by omega]

/-- A byte after the iterations of `IS3`. -/
theorem invSubstRotate_getD (c : Config) (n : Nat) (b : Bytes) (i : Nat) (h : i < b.length) :
    (invSubstRotate c n b).getD ((i + n) % b.length) 0 = (isboxAt c)^[n] (b.getD i 0) := by
  have hp : 0 < b.length := by omega
  induction n generalizing i b with
  | zero => simp [invSubstRotate, Nat.mod_eq_of_lt h]
  | succ n ih =>
    have hl : ((rotrSeq b).map (isboxAt c)).length = b.length := by rw [List.length_map, rotrSeq_length]
    have := ih ((rotrSeq b).map (isboxAt c)) ((i + 1) % b.length) (by rw [hl]; exact Nat.mod_lt _ hp) (by omega)
    rw [hl, Nat.mod_add_mod, show i + 1 + n = i + (n + 1) by omega,
      getD_map_lt _ _ _ (by rw [rotrSeq_length]; exact Nat.mod_lt _ hp), rotrSeq_getD _ _ h] at this
    rw [invSubstRotate, this, Function.iterate_succ_apply]

/-- `S3` keeps the length. -/
theorem stage3_length (c n t b) : (stage3 c n t b).length = b.length := by simp [stage3, substRotate_length]

/-- `IS3` keeps the length. -/
theorem invStage3_length (c n t b) : (invStage3 c n t b).length = b.length := by simp [invStage3,
    invSubstRotate_length]

/-- `S4` adds the extension and one byte (43_pipeline_stages.md R193). -/
theorem stage4_length (x b) : (stage4 x b).length = b.length + x.length + 1 := by simp [stage4]; omega

/-- `IS4` on a sequence with its trailer byte (43_pipeline_stages.md R195). -/
theorem invStage4_append (rest : Bytes) (e : Byte) : invStage4 (rest ++ [e]) =
    if rest.length < e.toNat then .error (invalidCiphertext 1) else .ok (rest.take (rest.length - e.toNat)) := by
  simp only [invStage4, List.getLast?_append, List.getLast?_singleton, Option.some_or, List.length_append,
    List.length_singleton]
  by_cases h : rest.length < e.toNat
  · rw [if_pos (by omega), if_pos h]
  · rw [if_neg (by omega), if_neg h, show rest.length + 1 - e.toNat - 1 = rest.length - e.toNat by omega,
      List.take_append_of_le_length (by omega)]

/-- `S5` keeps the length. -/
theorem stage5_length (ks b : Bytes) (h : ks.length = b.length) : (stage5 ks b).length = b.length := by
    simp [stage5, h]

/-- A byte of `S5` (43_pipeline_stages.md R197). -/
theorem stage5_getD (ks b : Bytes) (h : ks.length = b.length) (i : Nat) (hi : i < b.length) :
    (stage5 ks b).getD i 0 = b.getD i 0 ^^^ ks.getD i 0 := by
  simp [stage5, h, hi]

/-- A group that holds a value has its bit. -/
theorem csv_need_addx {cs : CipherState} {x} (h : cs.addx = some x) : vADDX &&& ~~~cs.csv = 0 := by
  unfold CipherState.csv validBit
  simp only [h, Option.isSome_some]
  generalize cs.csel.isSome = a, cs.ssel.isSome = b, cs.tables.isSome = d, cs.ks.isSome = e, cs.rounds.isSome = g
  revert a b d e g; decide

/-- A group that holds a value has its bit. -/
theorem csv_need_ks {cs : CipherState} {x} (h : cs.ks = some x) : vKS &&& ~~~cs.csv = 0 := by
  unfold CipherState.csv validBit
  simp only [h, Option.isSome_some]
  generalize cs.csel.isSome = a, cs.ssel.isSome = b, cs.tables.isSome = d, cs.addx.isSome = e, cs.rounds.isSome = g
  revert a b d e g; decide

/-- Two groups that hold a value have their bits. -/
theorem csv_need_selectors {cs : CipherState} {x y} (h : cs.csel = some x) (h' : cs.ssel = some y) :
    (vCSEL ||| vSSEL) &&& ~~~cs.csv = 0 := by
  unfold CipherState.csv validBit
  simp only [h, h', Option.isSome_some]
  generalize cs.addx.isSome = a, cs.tables.isSome = b, cs.ks.isSome = d, cs.rounds.isSome = e
  revert a b d e; decide

/-- Two groups that hold a value have their bits. -/
theorem csv_need_rounds {cs : CipherState} {x y} (h : cs.rounds = some x) (h' : cs.tables = some y) :
    (vRND ||| vT) &&& ~~~cs.csv = 0 := by
  unfold CipherState.csv validBit
  simp only [h, h', Option.isSome_some]
  generalize cs.addx.isSome = a, cs.csel.isSome = b, cs.ks.isSome = d, cs.ssel.isSome = e
  revert a b d e; decide

/-- A stage command without its valid bit (43_pipeline_stages.md R180). -/
theorem withAddx_missing (s : State) (f) (h : vADDX &&& ~~~s.cipher.csv ≠ 0) : withAddx s f =
    { s with err := 5, errInfo := s.cipher.missing vADDX } := by
  unfold withAddx
  split
  · next x hx => exact absurd (csv_need_addx hx) h
  · rfl

/-- A stage command without its valid bits (43_pipeline_stages.md R180). -/
theorem withSelectors_missing (s : State) (f) (h : (vCSEL ||| vSSEL) &&& ~~~s.cipher.csv ≠ 0) : withSelectors s f =
    { s with err := 5, errInfo := s.cipher.missing (vCSEL ||| vSSEL) } := by
  unfold withSelectors
  split
  · next x y hx hy => exact absurd (csv_need_selectors hx hy) h
  · rfl

/-- A stage command without its valid bits (43_pipeline_stages.md R180). -/
theorem withRounds_missing (s : State) (f) (h : (vRND ||| vT) &&& ~~~s.cipher.csv ≠ 0) : withRounds s f =
    { s with err := 5, errInfo := s.cipher.missing (vRND ||| vT) } := by
  unfold withRounds
  split
  · next x y hx hy => exact absurd (csv_need_rounds hx hy) h
  · rfl

/-- A stage command without its valid bit (43_pipeline_stages.md R180). -/
theorem withKeystream_missing (s : State) (f) (h : vKS &&& ~~~s.cipher.csv ≠ 0) : withKeystream s f =
    { s with err := 5, errInfo := s.cipher.missing vKS } := by
  unfold withKeystream
  split
  · next x hx => exact absurd (csv_need_ks hx) h
  · rfl

/-- LINV touches `IB` and the status alone. -/
theorem runLinv_frame (s) : ∃ ib e d, runLinv s = { s with ib := ib, err := e, errInfo := d } := by
  unfold runLinv
  split
  · exact ⟨none, 6, 0, rfl⟩
  · exact ⟨_, 0, 0, rfl⟩

end Sys2Proof.Machine
end

