-- ==== Sys2Proof/Laws/Cipher.lean ====
section
/-!
SUPPORT. Encrypt and decrypt: what each can give (44_cipher_batch.md R210 to R213).
-/

namespace Sys2Proof.Machine

/-- The ciphertext has one byte more than plaintext and extension (44_cipher_batch.md R215). -/
theorem encryptStages_length (c : Config) (k : Tag) (key p x : Bytes) : (encryptStages c k key p x).length =
    p.length + x.length + 1 := by
  have : (stage4 x (stage3 c (roundRegs c key).rounds (tgen c key).table (stage2 c (csel key) k
      (stage1 (cext (addcSet c (csel key)) p.length) p)))).length = p.length + x.length + 1 := by
    rw [stage4_length, stage3_length, stage2, stage2From_length, stage1_length]
  unfold encryptStages
  dsimp only
  rw [stage5_length _ _ (by rw [this, keystream_length]), this]

/-- What `encrypt` gives where it gives something (44_cipher_batch.md R210). -/
theorem encrypt_ok {c : Config} {p key x ct : Bytes} (h : encrypt c p key x = .ok ct) :
    key ≠ [] ∧ ∃ k, ssel key = .ok k ∧ x.length ≤ 255 ∧ ct = encryptStages c k key p x := by
  unfold encrypt at h
  split at h
  · cases h
  · next hk =>
    refine ⟨hk, ?_⟩
    split at h
    · cases h
    · next k hs =>
      split at h
      · cases h
      · next hx => exact ⟨k, hs, by omega, (Except.ok.inj h).symm⟩

/-- What ENC delivers is the ciphertext and fits (44_cipher_batch.md R211). -/
theorem encryptWithin_ok {c : Config} {p key x ct : Bytes} (h : encryptWithin c p key x = .ok ct) :
    encrypt c p key x = .ok ct ∧ within c.bufMax ct.length = true := by
  unfold encryptWithin at h
  split at h
  · cases h
  · next hc => split at h
               · next hw => cases h; exact ⟨hc, hw⟩
               · cases h

/-- The codes an item of BENC can get (44_cipher_batch.md R221). -/
theorem encryptWithin_error {c : Config} {p key x : Bytes} {e} (h : encryptWithin c p key x = .error e) :
    itemCode e.code.num = true := by
  unfold encryptWithin at h
  split at h
  · next e' he =>
    obtain rfl := Except.error.inj h
    unfold encrypt at he
    split at he
    · obtain rfl := Except.error.inj he; decide
    · split at he
      · next hs => obtain rfl := Except.error.inj he; rw [ssel_error hs]; decide
      · split at he
        · obtain rfl := Except.error.inj he; show itemCode (ErrCode.invalidExtension.num) = true; decide
        · cases he
  · split at h
    · cases h
    · obtain rfl := Except.error.inj h; decide

/-- What `decrypt` gives where it gives something (44_cipher_batch.md R212). -/
theorem decrypt_ok {c : Config} {ct key p : Bytes} (h : decrypt c ct key = .ok p) :
    key ≠ [] ∧ ct ≠ [] ∧ ∃ k b, ssel key = .ok k ∧
      invStage4 (stage5 (keystream key ct.length) ct) = .ok b ∧ p =
      decryptStages c k key b := by
  unfold decrypt at h
  split at h
  · cases h
  · next hk =>
    split at h
    · cases h
    · next k hs =>
      split at h
      · cases h
      · next hc =>
        split at h
        · cases h
        · next b hb => exact ⟨hk, hc, k, b, hs, hb, (Except.ok.inj h).symm⟩

/-- The plaintext is not longer than the ciphertext. -/
theorem decrypt_length {c : Config} {ct key p : Bytes} (h : decrypt c ct key = .ok p) : p.length ≤ ct.length := by
  obtain ⟨-, -, k, b, -, hb, rfl⟩ := decrypt_ok h
  have : b.length ≤ ct.length := by
    unfold invStage4 at hb
    split at hb
    · cases hb
    · split at hb
      · cases hb
      · obtain rfl := Except.ok.inj hb
        rw [List.length_take, stage5_length _ _ (keystream_length _ _)]; omega
  unfold decryptStages
  dsimp only
  rw [invStage1_length, invStage2, invStage2From_length, invStage3_length]; exact this

/-- The codes an item of BDEC can get (44_cipher_batch.md R221). -/
theorem decrypt_error {c : Config} {ct key : Bytes} {e} (h : decrypt c ct key = .error e) : itemCode e.code.num =
    true := by
  unfold decrypt at h
  split at h
  · obtain rfl := Except.error.inj h; decide
  · split at h
    · next hs => obtain rfl := Except.error.inj h; rw [ssel_error hs]; decide
    · split at h
      · obtain rfl := Except.error.inj h; decide
      · split at h
        · next e' hb =>
          obtain rfl := Except.error.inj h
          unfold invStage4 at hb
          split at hb
          · obtain rfl := Except.error.inj hb; decide
          · split at hb
            · obtain rfl := Except.error.inj hb; decide
            · cases hb
        · cases h

/-- A command that writes `BUF` and ends in success had a result. -/
theorem commitBuf_err_zero {s : State} {r} (h : (s.commitBuf r).err = 0) : ∃ b, r = .ok b := by
  cases r with
  | ok b => exact ⟨b, rfl⟩
  | error e => exact absurd h (num_ne_zero e.code)

end Sys2Proof.Machine
end

