-- ==== Sys2Proof/Laws/Batch.lean ====
section
/-!
SUPPORT. The batch executor: the order of processing reaches every item once (44_cipher_batch.md R217 to R221).
-/

namespace Sys2Proof.Machine

/-- Processing distinct indices reaches each of them once. -/
theorem processItems_nodup (f : Item → Item) : ∀ (order : List Nat) (items : List Item), order.Nodup →
    ∀ i, (processItems f order items)[i]? = if i ∈ order then items[i]?.map f else items[i]?
  | [], items, _, i => by simp [processItems]
  | j :: order, items, h, i => by
    have ih := processItems_nodup f order (items.modify j f) h.of_cons i
    have hj := (List.nodup_cons.1 h).1
    have : processItems f (j :: order) items = processItems f order (items.modify j f) := rfl
    rw [this, ih, List.getElem?_modify]
    by_cases hij : j = i
    · subst hij; simp [hj]
    · simp [hij, Ne.symm hij]

/-- Processing every index once, in any order, is processing the table. -/
theorem processItems_perm (f : Item → Item) {order : List Nat} {items : List Item} (h :
    order.Perm (List.range items.length)) :
    processItems f order items = items.map f := by
  apply List.ext_getElem?
  intro i
  rw [processItems_nodup f order items (h.nodup_iff.2 List.nodup_range) i, List.getElem?_map]
  simp only [h.mem_iff, List.mem_range]
  split
  · rfl
  · next hi => rw [List.getElem?_eq_none (by omega)]; rfl

/-- Taking the head of one queue takes one element from all. -/
theorem flatten_set_perm (queues : List (List Nat)) (w i : Nat) (rest : List Nat) (h : queues[w]? =
    some (i :: rest)) :
    queues.flatten.Perm (i :: (queues.set w rest).flatten) := by
  induction queues generalizing w with
  | nil => simp at h
  | cons q qs ih =>
    cases w with
    | zero => simp at h; subst h; simp
    | succ w =>
      simp only [List.getElem?_cons_succ] at h
      simp only [List.set_cons_succ, List.flatten_cons]
      exact (List.Perm.append_left q (ih w h)).trans List.perm_middle

/-- Whatever the turns, the order processes what the queues hold. -/
theorem interleave_perm : ∀ (turns : List Nat) (queues : List (List Nat)),
    (interleave turns queues).Perm queues.flatten
  | [], queues => List.Perm.refl _
  | w :: turns, queues => by
    unfold interleave
    split
    · next i rest h => exact ((interleave_perm turns _).cons i).trans (flatten_set_perm queues w i rest h).symm
    · exact interleave_perm turns queues

/-- The number of workers for a table that is not empty (44_cipher_batch.md R217). -/
theorem workers_count_succ (nb n : Nat) (h : 1 ≤ nb) (hn : 1 ≤ n) : (n + nb - 1) / nb = (n - 1) / nb + 1 := by
  rw [show n + nb - 1 = (n - 1) + nb by omega, Nat.add_div_right _ (by omega)]

/-- The first workers hold the first indices (44_cipher_batch.md R217). -/
theorem workers_take (nb n : Nat) (h : 1 ≤ nb) : ∀ w, w * nb ≤ n + nb - 1 →
    ((List.range w).map (workerItems nb n)).flatten = List.range (min (w * nb) n)
  | 0, _ => by simp
  | w + 1, hw => by
    have hw' : w * nb ≤ n := by rw [Nat.succ_mul] at hw; omega
    rw [List.range_succ, List.map_append, List.flatten_append, workers_take nb n h w (by omega)]
    simp only [List.map_cons, List.map_nil, List.flatten_cons, List.flatten_nil, List.append_nil, workerItems]
    rw [List.range_eq_range', Nat.min_eq_left hw', List.range_eq_range']
    have : min ((w + 1) * nb) n = w * nb + (min ((w + 1) * nb) n - w * nb) := by
      rw [Nat.succ_mul]; omega
    conv_rhs => rw [this]
    rw [← List.range'_append_1]; simp

/-- The workers together hold every index once, in order (44_cipher_batch.md R217). -/
theorem workers_flatten (nb n : Nat) (h : 1 ≤ nb) : (workers nb n).flatten = List.range n := by
  rw [workers, workers_take nb n h _ (Nat.div_mul_le_self _ _)]
  congr 1
  rcases Nat.eq_zero_or_pos n with hn | hn
  · subst hn; simp
  · rw [workers_count_succ nb n h hn]
    have := Nat.lt_div_mul_add (a := n - 1) (b := nb) (by omega)
    rw [Nat.add_mul, Nat.one_mul]
    omega

/-- No failing index where no item failed. -/
theorem firstFailed_none {items : List Item} : firstFailed items = none ↔ ∀ it ∈ items, it.err = 0 := by
  simp [firstFailed, List.findIdx?_eq_none_iff]

/-- A batch command with block size 0 (44_cipher_batch.md R218). -/
theorem runBatch_zero (f : Item → Item) (sch : List Nat) (s : State) (h : s.nblock = 0) :
    runBatch f sch s = { s with cipher := CipherState.empty, err := 5, errInfo := 0x400 } := by
  rw [runBatch, if_pos h]; rfl

/-- A batch command with another block size, as one expression (44_cipher_batch.md R218). -/
theorem runBatch_pos (f : Item → Item) (sch : List Nat) (s : State) (h : s.nblock ≠ 0) :
    runBatch f sch s = { s with
      items := s.items.map f, cipher := CipherState.empty
      err := (match firstFailed (s.items.map f) with | none => 0 | some _ => 8)
      errInfo := (match firstFailed (s.items.map f) with | none => 0 | some i => low32 i) } := by
  rw [runBatch, if_neg h, processItems_perm f ((interleave_perm _ _).trans
    (by rw [workers_flatten _ _ (by omega)]))]
  dsimp only
  cases firstFailed (s.items.map f) <;> rfl

/-- Storing a result keeps the key and the extension. -/
theorem store_key (it : Item) (r) : (it.store r).key = it.key ∧ (it.store r).ext = it.ext := by
  cases r <;> exact ⟨rfl, rfl⟩

/-- A batch command touches the items' data and codes, `CSV` and the status alone. -/
theorem runBatch_frame (f : Item → Item) (hf : ∀ it, (f it).key = it.key ∧ (f it).ext = it.ext) (sch s) :
    ∃ items e d,
    runBatch f sch s = { s with items := items, cipher := CipherState.empty, err := e, errInfo := d } ∧
    items.map (fun it => (it.key, it.ext)) = s.items.map (fun it => (it.key, it.ext)) := by
  by_cases h : s.nblock = 0
  · exact ⟨s.items, 5, 0x400, runBatch_zero _ _ _ h, rfl⟩
  · refine ⟨_, _, _, runBatch_pos _ _ _ h, ?_⟩
    rw [List.map_map]
    apply List.map_congr_left
    intro it _; simp [hf it]

end Sys2Proof.Machine
end

