-- ==== Sys2Proof/Laws/Encoding.lean ====
section
/-!
SUPPORT. The fields of a command word, and what each part of the decoder accepts (30_encoding.md).
-/

namespace Sys2Proof

/-- Which field each bit of a command word belongs to (30_encoding.md R70). -/
theorem packWord_getLsbD (op a b : Byte) (i : Nat) : (packWord op a b).getLsbD i =
    if i < 8 then op.getLsbD i else if i < 16 then a.getLsbD (i - 8) else if i < 24 then b.getLsbD (i - 16)
    else false := by
  change BitVec.getLsbD (w := 8+8+8+8) (0#8 ++ b ++ a ++ op) i = _
  simp only [BitVec.getLsbD_append]
  by_cases h1 : i < 8
  · simp [h1]
  · by_cases h2 : i < 16
    · simp [h1, h2, show i - 8 < 8 by omega]
    · by_cases h3 : i < 24
      · simp [h1, h2, h3, show ¬ i - 8 < 8 by omega, show i - 8 - 8 < 8 by omega, show i - 16 = i - 8 - 8 by omega]
      · simp [h1, h2, h3, show ¬ i - 8 < 8 by omega, show ¬ i - 8 - 8 < 8 by omega]

/-- The four fields of a packed word (30_encoding.md R70). -/
theorem packWord_fields (op a b : Byte) : fieldOp (packWord op a b) = op ∧ fieldA (packWord op a b) = a ∧
    fieldB (packWord op a b) = b ∧ fieldZ (packWord op a b) = 0 := by
  refine ⟨?_, ?_, ?_, ?_⟩ <;> simp only [fieldOp, fieldA, fieldB, fieldZ] <;>
   (apply BitVec.eq_of_getLsbD_eq; intro i hi; simp only [BitVec.getLsbD_extractLsb', packWord_getLsbD, hi,
     decide_true, Bool.true_and])
  · simp [hi]
  · simp [hi, show 8 + i < 16 by omega]
  · simp [show ¬ 16 + i < 8 by omega, hi, show 16 + i < 24 by omega]
  · simp [show ¬ 24 + i < 8 by omega, show ¬ 24 + i < 16 by omega]

/-- A word whose top byte is 0 is packed from its fields (30_encoding.md R70). -/
theorem packWord_eq (cw : Word) (h : fieldZ cw = 0) : packWord (fieldOp cw) (fieldA cw) (fieldB cw) = cw := by
  apply BitVec.eq_of_getLsbD_eq; intro i hi
  rw [packWord_getLsbD]
  simp only [fieldOp, fieldA, fieldB, BitVec.getLsbD_extractLsb']
  split
  · next h => simp [h]
  · split
    · next h1 h2 => simp [show i - 8 < 8 by omega, show 8 + (i - 8) = i by omega]
    · split
      · simp [show i - 16 < 8 by omega, show 16 + (i - 16) = i by omega]
      · have := congrArg (fun v => v.getLsbD (i - 24)) h
        simp only [fieldZ, BitVec.getLsbD_extractLsb'] at this
        rw [show 24 + (i - 24) = i by omega] at this
        simp [show i - 24 < 8 by omega] at this
        simpa using this.symm

/-- The decoder on a packed word (30_encoding.md R79). -/
theorem decode_packWord (op a b : Byte) : decode (packWord op a b) = decodeFields op a b := by
  obtain ⟨h1, h2, h3, h4⟩ := packWord_fields op a b
  simp [decode, h1, h2, h3, h4]

/-- The field value of a mode decodes to it (30_encoding.md R72). -/
theorem decodeMode_code (m : SpongeMode) : decodeMode m.code = some m := by cases m <;> rfl

/-- The field value of an execution mode decodes to it (30_encoding.md R72). -/
theorem decodeExec_code (m : ExecMode) : decodeExec m.code = some m := by cases m <;> rfl

/-- The field value of a tag decodes to it (30_encoding.md R72). -/
theorem decodeTag_code (k : Tag) : decodeTag (tagCode k) = some k := by revert k; decide

/-- What format N accepts (30_encoding.md R71). -/
theorem formatN_ok {a b : Byte} {i j : Instr} : formatN a b i = .ok j ↔ a = 0 ∧ b = 0 ∧ i = j := by
  unfold formatN; split <;> simp_all


/-- What an argument decoder accepts (30_encoding.md R72). -/
theorem withArgument_ok {α} {arg : Option α} {mk : α → Instr} {j : Instr} : withArgument arg mk = .ok j ↔ ∃ v,
    arg = some v ∧ mk v = j := by
  cases arg <;> simp [withArgument]

/-- What format A accepts (30_encoding.md R71). -/
theorem formatA_ok {α} {b : Byte} {arg : Option α} {mk : α → Instr} {j : Instr} : formatA b arg mk = .ok j ↔ b =
    0 ∧ ∃ v, arg = some v ∧ mk v = j := by
  unfold formatA; split <;> simp_all [withArgument_ok]

/-- Which field value a mode has (30_encoding.md R72). -/
theorem decodeMode_some {a : Byte} {m} : decodeMode a = some m ↔ a = m.code := by
  unfold decodeMode; cases m <;> simp only [SpongeMode.code] <;> split <;> simp_all

/-- Which field value an execution mode has (30_encoding.md R72). -/
theorem decodeExec_some {a : Byte} {m} : decodeExec a = some m ↔ a = m.code := by
  unfold decodeExec; cases m <;> simp only [ExecMode.code] <;> split <;> simp_all

/-- Which field value a tag has (30_encoding.md R72). -/
theorem decodeTag_some {a : Byte} {k} : decodeTag a = some k ↔ a = tagCode k := by
  constructor
  · unfold decodeTag; split
    · rintro h; cases h; simp [tagCode]
    · simp
  · rintro rfl; exact decodeTag_code k

/-- A byte is given by its value. -/
theorem eq_ofNat {op : Byte} {n : Nat} (h : op.toNat = n) : op = BitVec.ofNat 8 n := by subst h; simp

/-- Fields that decode are the fields of the instruction (30_encoding.md R73, R79). -/
theorem decodeFields_ok (op a b : Byte) (i : Instr) (h : decodeFields op a b = .ok i) : i.wellFormed = true ∧
    encode i = packWord op a b := by
  unfold decodeFields at h
  split at h
  all_goals first
    | (cases h)
    | (rename_i hop; have hop' := eq_ofNat hop
       subst hop'
       simp only [formatN_ok, formatA_ok, withArgument_ok, decodeMode_some, decodeExec_some, decodeTag_some] at h
       first
         | (obtain ⟨rfl, rfl, rfl⟩ := h; exact ⟨rfl, rfl⟩)
         | (obtain ⟨rfl, v, rfl, rfl⟩ := h; exact ⟨rfl, rfl⟩)
         | (obtain ⟨v, rfl, rfl⟩ := h; exact ⟨rfl, rfl⟩))

end Sys2Proof
end

