-- ==== Sys2Proof/Laws/Memory.lean ====
section
/-!
SUPPORT. The byte buffers: a load or a buffer write changes one buffer and no other, every memory operation keeps the
memory's form, and the form holds after reset (10_state.md R24, 20_memory.md R51).
-/

namespace Sys2Proof.Machine

/-- The form of the memory, buffer by buffer (20_memory.md R51). -/
theorem wf_iff (c : Config) (m : Memory) : m.wf c = true ↔
    within c.keyMax m.key.length = true ∧ within c.bufMax m.buf.length = true ∧
      within c.msgMax m.msg.length = true ∧ within c.digMax m.dig.length = true := by
  simp [Memory.wf, and_assoc]

/-- The empty sequence is within every capacity. -/
theorem within_zero (cap : Option Nat) : within cap 0 = true := by cases cap <;> simp [within]

/-- The memory has its form after reset (10_state.md R39). -/
theorem wf_reset (c : Config) : State.reset.mem.wf c = true :=
  (wf_iff c _).2 ⟨within_zero _, within_zero _, within_zero _, within_zero _⟩

/-- A load that is not refused keeps the form (20_memory.md R66). -/
theorem wf_load (c : Config) (m : Memory) (n : LoadName) (b : Bytes) (h : m.wf c = true)
    (hb : within (loadCapacity c n) b.length = true) : (m.put n.target b).wf c = true := by
  obtain ⟨h1, h2, h3, h4⟩ := (wf_iff c m).1 h
  cases n
  · exact (wf_iff c _).2 ⟨hb, h2, h3, h4⟩
  · exact (wf_iff c _).2 ⟨h1, hb, h3, h4⟩
  · exact (wf_iff c _).2 ⟨h1, h2, h3, h4⟩
  · exact (wf_iff c _).2 ⟨h1, h2, hb, h4⟩

/-- A write of `BUF` within the capacity keeps the form. -/
theorem wf_setBuf (c : Config) (s : State) (b : Bytes) (h : s.mem.wf c = true) (hb : within c.bufMax b.length = true) :
    (s.setBuf b).mem.wf c = true := by
  obtain ⟨h1, h2, h3, h4⟩ := (wf_iff c s.mem).1 h
  exact (wf_iff c _).2 ⟨h1, hb, h3, h4⟩

/-- A write of `DIG` within the capacity keeps the form. -/
theorem wf_setDig (c : Config) (s : State) (d : Bytes) (h : s.mem.wf c = true) (hd : within c.digMax d.length = true) :
    (s.setDig d).mem.wf c = true := by
  obtain ⟨h1, h2, h3, h4⟩ := (wf_iff c s.mem).1 h
  exact (wf_iff c _).2 ⟨h1, h2, h3, hd⟩

/-- A command that writes `BUF` keeps the form where its result is within the capacity. -/
theorem wf_commitBuf (c : Config) (s : State) (r : Except CmdError Bytes) (h : s.mem.wf c = true)
    (hr : ∀ b, r = .ok b → within c.bufMax b.length = true) : (s.commitBuf r).mem.wf c = true := by
  cases r with
  | ok b => exact wf_setBuf c s b h (hr b rfl)
  | error e => exact h

/-- The buffer written reads as written (00_scope.md R15). -/
@[simp] theorem put_get_same (m : Memory) (n : BufName) (b : Bytes) : (m.put n b).get n = b := by cases n <;> rfl

/-- Every other buffer reads as before (20_memory.md R51). -/
theorem put_get_other (m : Memory) (n : BufName) (b : Bytes) (o : BufName) (h : o ≠ n) :
    (m.put n b).get o = m.get o := by
  cases n <;> cases o <;> first | rfl | exact absurd rfl h

/-- A write of `BUF` leaves every other buffer (20_memory.md R51). -/
theorem setBuf_get_other (s : State) (b : Bytes) (o : BufName) (h : o ≠ .buf) :
    (s.setBuf b).mem.get o = s.mem.get o := put_get_other _ _ _ _ h

/-- A write of `DIG` leaves every other buffer (20_memory.md R51). -/
theorem setDig_get_other (s : State) (d : Bytes) (o : BufName) (h : o ≠ .dig) :
    (s.setDig d).mem.get o = s.mem.get o := put_get_other _ _ _ _ h

/-- `MemRead` where its precondition holds (20_memory.md R52). -/
theorem memRead_some (m : Memory) (b : BufName) (i n : Nat) (h : i + n ≤ (m.get b).length) :
    memRead m b i n = some (((m.get b).drop i).take n) := if_pos h

/-- `MemRead` reads inside the buffer only (20_memory.md R52). -/
theorem memRead_none (m : Memory) (b : BufName) (i n : Nat) (h : (m.get b).length < i + n) :
    memRead m b i n = none := if_neg (Nat.not_le.2 h)

/-- `MemWrite` where its preconditions hold (20_memory.md R52): the bytes of the buffer from index `i` on become `v`, its
length and every byte outside stay, and every other buffer reads as before. -/
theorem memWrite_some (m : Memory) (b : BufName) (i n : Nat) (v : Bytes) (hv : v.length = n)
    (hi : i + n ≤ (m.get b).length) : ∃ t, memWrite m b i n v = some t ∧
      (t.get b).length = (m.get b).length ∧ memRead t b i n = some v ∧
      (∀ j, j < i ∨ i + n ≤ j → t.byte? b j = m.byte? b j) ∧ ∀ o ≠ b, t.get o = m.get o := by
  subst hv
  have hlen : ((m.get b).take i ++ v ++ (m.get b).drop (i + v.length)).length = (m.get b).length := by
    simp only [List.length_append, List.length_take, List.length_drop]; omega
  refine ⟨_, if_pos ⟨rfl, hi⟩, by rw [put_get_same, hlen], ?_, ?_, fun o ho => put_get_other m b _ o ho⟩
  · rw [memRead_some _ _ _ _ (by rw [put_get_same, hlen]; exact hi), put_get_same, List.append_assoc,
      List.drop_left' (by rw [List.length_take]; omega), List.take_left]
  · intro j hj
    simp only [Memory.byte?, put_get_same, List.append_assoc]
    rcases hj with hj | hj
    · rw [List.getElem?_append_left (by rw [List.length_take]; omega), List.getElem?_take_of_lt hj]
    · rw [List.getElem?_append_right (by rw [List.length_take]; omega), List.getElem?_append_right
        (by rw [List.length_take]; omega), List.getElem?_drop, List.length_take]
      congr 1; omega

/-- `MemWrite` writes inside the buffer only, and only as many bytes as it is given (20_memory.md R52). -/
theorem memWrite_none (m : Memory) (b : BufName) (i n : Nat) (v : Bytes)
    (h : v.length ≠ n ∨ (m.get b).length < i + n) : memWrite m b i n v = none := if_neg (by omega)

/-- `MemWrite` keeps the form: no length changes (20_memory.md R51, R52). -/
theorem wf_memWrite (c : Config) (m t : Memory) (b : BufName) (i n : Nat) (v : Bytes) (h : m.wf c = true)
    (hw : memWrite m b i n v = some t) : t.wf c = true := by
  have hp : v.length = n ∧ i + n ≤ (m.get b).length := by
    by_contra hc
    rw [memWrite, if_neg hc] at hw
    cases hw
  obtain ⟨t', ht', hl, -, -, ho⟩ := memWrite_some m b i n v hp.1 hp.2
  obtain rfl : t = t' := by rw [ht'] at hw; exact (Option.some.inj hw).symm
  have hlen : ∀ o, (t.get o).length = (m.get o).length := fun o =>
    if hob : o = b then hob ▸ hl else by rw [ho o hob]
  obtain ⟨h1, h2, h3, h4⟩ := (wf_iff c m).1 h
  exact (wf_iff c t).2 ⟨(congrArg (within _) (hlen .key)).trans h1, (congrArg (within _) (hlen .buf)).trans h2,
    (congrArg (within _) (hlen .msg)).trans h3, (congrArg (within _) (hlen .dig)).trans h4⟩

end Sys2Proof.Machine
end

