-- ==== Sys2Proof/Laws/PerInstr.lean ====
section
/-!
SUPPORT. The family of lemmas per instruction: the decoder gives back, from an instruction's encoding, the command the
instruction stands for (30_encoding.md R73, R78, R79).
-/

namespace Sys2Proof.Laws.DecodesToExpansion

/-- The encoding of `i` decodes to the command `i` stands for, itself unless it is a pseudo-instruction. -/
def Statement (i : Instr) : Prop := decode (encode i) = .ok i.expand

theorem kf : Statement Instr.kf := decode_packWord _ _ _

theorem spinit (mode : SpongeMode) (sec : Byte) : Statement (Instr.spinit mode sec) := by
  simp [Statement, encode, decode_packWord, decodeFields, withArgument, decodeMode_code, Instr.expand]

theorem spabs : Statement Instr.spabs := decode_packWord _ _ _

theorem spfin : Statement Instr.spfin := decode_packWord _ _ _

theorem hash (mode : SpongeMode) (sec : Byte) : Statement (Instr.hash mode sec) := by
  simp [Statement, encode, decode_packWord, decodeFields, withArgument, decodeMode_code, Instr.expand]

theorem dcsel : Statement Instr.dcsel := decode_packWord _ _ _

theorem dcext : Statement Instr.dcext := decode_packWord _ _ _

theorem dssel : Statement Instr.dssel := decode_packWord _ _ _

theorem dtgen : Statement Instr.dtgen := decode_packWord _ _ _

theorem dks : Statement Instr.dks := decode_packWord _ _ _

theorem drnd : Statement Instr.drnd := decode_packWord _ _ _

theorem csclr : Statement Instr.csclr := decode_packWord _ _ _

theorem sig (k : Tag) : Statement (Instr.sig k) := by
  simp [Statement, encode, decode_packWord, decodeFields, formatA, withArgument, decodeTag_code, Instr.expand]

theorem isig (k : Tag) : Statement (Instr.isig k) := by
  simp [Statement, encode, decode_packWord, decodeFields, formatA, withArgument, decodeTag_code, Instr.expand]

theorem linv : Statement Instr.linv := decode_packWord _ _ _

theorem st1 : Statement Instr.st1 := decode_packWord _ _ _

theorem st2 : Statement Instr.st2 := decode_packWord _ _ _

theorem st3 : Statement Instr.st3 := decode_packWord _ _ _

theorem st4 : Statement Instr.st4 := decode_packWord _ _ _

theorem st5 : Statement Instr.st5 := decode_packWord _ _ _

theorem ist1 : Statement Instr.ist1 := decode_packWord _ _ _

theorem ist2 : Statement Instr.ist2 := decode_packWord _ _ _

theorem ist3 : Statement Instr.ist3 := decode_packWord _ _ _

theorem ist4 : Statement Instr.ist4 := decode_packWord _ _ _

theorem enc : Statement Instr.enc := decode_packWord _ _ _

theorem dec : Statement Instr.dec := decode_packWord _ _ _

theorem benc (e : ExecMode) : Statement (Instr.benc e) := by
  simp [Statement, encode, decode_packWord, decodeFields, formatA, withArgument, decodeExec_code, Instr.expand]

theorem bdec (e : ExecMode) : Statement (Instr.bdec e) := by
  simp [Statement, encode, decode_packWord, decodeFields, formatA, withArgument, decodeExec_code, Instr.expand]

theorem ist5 : Statement Instr.ist5 := decode_packWord _ _ _

theorem sha3_224 : Statement Instr.sha3_224 := decode_packWord _ _ _

theorem sha3_256 : Statement Instr.sha3_256 := decode_packWord _ _ _

theorem sha3_384 : Statement Instr.sha3_384 := decode_packWord _ _ _

theorem sha3_512 : Statement Instr.sha3_512 := decode_packWord _ _ _

theorem shake128 : Statement Instr.shake128 := decode_packWord _ _ _

theorem shake256 : Statement Instr.shake256 := decode_packWord _ _ _

end Sys2Proof.Laws.DecodesToExpansion
end

