-- ==== Sys2Proof/Laws/Sponge.lean ====
section
/-!
SUPPORT. The sponge commands: which pairs of mode and level are supported, HASH as one expression,
  and what each command
touches (40_sponge.md).
-/

namespace Sys2Proof.Machine

/-- Which code a level has (30_encoding.md R72). -/
theorem secOfCode_some {b : Byte} {l : SecLevel} : secOfCode b = some l ↔ l.code = b.toNat := by
  unfold secOfCode
  constructor
  · intro h; split at h <;> cases h <;> simp_all [SecLevel.code]
  · intro h; cases l <;> simp [SecLevel.code] at h <;> simp [← h]

/-- The unsupported codes (30_encoding.md R72). -/
theorem secOfCode_none {b : Byte} : secOfCode b = none ↔ 5 ≤ b.toNat := by
  unfold secOfCode; split <;> simp_all; omega

/-- What SPINIT and HASH reject (40_sponge.md R95). -/
theorem supportedLevel_none {m : SpongeMode} {b : Byte} :
    supportedLevel m b = none ↔ 5 ≤ b.toNat ∨ (m = .fixed ∧ b = 0) := by
  unfold supportedLevel
  split
  · next l hl =>
    have := secOfCode_some.1 hl
    cases m <;> cases l <;> simp_all [supported, SecLevel.code] <;> try omega
    all_goals first | exact Or.inr (by bv_omega) | (refine ⟨by omega, ?_⟩; rintro rfl; simp at this)
  · next hl => simp [secOfCode_none.1 hl]

/-- What SPINIT and HASH accept (40_sponge.md R95, R103). -/
theorem supportedLevel_some {m : SpongeMode} {b : Byte} {l : SecLevel} : supportedLevel m b = some l ↔ l.code =
    b.toNat ∧ supported m l = true := by
  unfold supportedLevel
  split
  · next l' hl =>
    have h' := secOfCode_some.1 hl
    constructor
    · intro h; split at h <;> cases h; exact ⟨h', by assumption⟩
    · rintro ⟨h1, h2⟩
      have : l' = l := by
        have := secOfCode_some.2 h1; rw [hl] at this; exact Option.some.inj this
      subst this; simp [h2]
  · next hl => simp; intro h; rw [secOfCode_some.2 h] at hl; cases hl

/-- The one unsupported pair of a mode and a level (40_sponge.md R103). -/
theorem supported_iff {m : SpongeMode} {l : SecLevel} : supported m l = true ↔ ¬(m = .fixed ∧ l = .sec128) := by
  cases m <;> cases l <;> simp [supported]

/-- HASH of a supported pair as one expression (40_sponge.md R102). -/
theorem hashMessage_eq (c : Config) (m : SpongeMode) (b : Byte) (cw : Word) (s : State) {l : SecLevel} (hl :
    supportedLevel m b = some l) :
    hashMessage c m b cw s = (let n := if m = .fixed then l.bits / 8 else s.len
      if within c.digMax n = true then
        let out := squeeze l.rate (pad l.rate m (absorb l.rate (zeroLanes, 0) s.mem.msg)) n
        .ok { s with sponge := ⟨out.2, m, l, 0, .done⟩, mem := { s.mem with dig := out.1 } }
      else .error capacityExceeded) := by
  simp only [hashMessage, spInit, hl, spAbsorb, if_true, spFinish, digestLength, State.setDig]
  cases m <;> rfl

/-- SPINIT touches the context and the status alone. -/
theorem runSpinit_frame (m b s) : ∃ sp e d, runSpinit m b s = { s with sponge := sp, err := e, errInfo := d } := by
  unfold runSpinit spInit
  split
  · exact ⟨s.sponge, 3, _, rfl⟩
  · exact ⟨_, 0, 0, rfl⟩

/-- SPABS touches the context and the status alone. -/
theorem runSpabs_frame (s) : ∃ sp e d, runSpabs s = { s with sponge := sp, err := e, errInfo := d } := by
  unfold runSpabs spAbsorb
  split
  · exact ⟨_, 0, 0, rfl⟩
  · exact ⟨s.sponge, 5, _, rfl⟩

/-- SPFIN touches the context, `DIG` and the status alone. -/
theorem runSpfin_frame (c s) : ∃ sp dig e d, runSpfin c s =
    { s with sponge := sp, mem := { s.mem with dig := dig }, err := e, errInfo := d } := by
  unfold runSpfin spFinish
  split
  · split
    · exact ⟨_, _, 0, 0, rfl⟩
    · exact ⟨s.sponge, s.mem.dig, 9, 0, rfl⟩
  · exact ⟨s.sponge, s.mem.dig, 5, _, rfl⟩

/-- HASH touches the context, `DIG` and the status alone. -/
theorem runHash_frame (c m b s) : ∃ sp dig e d, runHash c m b s =
    { s with sponge := sp, mem := { s.mem with dig := dig }, err := e, errInfo := d } := by
  cases hl : supportedLevel m b with
  | none =>
    refine ⟨s.sponge, s.mem.dig, 3, encode (.hash m b), ?_⟩
    simp only [runHash, hashMessage, spInit, hl]; rfl
  | some l =>
    rw [runHash, hashMessage_eq _ _ _ _ _ hl]
    dsimp only
    rcases hw : within c.digMax (if m = .fixed then l.bits / 8 else s.len) with _ | _
    · simp only [Bool.false_eq_true, if_false]
      exact ⟨s.sponge, s.mem.dig, 9, 0, rfl⟩
    · simp only [if_true]
      exact ⟨_, _, 0, 0, rfl⟩

/-- A finalized context of a supported pair is good. -/
theorem good_done (lanes m l) (h : supported m l = true) : Sponge.Good ⟨lanes, m, l, 0, .done⟩ := ⟨rate_pos l,
    fun _ => h, fun _ => rfl⟩

end Sys2Proof.Machine
end

