-- ==== Sys2Proof/Tests/Slice0.lean ====
section
/-!
SUPPORT. The tests of the model: words written out from the spec's encoding, the smoke test of WellFormed, values from the
spec's own vectors (95_test_vectors.md, whose test configuration TC-1 is `tc1`), and for every statement with hypotheses
a state that meets them.
-/

namespace Sys2Proof.Tests

open Sys2Proof.Machine

/-! ## Decoding: each word is op + 2^8 * a + 2^16 * b + 2^24 * z (30_encoding.md R70), op from the map of R73 -/

theorem test_decode_sponge :
    decode 0x00000001#32 = .ok .kf ∧ decode 0x00020002#32 = .ok (.spinit .fixed 2) ∧
      decode 0x00FF0102#32 = .ok (.spinit .xof 255) ∧ decode 0x00000003#32 = .ok .spabs ∧
      decode 0x00000004#32 = .ok .spfin ∧ decode 0x00030105#32 = .ok (.hash .xof 3) := by decide

theorem test_decode_derive :
    decode 0x00000010#32 = .ok .dcsel ∧ decode 0x00000011#32 = .ok .dcext ∧ decode 0x00000012#32 = .ok .dssel ∧
      decode 0x00000013#32 = .ok .dtgen ∧ decode 0x00000014#32 = .ok .dks ∧ decode 0x00000015#32 = .ok .drnd ∧
      decode 0x00000016#32 = .ok .csclr := by decide

theorem test_decode_mixing :
    decode 0x00000118#32 = .ok (.sig 1) ∧ decode 0x00000319#32 = .ok (.isig 3) ∧
      decode 0x0000001A#32 = .ok .linv := by decide

theorem test_decode_stages :
    decode 0x00000020#32 = .ok .st1 ∧ decode 0x00000021#32 = .ok .st2 ∧ decode 0x00000022#32 = .ok .st3 ∧
      decode 0x00000023#32 = .ok .st4 ∧ decode 0x00000024#32 = .ok .st5 ∧ decode 0x00000028#32 = .ok .ist1 ∧
      decode 0x00000029#32 = .ok .ist2 ∧ decode 0x0000002A#32 = .ok .ist3 ∧ decode 0x0000002B#32 = .ok .ist4 := by decide

theorem test_decode_cipher :
    decode 0x00000030#32 = .ok .enc ∧ decode 0x00000031#32 = .ok .dec ∧ decode 0x00000132#32 = .ok (.benc .thr) ∧
      decode 0x00000033#32 = .ok (.bdec .seq) := by decide

/-- One word bit by bit: z, b, a, op of SPINIT XOF, 512 (30_encoding.md R70, R72, R73). -/
theorem test_decode_bits : decode 0b00000000_00000100_00000001_00000010#32 = .ok (.spinit .xof 4) := by decide

/-- The words of the pseudo-instructions are those of their commands (30_encoding.md R78). -/
theorem test_decode_pseudo :
    decode (encode .ist5) = .ok .st5 ∧ encode .ist5 = 0x00000024#32 ∧ encode .sha3_224 = 0x00010005#32 ∧
      encode .sha3_256 = 0x00020005#32 ∧ encode .sha3_384 = 0x00030005#32 ∧ encode .sha3_512 = 0x00040005#32 ∧
      encode .shake128 = 0x00000105#32 ∧ encode .shake256 = 0x00020105#32 := by decide

/-- The illegal words of 95_test_vectors.md V14 and 30_encoding.md R74. -/
theorem test_decode_illegal :
    decode 0x00020202#32 = .error .reservedArgument ∧ decode 0x00000000#32 = .error .unknownOpcode ∧
      decode 0xFFFFFFFF#32 = .error .topByteNonzero ∧ decode 0x00000120#32 = .error .unusedFieldNonzero ∧
      decode 0x01000001#32 = .error .topByteNonzero ∧ decode 0x00000418#32 = .error .reservedArgument ∧
      decode 0x00010118#32 = .error .unusedFieldNonzero := by decide

/-! ## WellFormed -/

theorem test_wellFormed_refuses_pseudo :
    Instr.ist5.wellFormed = false ∧ Instr.sha3_224.wellFormed = false ∧ Instr.sha3_256.wellFormed = false ∧
      Instr.sha3_384.wellFormed = false ∧ Instr.sha3_512.wellFormed = false ∧ Instr.shake128.wellFormed = false ∧
      Instr.shake256.wellFormed = false := by decide

theorem test_wellFormed_accepts : (Instr.spinit .xof 255).wellFormed = true ∧ Instr.st5.wellFormed = true := by decide

/-! ## Helpers -/

/-- TC-1 (95_test_vectors.md V12). -/
def tc1 : Config where
  addc := Vector.ofFn fun s => Vector.ofFn fun j => BitVec.ofNat 32 ((s.val + 1) * 0x9E3779B9 + j.val * 0x01010101)
  mixc := Vector.ofFn fun s => Vector.ofFn fun j => BitVec.ofNat 32 ((s.val + 1) * 0x85EBCA6B + j.val * 0x00010203)
  sbox := Vector.ofFn fun x => BitVec.ofNat 8 (7 * x.val + 99)
  sigmaRot := #v[[2, 13, 22], [6, 11, 25], [3, 7, 18], [10, 17, 19]]

/-- A configuration with every capacity finite. -/
def small : Config where
  keyMax := some 3
  bufMax := some 256
  bufMax_ge := by simp
  msgMax := some 2
  digMax := some 32
  lenBits := some 4
  nitemsMax := some 1

/-- The key of most vectors. -/
def key3 : Bytes := [0x6b, 0x65, 0x79]

/-- The state after reset with three buffers loaded. -/
def loaded (key buf ext : Bytes) : State := { State.reset with mem := ⟨key, buf, ext, [], []⟩ }

/-- The same with a cipher state. -/
def derived (buf : Bytes) (cs : CipherState) : State := { loaded key3 buf [] with cipher := cs }

/-- The state after reset with a message loaded. -/
def message (msg : Bytes) : State := { State.reset with mem := { Memory.empty with msg := msg } }

/-- A table whose first entries are those of V10. -/
def table5 : KeyTables := ⟨Vector.replicate 256 0x65, Vector.ofFn fun i => [0x16, 0xd4, 0xb2, 0x10, 0x04].getD i.val 0⟩

/-! ## Sponge (V1, V2, V3, V5, V14) -/

theorem test_kf : (runKf State.reset).sponge.lanes[0] = 0xF1258F7940E1DDE7 ∧
    (runKf State.reset).sponge.lanes[24] = 0xEAF1FF7B5CECA249 := by decide +kernel

theorem test_spinit : (runSpinit .fixed 2 State.reset).sponge.packed = 20 := by decide

theorem test_spinit_rejects : (runSpinit .fixed 0 State.reset).err = 3 ∧
    (runSpinit .fixed 0 State.reset).errInfo = 0x00000002 := by decide

theorem test_spabs : (runSpabs (runSpinit .fixed 2 (message [0x61, 0x62, 0x63]))).sponge.lanes[0] = 0x636261 ∧
    (runSpabs (runSpinit .fixed 2 (message [0x61, 0x62, 0x63]))).sponge.packed = 212 := by decide +kernel

theorem test_spabs_idle : (runSpabs State.reset).err = 5 ∧ (runSpabs State.reset).errInfo = 0x100 := by decide

theorem test_spfin : (runSpfin tc1 (runSpinit .fixed 2 State.reset)).mem.dig.take 4 = [0xa7, 0xff, 0xc6, 0xf8] := by
  decide +kernel

theorem test_hash : (runHash tc1 .fixed 2 (message [0x61, 0x62, 0x63])).mem.dig.take 4 =
    [0x3a, 0x98, 0x5d, 0xa7] := by decide +kernel

theorem test_hash_rejects : (runHash tc1 .xof 5 State.reset).errInfo = 0x00050105 := by decide

theorem test_hash_spellings (s : State) : exec .sha3_224 s = exec (.hash .fixed 1) s ∧
    exec .sha3_384 s = exec (.hash .fixed 3) s ∧ exec .shake128 s = exec (.hash .xof 0) s := ⟨rfl, rfl, rfl⟩

theorem test_shake_empty_output : (runHash tc1 .xof 0 State.reset).mem.dig = [] ∧
    (runHash tc1 .xof 0 State.reset).err = 0 := by decide +kernel

/-! ## Derivation (V8 to V11) -/

theorem test_dcsel : (runDcsel (loaded key3 [] [])).cipher.csel = some 1 := by decide

theorem test_dcext : ((runDcext tc1 (loaded key3 [] [])).cipher.addx.map fun x => (x.length, x.take 2)) =
    some (32, [0x3C6EF372, 0x3D6FF473]) := by decide +kernel

theorem test_ssel : ssel key3 = .ok 2 := by decide +kernel

theorem test_dssel : (runDssel (loaded key3 [] [])).cipher.ssel = some 2 := by
  have h : (loaded key3 [] []).mem.key = key3 := rfl
  simp [runDssel, derive, h, test_ssel, show key3 ≠ [] by decide]

theorem test_dtgen : ((tableBytes tc1 (nkey key3)).take 4) = [0x16, 0xd4, 0xb2, 0x10] := by decide +kernel

theorem test_dks : (runDks { loaded key3 [] [] with len := 4 }).cipher.ks = some [0x6b, 0x65, 0x79, 0x20] := by
  decide +kernel

theorem test_drnd : ((runDrnd tc1 (loaded key3 [] [])).cipher.rounds.map fun r => (r.kint, r.bitcnt, r.rcount, r.rounds)) =
    some (0x79656B, 14, 6, 4) := by decide +kernel

theorem test_drnd_zero : ((runDrnd tc1 (loaded [0x61] [] [])).cipher.rounds.map fun r => (r.rcount, r.rounds)) =
    some (0, 1) := by decide +kernel

theorem test_derive_empty_key : (runDks (loaded [] [] [])).err = 1 ∧ (runDks (loaded [] [] [])).errInfo = 0 := by decide

theorem test_csclr : (runCsclr (runDcsel (loaded key3 [] []))).cipher.csv = 0 := by decide

/-! ## Mixing functions (V6, V7) -/

theorem test_sig : (runSig tc1 2 { State.reset with w := 0x12345678 }).w = 0xE7FCE6EE ∧
    (runSig tc1 0 { State.reset with w := 1 }).w = 0x40080400 := by decide +kernel

theorem test_isig : (runIsig tc1 2 { State.reset with w := 1 }).w = 0x5215FB9A := by decide +kernel

/-- The map `x ^ (x >> 1)` of V7: the inverse sends `e_3` to `0000000F`. -/
theorem test_linv : ((runLinv { State.reset with fb := Vector.ofFn fun i => unitWord i.val ^^^ (unitWord i.val >>> 1) }).ib.map
    fun g => (g[0], g[3])) = some (0x00000001, 0x0000000F) := by decide +kernel

theorem test_linv_singular : (runLinv State.reset).err = 6 ∧ (runLinv State.reset).ib = none := by decide +kernel

/-! ## Stages (V13 row 1, V14) -/

theorem test_st1 : (runSt1 (derived [0x68, 0x65, 0x6c, 0x6c, 0x6f]
    { CipherState.empty with addx := some [0x3C6EF372, 0x3D6FF473] })).mem.buf = [0xda, 0x58, 0xda, 0xa8, 0xe2] := by
  decide +kernel

theorem test_ist1 : (runIst1 (derived [0xda, 0x58, 0xda, 0xa8, 0xe2]
    { CipherState.empty with addx := some [0x3C6EF372, 0x3D6FF473] })).mem.buf = [0x68, 0x65, 0x6c, 0x6c, 0x6f] := by
  decide +kernel

theorem test_st1_missing : (runSt1 State.reset).err = 5 ∧ (runSt1 State.reset).errInfo = 0x02 := by decide

theorem test_st2 : (runSt2 tc1 (derived [0xda, 0x58, 0xda, 0xa8, 0xe2]
    { CipherState.empty with csel := some 1, ssel := some 2 })).mem.buf = [0xbd, 0xd4, 0xd5, 0x3a, 0xe2] := by
  decide +kernel

theorem test_ist2 : (runIst2 tc1 (derived [0xbd, 0xd4, 0xd5, 0x3a, 0xe2]
    { CipherState.empty with csel := some 1, ssel := some 2 })).mem.buf = [0xda, 0x58, 0xda, 0xa8, 0xe2] := by
  decide +kernel

theorem test_st2_missing : (runSt2 tc1 (derived [] { CipherState.empty with ssel := some 2 })).errInfo = 0x01 := by decide

theorem test_st3 : (runSt3 tc1 (derived [0xbd, 0xd4, 0xd5, 0x3a, 0xe2]
    { CipherState.empty with tables := some table5, rounds := some ⟨0, 0, 0, 4⟩ })).mem.buf =
    [0x68, 0x21, 0xb6, 0x75, 0xae] := by decide +kernel

theorem test_ist3 : (runIst3 tc1 (derived [0x68, 0x21, 0xb6, 0x75, 0xae]
    { CipherState.empty with tables := some table5, rounds := some ⟨0, 0, 0, 4⟩ })).mem.buf =
    [0xbd, 0xd4, 0xd5, 0x3a, 0xe2] := by decide +kernel

theorem test_st3_missing : (runSt3 tc1 State.reset).errInfo = 0x28 := by decide

theorem test_st4 : (runSt4 tc1 (loaded [] [0x68, 0x21, 0xb6, 0x75, 0xae] [0x11, 0x22])).mem.buf =
    [0x68, 0x21, 0xb6, 0x75, 0xae, 0x11, 0x22, 0x02] := by decide

theorem test_st4_long : (runSt4 tc1 (loaded [] [] (List.replicate 256 0))).err = 7 ∧
    (runSt4 tc1 (loaded [] [] (List.replicate 256 0))).errInfo = 256 := by decide +kernel

theorem test_ist4 : (runIst4 (loaded [] [0xaa, 0xbb, 0x01] [])).mem.buf = [0xaa] ∧
    (runIst4 (loaded [] [0x00] [])).mem.buf = [] := by decide

theorem test_ist4_short : (runIst4 (loaded [] [0x01] [])).err = 2 ∧ (runIst4 (loaded [] [0x01] [])).errInfo = 1 := by decide

theorem test_st5 : (runSt5 (derived [0x68, 0x21, 0xb6, 0x75, 0xae, 0x11, 0x22, 0x02]
    { CipherState.empty with ks := some [0x6b, 0x65, 0x79, 0x20, 0xc6, 0x35, 0xd1, 0x02] })).mem.buf =
    [0x03, 0x44, 0xcf, 0x55, 0x68, 0x24, 0xf3, 0x00] := by decide

theorem test_st5_length : (runSt5 (derived [0x00] { CipherState.empty with ks := some [] })).errInfo = 0x200 := by decide

theorem test_ist5 (s : State) : exec .ist5 s = exec .st5 s := rfl

/-! ## Encrypt, decrypt, batch (V13, V14, V15) -/

theorem test_encrypt : encrypt tc1 [] key3 [0xaa] = .ok [0xc1, 0x64] := by
  simp only [encrypt, test_ssel, show key3 ≠ [] by decide, if_false]
  decide +kernel

/-- ENC and BENC with the row of V13 whose plaintext is empty. -/
theorem encryptWithin_tc1 : encryptWithin tc1 [] key3 [0xaa] = .ok [0xc1, 0x64] := by
  rw [encryptWithin, test_encrypt]; rfl

theorem test_enc : (runEnc tc1 (loaded key3 [] [0xaa])).mem.buf = [0xc1, 0x64] ∧
    (runEnc tc1 (loaded key3 [] [0xaa])).cipher = CipherState.empty := by
  have h : runEnc tc1 (loaded key3 [] [0xaa]) =
    (loaded key3 [] [0xaa]).clearCsv.commitBuf (encryptWithin tc1 [] key3 [0xaa]) := rfl
  rw [h, encryptWithin_tc1]; exact ⟨rfl, rfl⟩

theorem test_enc_empty_key : (runEnc tc1 (loaded [] [] (List.replicate 300 0))).err = 1 ∧
    (runEnc tc1 (loaded [] [] (List.replicate 300 0))).errInfo = 0 := by decide +kernel

/-- Every configuration decrypts the one byte `6b` to the empty plaintext (V14). -/
theorem test_decrypt (c : Config) : decrypt c [0x6b] key3 = .ok [] := by
  have h : invStage4 (stage5 (keystream key3 [(0x6b : Byte)].length) [0x6b]) = .ok [] := by decide
  unfold decrypt
  rw [if_neg (by decide), test_ssel]
  dsimp only
  rw [if_neg (by decide), h]
  refine congrArg Except.ok (List.length_eq_zero_iff.1 ?_)
  unfold decryptStages
  dsimp only
  rw [invStage1_length, invStage2, invStage2From_length, invStage3_length]; rfl

theorem test_dec : (runDec tc1 (loaded key3 [0x6b] [])).mem.buf = [] ∧
    (runDec tc1 (loaded key3 [0x6b] [])).err = 0 := by
  have h : runDec tc1 (loaded key3 [0x6b] []) =
    (loaded key3 [0x6b] []).clearCsv.commitBuf (decrypt tc1 [0x6b] key3) := rfl
  rw [h, test_decrypt]; exact ⟨rfl, rfl⟩

theorem test_dec_empty_buffer : (runDec tc1 (loaded key3 [] [])).err = 2 ∧
    (runDec tc1 (loaded key3 [] [])).errInfo = 0 := by
  have h : decrypt tc1 [] key3 = .error (invalidCiphertext 0) := by
    rw [decrypt, if_neg (by decide), test_ssel]; rfl
  have h' : runDec tc1 (loaded key3 [] []) = (loaded key3 [] []).clearCsv.commitBuf (decrypt tc1 [] key3) := rfl
  rw [h', h]; exact ⟨rfl, rfl⟩

/-- A table of two items, the second with an empty key. -/
def twoItems : State := { State.reset with items := [⟨key3, [], [0xaa], 0⟩, ⟨[], [0x01], [], 0⟩] }

/-- An item fails alone and keeps its data (V15). -/
theorem test_benc (mode : ExecMode) : (runBenc tc1 mode twoItems).items =
    [⟨key3, [0xc1, 0x64], [0xaa], 0⟩, ⟨[], [0x01], [], 1⟩] ∧ (runBenc tc1 mode twoItems).err = 8 ∧
    (runBenc tc1 mode twoItems).errInfo = 1 := by
  have h : twoItems.items.map (encryptItem tc1) = [⟨key3, [0xc1, 0x64], [0xaa], 0⟩, ⟨[], [0x01], [], 1⟩] := by
    simp only [twoItems, List.map, encryptItem]
    rw [encryptWithin_tc1]; rfl
  rw [runBenc, runBatch_pos _ _ _ (by decide), h]
  exact ⟨rfl, rfl, rfl⟩

theorem test_benc_block_zero : (runBenc tc1 .seq { State.reset with nblock := 0 }).err = 5 ∧
    (runBenc tc1 .seq { State.reset with nblock := 0 }).errInfo = 0x400 := by decide

theorem test_bdec (mode : ExecMode) :
    (runBdec tc1 mode { State.reset with items := [⟨key3, [0x6b], [], 1⟩] }).items = [⟨key3, [], [], 0⟩] ∧
    (runBdec tc1 mode { State.reset with items := [⟨key3, [0x6b], [], 1⟩] }).err = 0 := by
  have h : [Item.mk key3 [0x6b] [] 1].map (decryptItem tc1) = [⟨key3, [], [], 0⟩] := by
    simp only [List.map, decryptItem]
    rw [test_decrypt]; rfl
  rw [runBdec, runBatch_pos _ _ _ (by decide)]
  dsimp only
  rw [h]
  exact ⟨rfl, rfl⟩

/-! ## Witnesses: for each statement with hypotheses, a state and operands that meet them, clause by clause -/

theorem test_hyp_stepRuns :
    (State.reset.withFetchWord 32 1).pending = .issue 1 :: [] ∧ decode 1 = .ok .kf ∧
      (State.reset.withFetchWord 32 0).pending = .issue 0 :: [] ∧ (∀ i, decode 0 ≠ .ok i) := by
  refine ⟨rfl, by decide, rfl, ?_⟩
  intro i h
  rw [show decode 0 = .error .unknownOpcode by decide] at h
  cases h

/-- CSCLR meets the premises of every clause of the writers but that of the cipher state, which KF meets. -/
theorem test_hyp_writers :
    (∃ t, exec .csclr State.reset = .next t) ∧ (∃ t, exec .kf State.reset = .next t) ∧
      (∀ k, Instr.csclr ≠ .sig k ∧ Instr.csclr ≠ .isig k) ∧ Instr.csclr ≠ .spfin ∧
      (∀ m b, Instr.csclr.expand ≠ .hash m b) ∧ Instr.csclr ∉ [Instr.kf, .spabs, .spfin] ∧
      (∀ m b, Instr.csclr ≠ .spinit m b ∧ Instr.csclr.expand ≠ .hash m b) ∧
      Instr.csclr.expand ∉ [Instr.st1, .st2, .st3, .st4, .st5, .ist1, .ist2, .ist3, .ist4, .enc, .dec] ∧
      Instr.csclr ≠ .linv ∧ (∀ m, Instr.csclr ≠ .benc m ∧ Instr.csclr ≠ .bdec m) ∧
      Instr.kf ∉ [Instr.dcsel, .dcext, .dssel, .dtgen, .dks, .drnd, .csclr, .enc, .dec] ∧
      (∀ m, Instr.kf ≠ .benc m ∧ Instr.kf ≠ .bdec m) := by
  refine ⟨⟨_, rfl⟩, ⟨_, rfl⟩, ?_, ?_, ?_, ?_, ?_, ?_, ?_, ?_, ?_, ?_⟩ <;> simp [Instr.expand]

/-- A state that runs KF next has the invariant and a next state. -/
theorem test_hyp_invariant :
    (State.reset.withFetchWord 32 1).Inv Config.impl ∧ ∃ t, step (State.reset.withFetchWord 32 1) = .next t := by
  refine ⟨⟨⟨by decide, ?_, ?_⟩, wf_reset _, ?_, ⟨?_, ?_, ?_, ?_, ?_, ?_, ?_⟩, ?_, by decide, ?_, within_zero _, ?_, ?_⟩,
    runKf { State.reset with pending := [], reply := none }, rfl⟩
  · intro h; exact absurd rfl h
  · intro h; cases h
  · show fitsWidth Config.impl .len 0 = true
    unfold fitsWidth
    dsimp only
    split
    · rfl
    · exact decide_eq_true (Nat.two_pow_pos _)
  · intro h; exact absurd rfl h
  all_goals first | (intro _ h; cases h) | (intro _; rfl)

theorem test_hyp_xorByte : (0 : Nat) < 200 ∧ (199 : Nat) < 200 := by decide

/-- Position 0 of a block of three bytes; with two further bytes the block fills with the next one, with one it does not. -/
theorem test_hyp_absorb : (0 : Nat) < 3 ∧ 0 + [(1 : Byte)].length < 3 ∧ 0 + [(1 : Byte), 2].length + 1 = 3 ∧
    (2 : Nat) < 3 ∧ 2 + ([] : Bytes).length + 1 = 3 := by decide

theorem test_hyp_pad (l : SecLevel) : 0 < l.rate ∧ l.rate - 1 < l.rate := by cases l <;> decide

theorem test_hyp_squeeze (l : SecLevel) : 0 ≤ l.rate ∧ l.rate ≤ l.rate ∧ 0 < 1 := ⟨by omega, le_refl _, by decide⟩

theorem test_hyp_spinit : 5 ≤ (5 : Byte).toNat ∧ 5 ≤ (255 : Byte).toNat ∧
    ¬(5 ≤ (4 : Byte).toNat ∨ (SpongeMode.xof = .fixed ∧ (4 : Byte) = 0)) ∧
    ¬(5 ≤ (0 : Byte).toNat ∨ (SpongeMode.xof = .fixed ∧ (0 : Byte) = 0)) := by decide

theorem test_hyp_spabs : (runSpinit .fixed 2 State.reset).sponge.phase = .absorbing ∧
    State.reset.sponge.phase ≠ .absorbing := by decide

/-- The least and the greatest rejected code, the rejected level 128 of FIXED, and the least and greatest level. -/
theorem test_hyp_hash : 5 ≤ (5 : Byte).toNat ∧ 5 ≤ (255 : Byte).toNat ∧ (SpongeMode.fixed = .fixed ∧ (0 : Byte) = 0) ∧
    (SecLevel.sec128.code = (0 : Byte).toNat ∧ ¬(SpongeMode.xof = .fixed ∧ (0 : Byte) = 0) ∧
      State.reset.len = if SpongeMode.xof = .fixed then 128 / 8 else State.reset.len) ∧
    (SecLevel.sec224.code = (1 : Byte).toNat ∧ ¬(SpongeMode.fixed = .fixed ∧ (1 : Byte) = 0) ∧
      28 = if SpongeMode.fixed = .fixed then SecLevel.sec224.bits / 8 else State.reset.len) ∧
    (SecLevel.sec512.code = (4 : Byte).toNat ∧ ¬(SpongeMode.fixed = .fixed ∧ (4 : Byte) = 0) ∧
      64 = if SpongeMode.fixed = .fixed then SecLevel.sec512.bits / 8 else State.reset.len) := by decide

theorem test_hyp_pseudo : (Instr.ist5, Instr.st5, 0x00000024#32) ∈ [(Instr.ist5, Instr.st5, 0x00000024#32),
    (.sha3_224, .hash .fixed 1, 0x00010005#32), (.sha3_256, .hash .fixed 2, 0x00020005#32),
    (.sha3_384, .hash .fixed 3, 0x00030005#32), (.sha3_512, .hash .fixed 4, 0x00040005#32),
    (.shake128, .hash .xof 0, 0x00000105#32), (.shake256, .hash .xof 2, 0x00020105#32)] := by decide

theorem test_hyp_hashSpellings : (Instr.sha3_224, SpongeMode.fixed, SecLevel.sec224) ∈ [(Instr.sha3_224, SpongeMode.fixed,
    SecLevel.sec224), (.sha3_256, .fixed, .sec256), (.sha3_384, .fixed, .sec384), (.sha3_512, .fixed, .sec512),
    (.shake128, .xof, .sec128), (.shake256, .xof, .sec256)] := by decide

/-- A supported level whose one-shot hash succeeds. -/
theorem test_hyp_chunked : (supportedLevel .xof 0).isSome = true ∧
    (runHash tc1 .xof 0 { State.reset with mem := { State.reset.mem with msg := ([[], []] : List Bytes).flatten } }).err =
      0 := by decide +kernel

theorem test_hyp_keys : (loaded [] [] []).mem.key = [] ∧ (loaded key3 [] []).mem.key ≠ [] ∧
    Instr.dcsel ∈ [Instr.dcsel, .dcext, .dssel, .dtgen, .dks, .drnd] ∧ Instr.enc ∈ [Instr.enc, .dec] := by decide

/-- A base set of 32 words, a target it already reaches, and one that takes an append. -/
theorem test_hyp_cext : (List.replicate 32 (0 : Word)).length = 32 ∧
    ∃ m, 0 < m ∧ (cext (List.replicate 32 0) 129).length = 32 + 8 * m ∧
    (cext (List.replicate 32 (0 : Word)) 128).length = 32 := by
  obtain ⟨n, h1, h2, -⟩ := cext_eq (List.replicate 32 0) 129
  obtain ⟨k, h3, -, h4⟩ := cext_eq (List.replicate 32 0) 128
  rw [h1, h3, extendTimes_length, extendTimes_length]
  simp only [List.length_replicate] at h2 h4 ⊢
  refine ⟨by decide, n, by omega, rfl, ?_⟩
  have : k = 0 := by
    rcases Nat.eq_zero_or_pos k with h | h
    · exact h
    · exact absurd (h4 0 h) (by omega)
  omega

theorem test_hyp_nkey : List.replicate 1 (7 : Byte) ≠ [] ∧ (List.replicate 1 (7 : Byte)).length < 256 ∧
    (List.replicate 255 (7 : Byte)).length < 256 ∧ (List.replicate 256 (7 : Byte)).length = 256 ∧
    256 < (List.replicate 257 (7 : Byte)).length := by
  simp only [List.length_replicate]; decide

theorem test_hyp_keystream : key3 ≠ [] ∧ 0 ≤ key3.length ∧ 3 ≤ key3.length ∧ 3 ≤ 4 := by decide

theorem test_hyp_primes : (137 : Nat) ≤ 137 ∧ (2 ∈ primeSet .truePrimes 2) ∧ 138 ∈ primeSet .referenceLiteral 138 := by
  decide

theorem test_hyp_integers : (0 : Nat) < 2 ^ 0 ∧ (255 : Nat) < 2 ^ 8 ∧ popNat 255 = 8 ∧ (1 : Nat) ≤ 1 ∧ isqrt 8 = 2 ∧ isqrt 9 = 3 ∧ clog2 8 = 3 ∧ clog2 9 = 4 := by decide

/-- The zero map is singular; the identity map is not. -/
theorem test_hyp_linv : (∃ x : Word, x ≠ 0 ∧ xorOverBits State.reset.fb x = 0) ∧
    ∀ x : Word, xorOverBits (Vector.ofFn fun i => unitWord i.val) x = 0 → x = 0 := by
  refine ⟨⟨1, by decide, by decide +kernel⟩, ?_⟩
  have h : ∀ x : Word, xorOverBits (Vector.ofFn fun i => unitWord i.val) x = x := by
    intro x
    induction x using word_induction with
    | h0 => exact xorOverBits_zero _
    | hu i => rw [xorOverBits_unit]; simp
    | hx x y h1 h2 => rw [xorOverBits_xor, h1, h2]
  intro x hx
  rw [← h x, hx]

theorem test_hyp_stages : (Instr.st1, 0x02#6) ∈ [(Instr.st1, 0x02#6), (.ist1, 0x02#6), (.st2, 0x05#6), (.ist2, 0x05#6),
      (.st3, 0x28#6), (.ist3, 0x28#6), (.st5, 0x10#6), (.ist5, 0x10#6)] ∧
    0x02#6 &&& ~~~State.reset.cipher.csv ≠ 0 ∧ 0x05#6 &&& ~~~State.reset.cipher.csv ≠ 0 ∧
    0x28#6 &&& ~~~State.reset.cipher.csv ≠ 0 ∧ 0x10#6 &&& ~~~State.reset.cipher.csv ≠ 0 := by decide

/-- Every cipher-state register holds a value. -/
def full : State := derived [1, 2, 3, 4, 5]
  ⟨some 1, some (List.replicate 32 7), some 2, some table5, some [9, 9, 9, 9, 9], some ⟨0, 0, 0, 4⟩⟩

theorem test_hyp_stage1 : full.cipher.addx = some (List.replicate 32 7) ∧ 32 ≤ (List.replicate 32 (7 : Word)).length ∧
    0 < full.mem.buf.length ∧ 4 < full.mem.buf.length := by decide

/-- One whole group and one trailing byte. -/
theorem test_hyp_stage2 : full.cipher.csel = some 1 ∧ full.cipher.ssel = some 2 ∧ 0 < full.mem.buf.length / 4 ∧
    0 < full.mem.buf.length % 4 := by decide

theorem test_hyp_stage3 : full.cipher.rounds = some ⟨0, 0, 0, 4⟩ ∧ full.cipher.tables = some table5 ∧
    0 < full.mem.buf.length := ⟨rfl, rfl, by decide⟩

/-- An extension one byte too long; a buffer one byte too full; one that fits exactly, with 255 bytes of extension. -/
theorem test_hyp_stage4 : 255 < (loaded [] [] (List.replicate 256 0)).mem.ext.length ∧
    ((loaded [] [7] (List.replicate 255 0)).mem.ext.length ≤ 255 ∧ small.bufMax = some 256 ∧
      256 < (loaded [] [7] (List.replicate 255 0)).mem.buf.length + 255 + 1) ∧
    (∀ m, small.bufMax = some m → (loaded [] [] (List.replicate 255 0)).mem.buf.length +
      (loaded [] [] (List.replicate 255 0)).mem.ext.length + 1 ≤ m) := by
  refine ⟨by decide +kernel, ⟨by decide +kernel, rfl, by decide⟩, ?_⟩
  intro m h
  cases h
  decide +kernel

theorem test_hyp_inverseStage4 : State.reset.mem.buf = [] ∧ ([] : Bytes).length < (1 : Byte).toNat ∧
    (loaded [] [1] []).mem.buf = [] ++ [1] ∧ (0 : Byte).toNat ≤ ([] : Bytes).length ∧
    (loaded [] [0] []).mem.buf = [] ++ [0] := by decide

theorem test_hyp_stage5 : full.cipher.ks = some [9, 9, 9, 9, 9] ∧ Instr.ist5 ∈ [Instr.st5, .ist5] ∧
    [(9 : Byte), 9, 9, 9, 9].length = full.mem.buf.length ∧ State.reset.cipher.ks = none ∧
    { full with mem := Memory.empty }.cipher.ks = some [9, 9, 9, 9, 9] ∧
    [(9 : Byte), 9, 9, 9, 9].length ≠ { full with mem := Memory.empty }.mem.buf.length := by
  decide

theorem test_hyp_inverseStages : (List.replicate 255 (0 : Byte)).length ≤ 255 ∧ ([1] : Bytes).length = ([2] : Bytes).length := by
  decide +kernel

/-- Encryption succeeds: the premise of the round trip and of the draw's influence. -/
theorem test_hyp_encrypt : encrypt tc1 [] key3 [0xaa] = .ok [0xc1, 0x64] ∧ [(0xaa : Byte)].length = [(0xaa : Byte)].length :=
  ⟨test_encrypt, rfl⟩

theorem test_hyp_encStages : (runEnc tc1 (loaded key3 [] [0xaa])).err = 0 := by
  have h : runEnc tc1 (loaded key3 [] [0xaa]) =
    (loaded key3 [] [0xaa]).clearCsv.commitBuf (encryptWithin tc1 [] key3 [0xaa]) := rfl
  rw [h, encryptWithin_tc1]; rfl

theorem test_hyp_decStages : (runDec tc1 (loaded key3 [0x6b] [])).err = 0 := test_dec.2

/-- Block size 1, the least, and 2 with three items: the last worker is shorter. -/
theorem test_hyp_workers : 1 ≤ 1 ∧ (workers 2 3)[0]? = some [0, 1] ∧ 0 + 1 < (workers 2 3).length ∧
    (workers 2 3)[1]? = some [2] := by decide

/-- Block sizes 0 and 1; a table without a failing item and one whose item 1 fails first. -/
theorem test_hyp_batch (mode : ExecMode) :
    (Instr.benc mode, fun it : Item => encryptWithin Config.impl it.data it.key it.ext) ∈
      [(Instr.benc mode, fun it : Item => encryptWithin Config.impl it.data it.key it.ext),
        (.bdec mode, fun it => decrypt Config.impl it.data it.key)] ∧
    { State.reset with nblock := 0 }.nblock = 0 ∧ State.reset.nblock ≠ 0 ∧
    (∀ it ∈ State.reset.items.map (encryptItem Config.impl), it.err = 0) ∧
    ((decryptItem Config.impl ⟨key3, [0x6b], [], 0⟩).err = 0 ∧ (decryptItem Config.impl ⟨[], [], [], 0⟩).err ≠ 0) := by
  refine ⟨by simp, rfl, by decide, by simp [State.reset], ?_, ?_⟩
  · rw [decryptItem, test_decrypt]; rfl
  · change (1 : Byte) ≠ 0; decide

/-- A batch that succeeds under the implementation's configuration, whatever it is: no plaintext and no draw. -/
theorem test_hyp_batchRestores : ∃ t, exec (.benc .thr) { State.reset with items := [⟨key3, [], [], 0⟩] } = .next t ∧
    t.err = 0 ∧ 1 ≤ 1 := by
  refine ⟨_, rfl, ?_, le_refl _⟩
  have hok : ∃ ct, encryptWithin Config.impl [] key3 [] = .ok ct := by
    have h : encrypt Config.impl [] key3 [] = .ok (encryptStages Config.impl 2 key3 [] []) := by
      rw [encrypt, if_neg (by decide), test_ssel]; rfl
    have hl := encryptStages_length Config.impl 2 key3 [] []
    refine ⟨encryptStages Config.impl 2 key3 [] [], ?_⟩
    rw [encryptWithin, h]
    dsimp only
    rw [if_pos]
    rw [hl]
    cases hb : Config.impl.bufMax with
    | none => rfl
    | some m => have := Config.impl.bufMax_ge m hb; exact decide_eq_true (by simp; omega)
  obtain ⟨ct, hct⟩ := hok
  have h : [Item.mk key3 [] [] 0].map (encryptItem Config.impl) = [⟨key3, ct, [], 0⟩] := by
    simp only [List.map, encryptItem]
    rw [hct]; rfl
  rw [runBenc, runBatch_pos _ _ _ (by decide)]
  dsimp only
  rw [h]
  rfl

/-- Every capacity at its greatest accepted value (`small`), and a list of operations. -/
theorem test_hyp_hostWrites : { State.reset with pending := [.reset] }.pending = .reset :: [] ∧
    within small.keyMax (List.replicate 3 (0 : Byte)).length = true ∧
    within small.bufMax (List.replicate 256 (0 : Byte)).length = true ∧
    within small.msgMax (List.replicate 2 (0 : Byte)).length = true ∧
    (∀ n, small.lenBits = some n → 15 < 2 ^ n) ∧ within small.nitemsMax [(key3, key3, key3)].length = true ∧
    (∀ it ∈ [(key3, key3, key3)], itemFits small it = true) := by
  refine ⟨rfl, by decide +kernel, by decide +kernel, by decide +kernel, ?_, by decide, by decide⟩
  intro n h
  cases h
  decide

/-- Reads of a buffer, of its last byte, of a register and of an array element that holds a value. -/
theorem test_hyp_hostReads :
    { full with pending := [.read .buf] }.pending = .read .buf :: [] ∧
    ({ full with pending := [.readByte .buf 4] }.pending = .readByte .buf 4 :: [] ∧ (full.mem.get .buf)[4]? = some 5) ∧
    ({ full with pending := [.getReg 13] }.pending = .getReg 13 :: [] ∧ getReg full 13 = some 1) ∧
    ({ full with pending := [.getArr .addx 31] }.pending = .getArr .addx 31 :: [] ∧
      getArr Config.impl full .addx 31 = some (.number 7)) ∧
    (full.cipher.tables = some table5 ∧ (List.replicate 32 (7 : Word))[31]? = some 7 ∧
      full.cipher.ks = some [9, 9, 9, 9, 9] ∧ [(9 : Byte), 9, 9, 9, 9][4]? = some 9) ∧
    { State.reset with ib := some (Vector.replicate 32 1) }.ib = some (Vector.replicate 32 1) ∧
    { State.reset with items := [⟨[1], [2], [3], 7⟩] }.items[0]? = some ⟨[1], [2], [3], 7⟩ := by
  refine ⟨rfl, ⟨rfl, by decide⟩, ⟨rfl, by decide⟩, ⟨rfl, rfl⟩, ⟨rfl, rfl, rfl, rfl⟩, rfl, rfl⟩

/-- First and last entry of `RC` and `RHO` (40_sponge.md R91, R92), and one past the last. -/
theorem test_hostTables :
    getArr tc1 State.reset .rc 0 = some (.number 1) ∧ getArr tc1 State.reset .rc 23 = some (.number 0x8000000080008008) ∧
    hostGetArr tc1 .rc 24 State.reset = .refused .elementHoldsNoValue ∧
    getArr tc1 State.reset .rho 1 = some (.number 1) ∧ getArr tc1 State.reset .rho 24 = some (.number 14) ∧
    hostGetArr tc1 .rho 25 State.reset = .refused .elementHoldsNoValue := ⟨rfl, rfl, rfl, rfl, rfl, rfl⟩

/-- 20_memory.md R52 by hand: two bytes in the middle, the last byte, one past the end, and a wrong number of bytes. -/
theorem test_memWrite :
    (memWrite full.mem .buf 1 2 [8, 9]).map (fun m => m.buf) = some [1, 8, 9, 4, 5] ∧
    (memWrite full.mem .buf 4 1 [8]).map (fun m => m.buf) = some [1, 2, 3, 4, 8] ∧
    memWrite full.mem .buf 5 1 [8] = none ∧ memWrite full.mem .buf 1 2 [8] = none := by decide

/-- Each refusal one past the boundary of `small` or of a reset register. -/
theorem test_hostRefusals :
    hostLoad small .key [0, 0, 0, 0] State.reset = .refused .loadExceedsCapacity ∧
    hostReadByte .buf 5 full = .refused .readBeyondLength ∧
    hostSetReg small .len 16 State.reset = .refused .valueExceedsWidth ∧
    hostSetReg small .w (2 ^ 32) State.reset = .refused .valueExceedsWidth ∧
    hostGetReg 13 State.reset = .refused .registerHoldsNoValue ∧
    hostGetArr tc1 .ib 0 State.reset = .refused .elementHoldsNoValue ∧
    hostGetArr tc1 .ks 5 full = .refused .elementHoldsNoValue ∧
    hostGetArr tc1 (.mixc 3) 32 full = .refused .elementHoldsNoValue ∧
    hostGetArr tc1 .ierr 0 State.reset = .refused .elementHoldsNoValue ∧
    hostLoadItems small [([], [], []), ([], [], [])] State.reset = .refused .itemsExceedCapacity := by
  refine ⟨?_, ?_, ?_, ?_, ?_, ?_, ?_, ?_, ?_, ?_⟩ <;> rfl

end Sys2Proof.Tests
end

