-- ==== Sys2Proof/Proofs/BasisTables.lean ====
section
/-!
The basis tables `INVB` (10_state.md R31): what the inverter gives holds the only preimages of the unit vectors, and
`INVB[k]` is what it gives for the columns of `sigma_k`.
-/

namespace Sys2Proof.Machine

/-- Where the inverter succeeds, its word `i` is the one and only word that the map sends to `e_i`
(41_constants_sigma.md R134). -/
theorem xorOverBits_eq_unitWord_iff {f g : Vector Word 32} (h : lininv f = some g) (i : Fin 32) (v : Word) :
    xorOverBits f v = unitWord i.val ↔ v = g[i] := by
  constructor
  · intro hv
    calc v = xorOverBits g (xorOverBits f v) := (xorOverBits_leftInverse h v).symm
      _ = xorOverBits g (unitWord i.val) := by rw [hv]
      _ = g[i] := xorOverBits_unit g i
  · rintro rfl
    exact lininv_some h i

/-- `INVB[k][i]` is the unique word that `sigma_k` sends to `e_i` (10_state.md R31). -/
theorem sigma_eq_unitWord_iff (c : Config) (k : Tag) (i : Fin 32) (v : Word) :
    sigma c k v = unitWord i.val ↔ v = (invb c k)[i] := by
  rw [← sigma_columns]
  exact xorOverBits_eq_unitWord_iff (lininv_sigmaColumns c k) i v

/-- Settles O36: `sigma_k` is the map of its columns, and the inverter's table for them holds the unique preimages of
the unit vectors. -/
theorem basisTablesInvertSigma : Obligations.BasisTablesInvertSigma := fun c k =>
  ⟨sigma_eq_unitWord_iff c k, lininv_sigmaColumns c k⟩

end Sys2Proof.Machine
end

