-- ==== Sys2Proof/Proofs/ResetValues.lean ====
section
/-!
The state after reset as the host reads it (10_state.md R39).
-/

namespace Sys2Proof.Machine

/-- Every lane of `A` is 0 after reset. -/
theorem reset_lane (i : Fin 25) : Sponge.reset.lanes[i] = 0 := Vector.getElem_replicate i.isLt

/-- Fixed mode, level 128, IDLE and position 0 all have the code 0 (10_state.md R35). -/
theorem reset_packed : Sponge.reset.packed = 0 := rfl

/-- Every buffer of the empty memory has no byte. -/
@[simp] theorem empty_get (b : BufName) : Memory.empty.get b = [] := by cases b <;> rfl

/-- `ADDXLEN` reads 0 where `ADDX` holds no value (10_state.md R39). -/
theorem getReg_addxLen_of_none {s : State} (h : s.cipher.addx = none) : getReg s 10 = some 0 := by
  change some (lengthOr0 s.cipher.addx) = some 0
  rw [h, lengthOr0]

/-- `KSLEN` reads 0 where `KS` holds no value (10_state.md R39). -/
theorem getReg_ksLen_of_none {s : State} (h : s.cipher.ks = none) : getReg s 11 = some 0 := by
  change some (lengthOr0 s.cipher.ks) = some 0
  rw [h, lengthOr0]

/-- Every word of `FB` is 0 after reset. -/
theorem reset_fb (i : Fin 32) : State.reset.fb[i] = 0 := Vector.getElem_replicate i.isLt

/-- Settles O6, row by row of the table of 10_state.md R39; a row without a lemma of its own is a field that
`State.reset` sets to the value stated. -/
theorem resetLeavesTheStatedValues : Obligations.ResetLeavesTheStatedValues :=
  have hlen : State.reset.len = 0 := rfl
  have hw : State.reset.w = 0 := rfl
  have hvIB : State.reset.vIB = false := rfl
  have herr : State.reset.err = 0 := rfl
  have herrInfo : State.reset.errInfo = 0 := rfl
  have hnblock : State.reset.nblock = 1 := rfl
  have hitems : State.reset.items = [] := rfl
  ⟨reset_lane, reset_packed, empty_get, hlen, hw, empty_csv, getReg_addxLen_of_none rfl, getReg_ksLen_of_none rfl,
    reset_fb, hvIB, herr, herrInfo, hnblock, hitems⟩

end Sys2Proof.Machine
end

