-- ==== Sys2Proof/Proofs/IllegalWords.lean ====
section
/-!
The illegal words (30_encoding.md R74). An opcode of the map fixes the format of its command, so a word is illegal
exactly where its opcode is unknown, its top byte is not 0, or its format rejects its arguments.
-/

namespace Sys2Proof

/-- The format of each opcode of 30_encoding.md R73, and the rejection of every other opcode. -/
theorem decodeFields_format (op a b : Byte) :
    (op.toNat ∈ [0x01, 0x03, 0x04, 0x10, 0x11, 0x12, 0x13, 0x14, 0x15, 0x16, 0x1A, 0x20, 0x21, 0x22, 0x23, 0x24, 0x28,
        0x29, 0x2A, 0x2B, 0x30, 0x31] ∧ ∃ i, decodeFields op a b = formatN a b i) ∨
      (op.toNat ∈ [0x02, 0x05] ∧ ∃ mk, decodeFields op a b = withArgument (decodeMode a) mk) ∨
      (op.toNat ∈ [0x18, 0x19] ∧ ∃ mk, decodeFields op a b = formatA b (decodeTag a) mk) ∨
      (op.toNat ∈ [0x32, 0x33] ∧ ∃ mk, decodeFields op a b = formatA b (decodeExec a) mk) ∨
      (op.toNat ∉ [0x01, 0x02, 0x03, 0x04, 0x05, 0x10, 0x11, 0x12, 0x13, 0x14, 0x15, 0x16, 0x18, 0x19, 0x1A, 0x20,
        0x21, 0x22, 0x23, 0x24, 0x28, 0x29, 0x2A, 0x2B, 0x30, 0x31, 0x32, 0x33] ∧
        decodeFields op a b = .error .unknownOpcode) := by
  unfold decodeFields
  split
  -- SPINIT and HASH, then SIG and ISIG, then BENC and BDEC, then the words outside the map; all others have format N.
  case h_2 hop | h_5 hop => exact .inr (.inl ⟨by simp [hop], _, rfl⟩)
  case h_13 hop | h_14 hop => exact .inr (.inr (.inl ⟨by simp [hop], _, rfl⟩))
  case h_27 hop | h_28 hop => exact .inr (.inr (.inr (.inl ⟨by simp [hop], _, rfl⟩)))
  case h_29 => exact .inr (.inr (.inr (.inr ⟨by simp_all, rfl⟩)))
  all_goals next hop => exact .inl ⟨by simp [hop], _, rfl⟩

/-- What format N rejects (30_encoding.md R71). -/
theorem formatN_illegal {a b : Byte} {i : Instr} : (∀ j, formatN a b i ≠ .ok j) ↔ a ≠ 0 ∨ b ≠ 0 := by
  unfold formatN
  split
  next h => simp [h]
  next h => exact iff_of_true (by simp) (not_and_or.1 h)

/-- An argument is rejected where its decoder gives no value (30_encoding.md R72). -/
theorem withArgument_illegal {α : Type} {arg : Option α} {mk : α → Instr} :
    (∀ j, withArgument arg mk ≠ .ok j) ↔ arg = none := by
  cases arg <;> simp [withArgument_ok]

/-- What format A rejects (30_encoding.md R71). -/
theorem formatA_illegal {α : Type} {b : Byte} {arg : Option α} {mk : α → Instr} :
    (∀ j, formatA b arg mk ≠ .ok j) ↔ b ≠ 0 ∨ arg = none := by
  unfold formatA
  split
  next hb => simp [hb, withArgument_illegal]
  next hb => exact iff_of_true (by simp) (.inl hb)

/-- The values of a one-bit argument are 0 and 1. -/
theorem two_le_toNat_iff {a : Byte} : 2 ≤ a.toNat ↔ a ≠ 0 ∧ a ≠ 1 := by
  bv_omega

/-- The reserved values of `mode` (30_encoding.md R72). -/
theorem decodeMode_none {a : Byte} : decodeMode a = none ↔ 2 ≤ a.toNat := by
  simp [decodeMode, ite_eq_iff, two_le_toNat_iff]

/-- The reserved values of `exec` (30_encoding.md R72). -/
theorem decodeExec_none {a : Byte} : decodeExec a = none ↔ 2 ≤ a.toNat := by
  simp [decodeExec, ite_eq_iff, two_le_toNat_iff]

/-- The reserved values of `k` (30_encoding.md R72). -/
theorem decodeTag_none {a : Byte} : decodeTag a = none ↔ 4 ≤ a.toNat := by
  simp [decodeTag]

/-- Cases (a), (c), (d) and (e) of 30_encoding.md R74, on the opcode and the arguments. -/
def IllegalFields (op : Nat) (a b : Byte) : Prop :=
  op ∉ [0x01, 0x02, 0x03, 0x04, 0x05, 0x10, 0x11, 0x12, 0x13, 0x14, 0x15, 0x16, 0x18, 0x19, 0x1A, 0x20, 0x21, 0x22,
      0x23, 0x24, 0x28, 0x29, 0x2A, 0x2B, 0x30, 0x31, 0x32, 0x33] ∨
    (b ≠ 0 ∧ op ∉ [0x02, 0x05]) ∨
    (a ≠ 0 ∧ op ∉ [0x02, 0x05, 0x18, 0x19, 0x32, 0x33]) ∨
    (2 ≤ a.toNat ∧ op ∈ [0x02, 0x05, 0x32, 0x33]) ∨
    (4 ≤ a.toNat ∧ op ∈ [0x18, 0x19])

/-- The fields that no row of the opcode map accepts (30_encoding.md R73, R74): format by format, the other formats'
cases drop out for the opcode at hand. -/
theorem decodeFields_illegal_iff (op a b : Byte) :
    (∀ i, decodeFields op a b ≠ .ok i) ↔ IllegalFields op.toNat a b := by
  have hformat := decodeFields_format op a b
  unfold IllegalFields
  generalize op.toNat = n at hformat ⊢
  rcases hformat with ⟨hop, i, h⟩ | ⟨hop, mk, h⟩ | ⟨hop, mk, h⟩ | ⟨hop, mk, h⟩ | ⟨hop, h⟩
  · rw [h, formatN_illegal]
    fin_cases hop <;> simp [or_comm]
  · rw [h, withArgument_illegal, decodeMode_none]
    fin_cases hop <;> simp
  · rw [h, formatA_illegal, decodeTag_none]
    fin_cases hop <;> simp
  · rw [h, formatA_illegal, decodeExec_none]
    fin_cases hop <;> simp
  · simp [h, hop]

/-- A word is illegal where its top byte is not 0, or no row of the opcode map accepts its fields. -/
theorem decode_illegal_iff (cw : Word) : (∀ i, decode cw ≠ .ok i) ↔
    fieldZ cw ≠ 0 ∨ IllegalFields (fieldOp cw).toNat (fieldA cw) (fieldB cw) := by
  rw [← decodeFields_illegal_iff, decode]
  split
  next hz => simp [hz]
  next hz => exact iff_of_true (by simp) (.inl hz)

end Sys2Proof

namespace Sys2Proof.Machine

/-- Issuing an illegal word writes the status registers alone (60_exceptions.md R235). -/
theorem hostIssue_of_illegal {cw : Word} (h : ∀ i, decode cw ≠ .ok i) (s : State) :
    hostIssue cw s = .next { s with err := 4, errInfo := cw } := by
  cases hd : decode cw with
  | ok i => exact absurd hd (h i)
  | error e =>
    rw [hostIssue, hd]
    rfl

/-- Settles O2: the first clause is the rejecting branch of HostIssue; the second is the decoder's test of the top byte
followed by that of the fields, with the unknown opcode named first. -/
theorem illegalWordsAreCasesAToE : Obligations.IllegalWordsAreCasesAToE :=
  ⟨fun _ => hostIssue_of_illegal, fun cw => (decode_illegal_iff cw).trans or_left_comm⟩

end Sys2Proof.Machine
end

