-- ==== Sys2Proof/Proofs/PseudoInstructions.lean ====
section
/-!
The pseudo-instructions (30_encoding.md R78): every instruction encodes and acts as the command it expands to.
-/

namespace Sys2Proof.Machine

open Sys2Proof.Laws

/-- The decoder answers the command that the encoded instruction stands for (30_encoding.md R78, R79). -/
theorem decode_encode_eq_expand (i : Instr) : decode (encode i) = .ok i.expand := by
  cases i with
  | spinit mode sec => exact DecodesToExpansion.spinit mode sec
  | hash mode sec => exact DecodesToExpansion.hash mode sec
  | sig k => exact DecodesToExpansion.sig k
  | isig k => exact DecodesToExpansion.isig k
  | benc e => exact DecodesToExpansion.benc e
  | bdec e => exact DecodesToExpansion.bdec e
  | _ => exact decode_packWord _ _ _

/-- An instruction acts as the command it stands for (30_encoding.md R78). -/
theorem exec_expand (i : Instr) (s : State) : exec i s = exec i.expand s := by
  cases i <;> rfl

/-- Settles O3: each row of the table of 30_encoding.md R78 names the expansion and the encoding of its
pseudo-instruction. -/
theorem pseudoInstructionsAreOneCommand : Obligations.PseudoInstructionsAreOneCommand := by
  intro p hp
  have hrow : p.1.expand = p.2.1 ∧ encode p.1 = p.2.2 := by
    revert p
    decide
  obtain ⟨hexpand, hencode⟩ := hrow
  refine ⟨hencode, ?_, fun s => ?_⟩
  · rw [← hencode, decode_encode_eq_expand, hexpand]
  · rw [exec_expand, hexpand]

end Sys2Proof.Machine
end

