-- ==== Sys2Proof/Proofs/SpongeCommands.lean ====
section
/-!
KF, SPINIT and SPABS on the host-visible context (40_sponge.md R93, R95, R97): the word of each, and the state it
leaves in each of its cases.
-/

namespace Sys2Proof

/-- The value of a command word, field by field (30_encoding.md R70). -/
theorem packWord_toNat (op a b : Byte) :
    (packWord op a b).toNat = op.toNat + 256 * a.toNat + 65536 * b.toNat := by
  have hop := op.isLt
  have ha := a.isLt
  simp only [packWord, BitVec.toNat_append, BitVec.toNat_ofNat, Nat.zero_mod, Nat.zero_shiftLeft, Nat.zero_or]
  rw [← Nat.shiftLeft_add_eq_or_of_lt ha, ← Nat.shiftLeft_add_eq_or_of_lt hop]
  simp only [Nat.shiftLeft_eq]
  omega

/-- The field value of a mode as a number (30_encoding.md R72). -/
theorem SpongeMode.code_toNat (m : SpongeMode) : m.code.toNat = if m = .fixed then 0 else 1 := by
  cases m <;> rfl

end Sys2Proof

namespace Sys2Proof.Machine

/-- The word of SPINIT carries the mode in field `a` and the security code in field `b` (30_encoding.md R72, R73). -/
theorem encode_spinit_toNat (m : SpongeMode) (b : Byte) :
    (encode (.spinit m b)).toNat = 0x02 + 256 * (if m = .fixed then 0 else 1) + 65536 * b.toNat := by
  rw [encode, packWord_toNat, SpongeMode.code_toNat]
  rfl

/-- SPINIT of an unsupported pair raises UnsupportedDigestParameter with the command word (40_sponge.md R95). -/
theorem runSpinit_of_unsupported {m : SpongeMode} {b : Byte} (h : supportedLevel m b = none) (s : State) :
    runSpinit m b s = { s with err := 3, errInfo := encode (.spinit m b) } := by
  rw [runSpinit, spInit, h]
  exact commit_error s _

/-- SPINIT of a supported pair constructs the context (40_sponge.md R95). -/
theorem runSpinit_of_supported {m : SpongeMode} {b : Byte} {l : SecLevel} (h : supportedLevel m b = some l)
    (s : State) : runSpinit m b s = { s with sponge := ⟨zeroLanes, m, l, 0, .absorbing⟩, err := 0, errInfo := 0 } := by
  rw [runSpinit, spInit, h]
  exact commit_ok s _

/-- Settles O18: the level the pair of mode and code stands for decides between rejection and construction. -/
theorem spinitConstructsOrRejects : Obligations.SpinitConstructsOrRejects := by
  intro m b s
  refine ⟨encode_spinit_toNat m b, ?_⟩
  split
  next hbad =>
    have hnone : supportedLevel m b = none := supportedLevel_none.2 hbad
    exact congrArg Host.Outcome.next (runSpinit_of_unsupported hnone s)
  next hgood =>
    obtain ⟨l, hl⟩ : ∃ l, supportedLevel m b = some l :=
      Option.ne_none_iff_exists'.1 fun hnone => hgood (supportedLevel_none.1 hnone)
    obtain ⟨hcode, -⟩ := supportedLevel_some.1 hl
    exact ⟨l, hcode, congrArg Host.Outcome.next (runSpinit_of_supported hl s)⟩

/-- KF permutes the lanes and succeeds, whatever the phase (40_sponge.md R93). -/
theorem runKf_eq (s : State) :
    runKf s = { s with sponge := { s.sponge with lanes := keccakF s.sponge.lanes }, err := 0, errInfo := 0 } :=
  commit_ok s _

/-- Settles O17: KF has no case to tell apart. -/
theorem kfPermutesTheVisibleState : Obligations.KfPermutesTheVisibleState :=
  ⟨rfl, fun s => congrArg Host.Outcome.next (runKf_eq s)⟩

/-- SPABS absorbs `MSG` into an absorbing context (40_sponge.md R97). -/
theorem runSpabs_of_absorbing {s : State} (h : s.sponge.phase = .absorbing) :
    runSpabs s = { s with
      sponge := { s.sponge with
        lanes := (absorb s.sponge.sec.rate (s.sponge.lanes, s.sponge.pos) s.mem.msg).1
        pos := (absorb s.sponge.sec.rate (s.sponge.lanes, s.sponge.pos) s.mem.msg).2 }
      err := 0, errInfo := 0 } := by
  rw [runSpabs, spAbsorb, if_pos h]
  exact commit_ok s _

/-- SPABS outside ABSORBING raises SequenceError(0x100) (40_sponge.md R97). -/
theorem runSpabs_of_not_absorbing {s : State} (h : s.sponge.phase ≠ .absorbing) :
    runSpabs s = { s with err := 5, errInfo := 0x100 } := by
  rw [runSpabs, spAbsorb, if_neg h]
  exact commit_error s _

/-- Settles O19, phase by phase. -/
theorem spabsAbsorbsTheMessage : Obligations.SpabsAbsorbsTheMessage :=
  ⟨rfl, fun _ => ⟨fun h => congrArg Host.Outcome.next (runSpabs_of_absorbing h),
    fun h => congrArg Host.Outcome.next (runSpabs_of_not_absorbing h)⟩⟩

end Sys2Proof.Machine
end

