-- ==== Sys2Proof/Proofs/ConstantExtension.lean ====
section
/-!
The constant extension (41_constants_sigma.md R122): the base words and then one block of 8 digest words per append,
each block a function of all words before it.
-/

namespace Sys2Proof.Machine

/-- The sequence after `j` appends stands at the beginning of every later one. -/
theorem extendTimes_take {j m : Nat} (h : j ≤ m) (ws : List Word) :
    (extendTimes m ws).take (ws.length + 8 * j) = extendTimes j ws := by
  have hprefix : extendTimes j ws = (extendTimes m ws).take (extendTimes j ws).length :=
    List.prefix_iff_eq_take.1 (extendTimes_prefix j m ws h)
  rw [extendTimes_length] at hprefix
  exact hprefix.symm

/-- The last append is made of the digest of the whole sequence before it. -/
theorem extendTimes_succ (m : Nat) (ws : List Word) :
    extendTimes (m + 1) ws = extendTimes m ws ++ leWords (shake .sec256 (leBytes (extendTimes m ws)) 32) := by
  rw [extendTimes, Function.iterate_succ_apply']
  rfl

/-- The words that append `j` added are the digest of the words before them, however many appends follow. -/
theorem extendTimes_block {j m : Nat} (h : j < m) (ws : List Word) :
    ((extendTimes m ws).drop (ws.length + 8 * j)).take 8 =
      leWords (shake .sec256 (leBytes (extendTimes j ws)) 32) :=
  calc ((extendTimes m ws).drop (ws.length + 8 * j)).take 8
      = ((extendTimes m ws).take (ws.length + 8 * (j + 1))).drop (ws.length + 8 * j) := by
        rw [List.take_drop, Nat.mul_add, Nat.add_assoc]
    _ = (extendTimes (j + 1) ws).drop (ws.length + 8 * j) := by rw [extendTimes_take h]
    _ = leWords (shake .sec256 (leBytes (extendTimes j ws)) 32) := by
        rw [extendTimes_succ, List.drop_left' (extendTimes_length j ws)]

/-- Settles O27: the loop makes the least number of appends that reaches the target, and later appends leave the words
before them in place. -/
theorem cextAppendsDigestsUntilLongEnough : Obligations.CextAppendsDigestsUntilLongEnough := by
  intro base target hbase
  obtain ⟨m, hcext, hreach, hleast⟩ := cext_eq base target
  have hlength : (extendTimes m base).length = 32 + 8 * m := hbase ▸ extendTimes_length m base
  have htake : ∀ j ≤ m, (extendTimes m base).take (32 + 8 * j) = extendTimes j base := fun j hj =>
    hbase ▸ extendTimes_take hj base
  rw [hbase] at hreach hleast
  rw [hcext]
  refine ⟨m, hlength, hreach, hleast, htake 0 (Nat.zero_le m), fun j hj => ?_⟩
  rw [htake j hj.le]
  exact hbase ▸ extendTimes_block hj base

end Sys2Proof.Machine
end

