-- ==== Sys2Proof/Proofs/DerivationCommands.lean ====
section
/-!
The derivation commands (41_constants_sigma.md R121, R124, R127; 42_subst_keystream_rounds.md R157, R160, R166): what
each writes for a key that is not empty, and the one end they share for the empty key.
-/

namespace Sys2Proof.Machine

/-- On the empty key every derivation command raises InvalidKey(0) (60_exceptions.md R232). -/
theorem exec_derivation_of_empty_key {s : State} (h : s.mem.key = []) :
    ∀ i ∈ [Instr.dcsel, .dcext, .dssel, .dtgen, .dks, .drnd], exec i s = .next { s with err := 1, errInfo := 0 } := by
  intro i hi
  fin_cases hi <;> exact congrArg Host.Outcome.next (derive_empty_key s _ h)

/-- DCSEL writes the constant-set selector (41_constants_sigma.md R121). -/
theorem runDcsel_of_key {s : State} (h : s.mem.key ≠ []) :
    runDcsel s = { s with cipher := { s.cipher with csel := some (csel s.mem.key) }, err := 0, errInfo := 0 } :=
  derive_ok s _ h

/-- DCEXT writes the selector and the extension of the selected set (41_constants_sigma.md R124). -/
theorem runDcext_of_key (c : Config) {s : State} (h : s.mem.key ≠ []) :
    runDcext c s = { s with
      cipher := { s.cipher with
        csel := some (csel s.mem.key), addx := some (cext (addcSet c (csel s.mem.key)) s.len) }
      err := 0, errInfo := 0 } :=
  derive_ok s _ h

/-- DTGEN writes the normalised key and the transform table (42_subst_keystream_rounds.md R157). -/
theorem runDtgen_of_key (c : Config) {s : State} (h : s.mem.key ≠ []) :
    runDtgen c s = { s with cipher := { s.cipher with tables := some (tgen c s.mem.key) }, err := 0, errInfo := 0 } :=
  derive_ok s _ h

/-- DKS writes the keystream of `LEN` bytes (42_subst_keystream_rounds.md R160). -/
theorem runDks_of_key {s : State} (h : s.mem.key ≠ []) :
    runDks s = { s with cipher := { s.cipher with ks := some (keystream s.mem.key s.len) }, err := 0, errInfo := 0 } :=
  derive_ok s _ h

/-- DRND writes the round registers of the key (42_subst_keystream_rounds.md R166). -/
theorem runDrnd_of_key (c : Config) {s : State} (h : s.mem.key ≠ []) :
    runDrnd c s = { s with
      cipher := { s.cipher with rounds := some (roundRegs c s.mem.key) }
      err := 0, errInfo := 0 } :=
  derive_ok s _ h

/-- The bit count and the round count of a key determine its round registers (42_subst_keystream_rounds.md R161 to
R165). -/
theorem roundRegs_eq {c : Config} {key : Bytes} {bc rc : Nat} (hbc : bc = popNat (leNat key))
    (hrc : rc = ((primeSet c.primeRule (bc / 2)).map fun p => bc % p).sum) :
    roundRegs c key =
      { kint := leNat key, bitcnt := bc, rcount := rc, rounds := if rc = 0 then 1 else 1 + clog2 rc } := by
  subst hbc hrc
  rfl

/-- Settles O25, command by command. -/
theorem derivationCommandsWriteTheirGroups : Obligations.DerivationCommandsWriteTheirGroups := by
  refine ⟨rfl, rfl, rfl, rfl, rfl, fun s => ⟨fun hempty i hi => ?_, fun hkey => ?_⟩⟩
  · have hderivation : i ∈ [Instr.dcsel, .dcext, .dssel, .dtgen, .dks, .drnd] := by
      revert i
      decide
    exact exec_derivation_of_empty_key hempty i hderivation
  · have hdcsel := runDcsel_of_key hkey
    have hdcext := runDcext_of_key Config.impl hkey
    have hdtgen := runDtgen_of_key Config.impl hkey
    have hdks := runDks_of_key hkey
    have hdrnd := runDrnd_of_key Config.impl hkey
    exact ⟨⟨csel s.mem.key, rfl, congrArg Host.Outcome.next hdcsel, congrArg Host.Outcome.next hdcext⟩,
      congrArg Host.Outcome.next hdtgen, keystream_length s.mem.key s.len, congrArg Host.Outcome.next hdks,
      _, _, roundRegs Config.impl s.mem.key, rfl, rfl, roundRegs_eq rfl rfl, congrArg Host.Outcome.next hdrnd⟩

/-- DSSEL writes the tag that the selector gives (41_constants_sigma.md R127). -/
theorem runDssel_of_tag {s : State} {k : Tag} (h : s.mem.key ≠ []) (hk : ssel s.mem.key = .ok k) :
    runDssel s = { s with cipher := { s.cipher with ssel := some k }, err := 0, errInfo := 0 } := by
  rw [runDssel, hk]
  exact derive_ok s _ h

/-- DSSEL raises the selector's error (41_constants_sigma.md R126, R127). -/
theorem runDssel_of_error {s : State} {e : CmdError} (h : s.mem.key ≠ []) (he : ssel s.mem.key = .error e) :
    runDssel s = { s with err := e.code.num, errInfo := e.info } := by
  rw [runDssel, he]
  exact derive_error s _ h

/-- Settles O26: the digest's set bits decide between the selector's error and its tag. -/
theorem dsselWritesTheTagOrRejectsTheKey : Obligations.DsselWritesTheTagOrRejectsTheKey := by
  refine ⟨rfl, fun s => ⟨fun hempty => exec_derivation_of_empty_key hempty .dssel (by simp), fun hkey => ?_⟩⟩
  obtain ⟨k, hval, hssel⟩ := ssel_cases s.mem.key
  refine ⟨popBytes (shake .sec128 s.mem.key 16), k, rfl, hval, congrArg Host.Outcome.next ?_⟩
  split at hssel
  next hzero =>
    rw [if_pos hzero]
    exact runDssel_of_error hkey hssel
  next hnonzero =>
    rw [if_neg hnonzero]
    exact runDssel_of_tag hkey hssel

end Sys2Proof.Machine
end

