-- ==== Sys2Proof/Proofs/MixingCommands.lean ====
section
/-!
SIG, ISIG and LINV (41_constants_sigma.md R129, R132, R135): the word of each and what it writes.
-/

namespace Sys2Proof

/-- The field value of a tag as a number (30_encoding.md R72). -/
theorem tagCode_toNat (k : Tag) : (tagCode k).toNat = k.val := by
  rw [tagCode, BitVec.toNat_ofNat]
  omega

end Sys2Proof

namespace Sys2Proof.Machine

/-- The word of SIG carries the tag in field `a` (30_encoding.md R73). -/
theorem encode_sig_toNat (k : Tag) : (encode (.sig k)).toNat = 0x18 + 256 * k.val := by
  rw [encode, packWord_toNat, tagCode_toNat]
  rfl

/-- The word of ISIG carries the tag in field `a` (30_encoding.md R73). -/
theorem encode_isig_toNat (k : Tag) : (encode (.isig k)).toNat = 0x19 + 256 * k.val := by
  rw [encode, packWord_toNat, tagCode_toNat]
  rfl

/-- SIG replaces `W` by its image (41_constants_sigma.md R129). -/
theorem runSig_eq (c : Config) (k : Tag) (s : State) :
    runSig c k s = { s with w := sigma c k s.w, err := 0, errInfo := 0 } :=
  commit_ok s _

/-- ISIG replaces `W` by its inverse image (41_constants_sigma.md R132). -/
theorem runIsig_eq (c : Config) (k : Tag) (s : State) :
    runIsig c k s = { s with w := isigma c k s.w, err := 0, errInfo := 0 } :=
  commit_ok s _

/-- Settles O34: SIG and ISIG have no case to tell apart. -/
theorem sigAndIsigReplaceW : Obligations.SigAndIsigReplaceW := fun k s =>
  ⟨encode_sig_toNat k, encode_isig_toNat k, congrArg Host.Outcome.next (runSig_eq Config.impl k s),
    congrArg Host.Outcome.next (runIsig_eq Config.impl k s)⟩

/-- The inverter gives nothing exactly where the columns are dependent: what it gives is a left inverse, which no map
with a non-zero word sent to 0 has (41_constants_sigma.md R134). -/
theorem lininv_eq_none_iff {f : Vector Word 32} : lininv f = none ↔ ∃ x, x ≠ 0 ∧ xorOverBits f x = 0 := by
  refine ⟨lininv_none, fun ⟨x, hx, h0⟩ => Option.eq_none_iff_forall_ne_some.2 fun g hg => hx ?_⟩
  calc x = xorOverBits g (xorOverBits f x) := (xorOverBits_leftInverse hg x).symm
    _ = xorOverBits g 0 := by rw [h0]
    _ = 0 := xorOverBits_zero g

/-- A LINV without an inverse raises SingularMap(0) and leaves `V_IB = 0` (60_exceptions.md R237). -/
theorem runLinv_of_none {s : State} (h : lininv s.fb = none) :
    runLinv s = { s with ib := none, err := 6, errInfo := 0 } := by
  rw [runLinv, h]
  exact commit_error _ _

/-- LINV writes the inverse's columns (41_constants_sigma.md R135). -/
theorem runLinv_of_some {s : State} {g : Vector Word 32} (h : lininv s.fb = some g) :
    runLinv s = { s with ib := some g, err := 0, errInfo := 0 } := by
  rw [runLinv, h]
  exact commit_ok _ _

/-- Settles O39: dependent columns are the case in which the inverter gives nothing; independent ones make it give the
words that the map sends to the unit vectors. -/
theorem linvWritesTheInverseOrIsSingular : Obligations.LinvWritesTheInverseOrIsSingular := by
  refine ⟨rfl, fun s => ⟨fun hdependent => ?_, fun hindependent => ?_⟩⟩
  · exact congrArg Host.Outcome.next (runLinv_of_none (lininv_eq_none_iff.2 hdependent))
  · obtain ⟨g, hg⟩ := lininv_isSome_of_injective hindependent
    exact ⟨g, congrArg Host.Outcome.next (runLinv_of_some hg), lininv_some hg⟩

end Sys2Proof.Machine
end

