-- ==== Sys2Proof/Proofs/KeyedTables.lean ====
section
/-!
CSCLR, the normalised key, the transform table and the prime set (42_subst_keystream_rounds.md R150 to R156, R163,
R167).
-/

namespace Sys2Proof.Machine

/-- CSCLR empties the cipher state and succeeds (42_subst_keystream_rounds.md R167). -/
theorem runCsclr_eq (s : State) : runCsclr s = { s with cipher := CipherState.empty, err := 0, errInfo := 0 } :=
  commit_ok s.clearCsv s.clearCsv

/-- Settles O33: the cipher state that CSCLR leaves is the empty one, whose valid bits are 0. -/
theorem csclrDiscardsTheCipherState : Obligations.CsclrDiscardsTheCipherState :=
  ⟨rfl, fun s => ⟨_, congrArg Host.Outcome.next (runCsclr_eq s), empty_csv, rfl⟩⟩

/-- A key of exactly 256 bytes is its own normalised key (42_subst_keystream_rounds.md R150). -/
theorem nkeyBytes_of_length_eq {key : Bytes} (h : key.length = 256) : nkeyBytes key = key := by
  simp [nkeyBytes, h]

/-- A shorter key is filled up with the byte that its last byte points at (42_subst_keystream_rounds.md R151). -/
theorem nkeyBytes_of_length_lt {key : Bytes} (hne : key ≠ []) (h : key.length < 256) :
    ∃ last f : Byte, key.getLast? = some last ∧ key[last.toNat % key.length]? = some f ∧
      nkeyBytes key = key ++ List.replicate (256 - key.length) f := by
  have hindex : (key.getLast hne).toNat % key.length < key.length := Nat.mod_lt _ (List.length_pos_of_ne_nil hne)
  have hlast : key.getD (key.length - 1) 0 = key.getLast hne := by
    rw [List.getD_eq_getElem?_getD, ← List.getLast?_eq_getElem?, List.getLast?_eq_some_getLast hne, Option.getD_some]
  refine ⟨key.getLast hne, key[(key.getLast hne).toNat % key.length], List.getLast?_eq_some_getLast hne,
    List.getElem?_eq_getElem hindex, ?_⟩
  rw [nkeyBytes, if_pos h, hlast, List.getD_eq_getElem _ _ hindex]

/-- The slice from block `i` to the next one is block `i` (00_scope.md R14). -/
theorem slice_block (s : Bytes) (i q : Nat) : slice s (i * q) ((i + 1) * q) = (s.drop (i * q)).take q := by
  rw [slice, Nat.succ_mul, Nat.add_sub_cancel_left]

/-- A longer key gives the digests of its four slices (42_subst_keystream_rounds.md R152). -/
theorem nkeyBytes_of_lt_length {key : Bytes} (h : 256 < key.length) :
    nkeyBytes key = ((List.range 4).map fun i =>
      shake .sec256 ((key.drop (i * (key.length / 4))).take (key.length / 4)) 64).flatten := by
  rw [nkeyBytes, if_neg h.not_gt, if_neg h.ne']
  simp [← slice_block, List.range_succ]

/-- Settles O28: the length of the key decides the branch of `nkey`; each gives 256 bytes, which the register holds. -/
theorem normalisedKeyByLength : Obligations.NormalisedKeyByLength := fun key hne =>
  ⟨bytes256_toList (nkeyBytes key) (nkeyBytes_length key), nkeyBytes_of_length_eq, nkeyBytes_of_length_lt hne,
    nkeyBytes_of_lt_length⟩

/-- An entry of a 256-byte register. -/
theorem bytes256_getElem (s : Bytes) {i : Nat} (h : i < 256) : (bytes256 s)[i] = s.getD i 0 :=
  Vector.getElem_ofFn h

/-- The shift value of `s` is the root of the squares of its shift vector (42_subst_keystream_rounds.md R154, R155). -/
theorem shiftAt_eq (c : Config) (nk : Vector Byte 256) (s : Byte) :
    shiftAt c nk s = BitVec.ofNat 8 (Nat.sqrt ((keyMatrix c nk 0 s).toNat ^ 2 + (keyMatrix c nk s 0).toNat ^ 2 +
      (keyMatrix c nk (keyMatrix c nk 0 s) (keyMatrix c nk s 0)).toNat ^ 2)) := by
  rw [shiftAt, shiftValue, isqrt_eq_sqrt, sq, sq, sq]

/-- The chain of the transform table starts at shift 0 (42_subst_keystream_rounds.md R156). -/
theorem tgen_table_zero (c : Config) (key : Bytes) : (tgen c key).table[0] = shiftAt c (nkey key) 0 :=
  bytes256_getElem (tableBytes c (nkey key)) (by decide)

/-- Each later entry is the shift value of the entry before it plus its own index
(42_subst_keystream_rounds.md R156). -/
theorem tableBytes_succ (c : Config) (nk : Vector Byte 256) {j : Nat} (hj : j < 255) :
    (tableBytes c nk).getD (j + 1) 0 = shiftAt c nk ((tableBytes c nk).getD j 0 + BitVec.ofNat 8 (j + 1)) := by
  rw [tableBytes, List.getD_cons_succ, chainFrom_get c nk 255 1 _ j hj, Nat.add_comm 1 j]

/-- The register holds the chain: each entry after the first comes from the one before it. -/
theorem tgen_table_succ (c : Config) (key : Bytes) (i : Fin 255) :
    (tgen c key).table[i.val + 1] =
      shiftAt c (nkey key) ((tgen c key).table[i.val] + BitVec.ofNat 8 (i.val + 1)) := by
  have hregister : ∀ j (hj : j < 256), (tgen c key).table[j] = (tableBytes c (nkey key)).getD j 0 :=
    fun j => bytes256_getElem (tableBytes c (nkey key))
  rw [hregister, hregister, tableBytes_succ c (nkey key) i.isLt]

/-- Settles O29: the table is the chain of shift values, and each shift value is read off the conceptual matrix. -/
theorem transformTableIsTheChain : Obligations.TransformTableIsTheChain := fun c key =>
  ⟨rfl, (tgen_table_zero c key).trans (shiftAt_eq c (nkey key) 0),
    fun i => (tgen_table_succ c key i).trans (shiftAt_eq c (nkey key) _)⟩

/-- Under `true_primes` the candidates are the primes up to the bound (42_subst_keystream_rounds.md R163). -/
theorem mem_primeSet_truePrimes {h p : Nat} : p ∈ primeSet .truePrimes h ↔ p.Prime ∧ p ≤ h := by
  rw [primeSet, List.mem_filter, List.mem_range, Nat.lt_succ_iff, isPrime_iff, and_comm]

/-- Under `reference_literal` every integer from 138 on is a candidate (42_subst_keystream_rounds.md R163). -/
theorem mem_primeSet_referenceLiteral {h p : Nat} :
    p ∈ primeSet .referenceLiteral h ↔ (p.Prime ∧ p ≤ min h 137) ∨ (138 ≤ p ∧ p ≤ h) := by
  rw [primeSet, List.mem_filter, List.mem_range, Nat.lt_succ_iff]
  dsimp only
  split
  next hp =>
    have hbelow : ¬ 138 ≤ p := by omega
    simp [isPrime_iff, hp, hbelow, and_comm]
  next hp =>
    have habove : 138 ≤ p := by omega
    simp [hp, habove]

/-- The candidates are listed in rising order, each once. -/
theorem primeSet_nodup (rule : PrimeRule) (h : Nat) : (primeSet rule h).Nodup :=
  List.nodup_range.filter _

/-- The two rules test the same numbers up to 137 in the same way. -/
theorem primeSet_eq_of_le {h : Nat} (hle : h ≤ 137) : primeSet .truePrimes h = primeSet .referenceLiteral h := by
  refine List.filter_congr fun p hp => ?_
  have hp137 : p ≤ 137 := (Nat.lt_succ_iff.1 (List.mem_range.1 hp)).trans hle
  exact (if_pos hp137).symm

/-- Settles O32, rule by rule. -/
theorem primeSetIsThePrimesUpToTheBound : Obligations.PrimeSetIsThePrimesUpToTheBound := fun h _ =>
  ⟨mem_primeSet_truePrimes, mem_primeSet_referenceLiteral, primeSet_nodup .truePrimes h,
    primeSet_nodup .referenceLiteral h, primeSet_eq_of_le⟩

end Sys2Proof.Machine
end

