-- ==== Sys2Proof/Proofs/ByteStages.lean ====
section
/-!
Stages 1 to 3 and their inverses (43_pipeline_stages.md R181 to R192): what a stage command leaves where its registers
hold their values, and where each byte of the result comes from.
-/

namespace Sys2Proof.Machine

/-- With `ADDX` valid a Stage 1 command replaces `BUF` and succeeds (43_pipeline_stages.md R182, R184). -/
theorem withAddx_of_some {s : State} {x : List Word} (h : s.cipher.addx = some x) (f : List Word → Bytes) :
    withAddx s f = { s with mem := { s.mem with buf := f x }, err := 0, errInfo := 0 } := by
  rw [withAddx, h]
  exact commitBuf_ok s (f x)

/-- With both selectors valid a Stage 2 command replaces `BUF` and succeeds (43_pipeline_stages.md R186, R188). -/
theorem withSelectors_of_some {s : State} {set k : Tag} (hset : s.cipher.csel = some set) (hk : s.cipher.ssel = some k)
    (f : Tag → Tag → Bytes) :
    withSelectors s f = { s with mem := { s.mem with buf := f set k }, err := 0, errInfo := 0 } := by
  rw [withSelectors, hset, hk]
  exact commitBuf_ok s (f set k)

/-- With `ROUNDS` and `T` valid a Stage 3 command replaces `BUF` and succeeds (43_pipeline_stages.md R190, R192). -/
theorem withRounds_of_some {s : State} {r : RoundRegs} {t : KeyTables} (hr : s.cipher.rounds = some r)
    (ht : s.cipher.tables = some t) (f : Nat → Vector Byte 256 → Bytes) :
    withRounds s f = { s with mem := { s.mem with buf := f r.rounds t.table }, err := 0, errInfo := 0 } := by
  rw [withRounds, hr, ht]
  exact commitBuf_ok s (f r.rounds t.table)

/-- The constant bytes repeat with the period `4|X|` (43_pipeline_stages.md R181). -/
theorem constantByte_eq (x : List Word) (i : Nat) : constantByte x i = (leBytes x).getD (i % (4 * x.length)) 0 := by
  rw [constantByte, leBytes_length]

/-- Settles O41: both directions read the constant bytes at the same index. -/
theorem stage1AddsTheConstantBytes : Obligations.Stage1AddsTheConstantBytes := by
  intro s x hx _
  refine ⟨leBytes_length x,
    ⟨stage1 x s.mem.buf, congrArg Host.Outcome.next (withAddx_of_some hx _), stage1_length x _, fun i hi => ?_⟩,
    ⟨invStage1 x s.mem.buf, congrArg Host.Outcome.next (withAddx_of_some hx _), invStage1_length x _, fun i hi => ?_⟩⟩
  · rw [stage1_getD x _ i hi, constantByte_eq]
  · rw [invStage1_getD x _ i hi, constantByte_eq]

/-- The mask of a trailing byte is the mixed constant cut to its low byte (43_pipeline_stages.md R185). -/
theorem trailMask_eq (c : Config) (set k : Tag) (i : Nat) :
    trailMask c set k i = (sigma c k (mixcAt c set i)).setWidth 8 :=
  (BitVec.setWidth_eq_extractLsb' (by decide)).symm

/-- A whole group of `S2` (43_pipeline_stages.md R185). -/
theorem stage2_group (c : Config) (set k : Tag) (b : Bytes) {j : Nat} (hj : j < b.length / 4) :
    ((stage2 c set k b).drop (4 * j)).take 4 = toLE32 (sigma c k
      (be32 (b.getD (4 * j) 0) (b.getD (4 * j + 1) 0) (b.getD (4 * j + 2) 0) (b.getD (4 * j + 3) 0) + mixcAt c set j)) := by
  have hgroup := (stage2From_get c set k 0 b).1 j hj
  rwa [Nat.zero_add] at hgroup

/-- A trailing byte of `S2` (43_pipeline_stages.md R185). -/
theorem stage2_trailing (c : Config) (set k : Tag) (b : Bytes) {t : Nat} (ht : t < b.length % 4) :
    (stage2 c set k b).getD (4 * (b.length / 4) + t) 0 =
      b.getD (4 * (b.length / 4) + t) 0 + (sigma c k (mixcAt c set (b.length / 4 + t))).setWidth 8 := by
  have htrailing := (stage2From_get c set k 0 b).2 t ht
  rwa [Nat.zero_add, trailMask_eq] at htrailing

/-- A whole group of `IS2` (43_pipeline_stages.md R187). -/
theorem invStage2_group (c : Config) (set k : Tag) (b : Bytes) {j : Nat} (hj : j < b.length / 4) :
    ((invStage2 c set k b).drop (4 * j)).take 4 = toBE32 (isigma c k
      (le32 (b.getD (4 * j) 0) (b.getD (4 * j + 1) 0) (b.getD (4 * j + 2) 0) (b.getD (4 * j + 3) 0)) - mixcAt c set j) := by
  have hgroup := (invStage2From_get c set k 0 b).1 j hj
  rwa [Nat.zero_add] at hgroup

/-- A trailing byte of `IS2`: the mask is the forward one (43_pipeline_stages.md R187). -/
theorem invStage2_trailing (c : Config) (set k : Tag) (b : Bytes) {t : Nat} (ht : t < b.length % 4) :
    (invStage2 c set k b).getD (4 * (b.length / 4) + t) 0 =
      b.getD (4 * (b.length / 4) + t) 0 - (sigma c k (mixcAt c set (b.length / 4 + t))).setWidth 8 := by
  have htrailing := (invStage2From_get c set k 0 b).2 t ht
  rwa [Nat.zero_add, trailMask_eq] at htrailing

/-- Settles O42: whole groups and trailing bytes, forward and back. -/
theorem stage2MixesWordsThenTrailingBytes : Obligations.Stage2MixesWordsThenTrailingBytes := by
  intro s set k old n at4 con hset hk hold hn hat4 hcon
  obtain rfl : at4 = fun i => old.getD i 0 := funext hat4
  obtain rfl : con = mixcAt Config.impl set := funext hcon
  subst hold hn
  exact ⟨
    ⟨stage2 Config.impl set k s.mem.buf, congrArg Host.Outcome.next (withSelectors_of_some hset hk _),
      stage2From_length Config.impl set k 0 _, fun _ => stage2_group Config.impl set k _,
      fun _ => stage2_trailing Config.impl set k _⟩,
    ⟨invStage2 Config.impl set k s.mem.buf, congrArg Host.Outcome.next (withSelectors_of_some hset hk _),
      invStage2From_length Config.impl set k 0 _, fun _ => invStage2_group Config.impl set k _,
      fun _ => invStage2_trailing Config.impl set k _⟩⟩

/-- A byte of `S3` (43_pipeline_stages.md R189). -/
theorem stage3_getD (c : Config) (n : Nat) (t : Vector Byte 256) (b : Bytes) {i : Nat} (h : i < b.length) :
    (stage3 c n t b).getD i 0 = (sboxAt c)^[n] (b.getD ((i + n) % b.length) 0) + t[i % 256] := by
  have hi : i < (substRotate c n b).length := by rwa [substRotate_length]
  rw [← substRotate_getD c n b i h]
  simp [stage3, hi]

/-- A byte of `IS3` (43_pipeline_stages.md R191). -/
theorem invStage3_getD (c : Config) (n : Nat) (t : Vector Byte 256) (b : Bytes) {i : Nat} (h : i < b.length) :
    (invStage3 c n t b).getD ((i + n) % b.length) 0 = (isboxAt c)^[n] (b.getD i 0 - t[i % 256]) := by
  have hiterations := invSubstRotate_getD c n (b.mapIdx fun i v => v - t[i % 256]) i (by rwa [List.length_mapIdx])
  rw [List.length_mapIdx] at hiterations
  rw [invStage3, hiterations]
  simp [h]

/-- Settles O43: the iterations of the stage in closed form, with the table's addition after them or before them. -/
theorem stage3SubstitutesRotatesAndMasks : Obligations.Stage3SubstitutesRotatesAndMasks := by
  refine ⟨isboxAt_sboxAt, fun s r t hr ht => ⟨?_, ?_⟩⟩
  · exact ⟨stage3 Config.impl r.rounds t.table s.mem.buf, congrArg Host.Outcome.next (withRounds_of_some hr ht _),
      stage3_length _ _ _ _, fun _ => stage3_getD Config.impl r.rounds t.table s.mem.buf⟩
  · exact ⟨invStage3 Config.impl r.rounds t.table s.mem.buf, congrArg Host.Outcome.next (withRounds_of_some hr ht _),
      invStage3_length _ _ _ _, fun _ => invStage3_getD Config.impl r.rounds t.table s.mem.buf⟩

end Sys2Proof.Machine
end

