-- ==== Sys2Proof/Proofs/TrailerAndKeystream.lean ====
section
/-!
Stages 4 and 5 and their inverses (43_pipeline_stages.md R193 to R198): the words of the commands, and what each leaves
in each of its cases.
-/

namespace Sys2Proof.Machine

/-- A length fits where no finite capacity is below it (20_memory.md R51). -/
theorem within_iff {cap : Option Nat} {n : Nat} : within cap n = true ↔ ∀ m, cap = some m → n ≤ m := by
  cases cap <;> simp [within]

/-- ST4 rejects an extension of more than 255 bytes (43_pipeline_stages.md R194). -/
theorem runSt4_of_long_extension (c : Config) {s : State} (h : 255 < s.mem.ext.length) :
    runSt4 c s = { s with err := 7, errInfo := BitVec.ofNat 32 s.mem.ext.length } := by
  rw [runSt4, if_pos h]
  exact commitBuf_error s (invalidExtension s.mem.ext.length)

/-- ST4 rejects a result beyond the capacity of `BUF` (43_pipeline_stages.md R194). -/
theorem runSt4_of_not_within {c : Config} {s : State} (hext : s.mem.ext.length ≤ 255)
    (hcap : ¬ within c.bufMax (s.mem.buf.length + s.mem.ext.length + 1) = true) :
    runSt4 c s = { s with err := 9, errInfo := 0 } := by
  rw [runSt4, if_neg (Nat.not_lt.2 hext), if_neg hcap]
  exact commitBuf_error s capacityExceeded

/-- ST4 appends the extension and the byte of its length (43_pipeline_stages.md R193, R194). -/
theorem runSt4_of_within {c : Config} {s : State} (hext : s.mem.ext.length ≤ 255)
    (hcap : within c.bufMax (s.mem.buf.length + s.mem.ext.length + 1) = true) :
    runSt4 c s = { s with
      mem := { s.mem with buf := s.mem.buf ++ s.mem.ext ++ [BitVec.ofNat 8 s.mem.ext.length] }
      err := 0, errInfo := 0 } := by
  rw [runSt4, if_neg (Nat.not_lt.2 hext), if_pos hcap]
  exact commitBuf_ok s (stage4 s.mem.ext s.mem.buf)

/-- Settles O44: the two rejections in their order, then the appended trailer, whose length fits its byte. -/
theorem stage4AppendsTheExtensionAndItsLength : Obligations.Stage4AppendsTheExtensionAndItsLength := by
  refine ⟨rfl, fun c s => ⟨rfl, runSt4_of_long_extension c, fun m hext hm hfull => ?_, fun hext hfits => ?_⟩⟩
  · refine runSt4_of_not_within hext fun hcap => ?_
    exact absurd (within_iff.1 hcap m hm) (Nat.not_le.2 hfull)
  · have hbyte : (BitVec.ofNat 8 s.mem.ext.length).toNat = s.mem.ext.length := by
      rw [BitVec.toNat_ofNat]
      omega
    exact ⟨_, hbyte, runSt4_of_within hext (within_iff.2 hfits)⟩

/-- IST4 of a buffer with a last byte, as the trailer's length decides (43_pipeline_stages.md R196). -/
theorem runIst4_of_append {s : State} {rest : Bytes} {e : Byte} (h : s.mem.buf = rest ++ [e]) :
    runIst4 s = s.commitBuf
      (if rest.length < e.toNat then .error (invalidCiphertext 1) else .ok (rest.take (rest.length - e.toNat))) := by
  rw [runIst4, h, invStage4_append]

/-- IST4 of the empty buffer raises InvalidCiphertext(0) (43_pipeline_stages.md R196). -/
theorem runIst4_of_empty {s : State} (h : s.mem.buf = []) : runIst4 s = { s with err := 2, errInfo := 0 } := by
  rw [runIst4, h]
  exact commitBuf_error s (invalidCiphertext 0)

/-- Settles O45: the empty buffer, then a buffer with a last byte whose trailer is too long or is dropped. -/
theorem inverseStage4DropsTheTrailer : Obligations.InverseStage4DropsTheTrailer := by
  refine ⟨rfl, fun s => ⟨fun hempty => congrArg Host.Outcome.next (runIst4_of_empty hempty), fun rest e hbuf => ?_⟩⟩
  have hrun := runIst4_of_append hbuf
  refine ⟨fun hlong => ?_, fun hfits => ?_⟩
  · rw [if_pos hlong, commitBuf_error] at hrun
    exact congrArg Host.Outcome.next hrun
  · rw [if_neg (Nat.not_lt.2 hfits), commitBuf_ok] at hrun
    exact congrArg Host.Outcome.next hrun

/-- Without a keystream bit `V_KS` is what Stage 5 misses (43_pipeline_stages.md R180, R198). -/
theorem needed_ks_of_none {cs : CipherState} (h : cs.ks = none) : vKS &&& ~~~cs.csv = vKS := by
  obtain ⟨-, -, -, -, hks, -⟩ := csv_bits cs
  rw [h, Option.isSome_none] at hks
  have hmask : ∀ v : BitVec 6, v.getLsbD 4 = false → vKS &&& ~~~v = vKS := by decide
  exact hmask cs.csv hks

/-- Stage 5 without a keystream raises SequenceError(0x10) (43_pipeline_stages.md R198). -/
theorem runSt5_of_none {s : State} (h : s.cipher.ks = none) : runSt5 s = { s with err := 5, errInfo := 0x10 } := by
  have hneeded := needed_ks_of_none h
  rw [runSt5, withKeystream_missing s _ (by rw [hneeded]; decide), CipherState.missing, hneeded]
  rfl

/-- Stage 5 with a keystream of another length raises SequenceError(0x200) (43_pipeline_stages.md R198). -/
theorem runSt5_of_length_ne {s : State} {ks : Bytes} (h : s.cipher.ks = some ks) (hlen : ks.length ≠ s.mem.buf.length) :
    runSt5 s = { s with err := 5, errInfo := 0x200 } := by
  rw [runSt5, withKeystream, h]
  dsimp only
  rw [if_neg hlen]
  exact commitBuf_error s (sequenceError 0x200)

/-- Stage 5 with a keystream of the buffer's length XORs it into `BUF` (43_pipeline_stages.md R197, R198). -/
theorem runSt5_of_length_eq {s : State} {ks : Bytes} (h : s.cipher.ks = some ks) (hlen : ks.length = s.mem.buf.length) :
    runSt5 s = { s with mem := { s.mem with buf := stage5 ks s.mem.buf }, err := 0, errInfo := 0 } := by
  rw [runSt5, withKeystream, h]
  dsimp only
  rw [if_pos hlen]
  exact commitBuf_ok s (stage5 ks s.mem.buf)

/-- Both spellings run Stage 5 (30_encoding.md R78). -/
theorem exec_stage5 (s : State) : ∀ i ∈ [Instr.st5, .ist5], exec i s = .next (runSt5 s) := by
  intro i hi
  fin_cases hi <;> rfl

/-- Settles O46: one command under two spellings, by the keystream it finds. -/
theorem stage5XorsTheKeystream : Obligations.Stage5XorsTheKeystream := by
  refine ⟨rfl, rfl, fun s i hi => ?_⟩
  rw [exec_stage5 s i hi]
  refine ⟨fun hnone => congrArg Host.Outcome.next (runSt5_of_none hnone), fun ks hks => ⟨fun hne => ?_, fun heq => ?_⟩⟩
  · exact congrArg Host.Outcome.next (runSt5_of_length_ne hks hne)
  · exact ⟨stage5 ks s.mem.buf, congrArg Host.Outcome.next (runSt5_of_length_eq hks heq),
      stage5_length ks _ heq, stage5_getD ks _ heq⟩

end Sys2Proof.Machine
end

