-- ==== Sys2Proof/Proofs/EncryptDecrypt.lean ====
section
/-!
ENC and DEC (44_cipher_batch.md R210 to R213): `encrypt` and `decrypt` as one chain of tests each, in the order the
spec gives them, and what the commands make of the result.
-/

namespace Sys2Proof.Machine

/-- Encryption of the empty key is rejected first (44_cipher_batch.md R210). -/
theorem encryptWithin_of_empty_key (c : Config) (p x : Bytes) : encryptWithin c p [] x = .error (invalidKey 0) := by
  rw [encryptWithin, encrypt, if_pos rfl]

/-- What ENC computes for another key, its tests in order (44_cipher_batch.md R210, R211). -/
theorem encryptWithin_of_key (c : Config) {key : Bytes} (h : key ≠ []) (p x : Bytes) :
    ∃ k : Tag, k.val = popBytes key % popBytes (shake .sec128 key 16) % 4 ∧
      encryptWithin c p key x =
        if popBytes (shake .sec128 key 16) = 0 then .error (invalidKey 1)
        else if 255 < x.length then .error (invalidExtension x.length)
        else if within c.bufMax (p.length + x.length + 1) = false then .error capacityExceeded
        else .ok (encryptStages c k key p x) := by
  obtain ⟨k, hval, hssel⟩ := ssel_cases key
  refine ⟨k, hval, ?_⟩
  rw [encryptWithin, encrypt, if_neg h, hssel]
  by_cases hdigest : popBytes (shake .sec128 key 16) = 0
  · simp only [if_pos hdigest]
  by_cases hext : 255 < x.length
  · simp only [if_neg hdigest, if_pos hext]
  simp only [if_neg hdigest, if_neg hext, encryptStages_length]
  cases within c.bufMax (p.length + x.length + 1) <;> rfl

/-- Settles O48: `CSV` is cleared before the result is committed, and the result is one chain of tests. -/
theorem encEncryptsTheBufferOrReports : Obligations.EncEncryptsTheBufferOrReports := by
  rintro c s key rfl
  refine ⟨rfl, fun hempty => ?_, fun hkey => ?_⟩
  · rw [runEnc, hempty, encryptWithin_of_empty_key]
    exact commitBuf_error s.clearCsv (invalidKey 0)
  · obtain ⟨k, hval, hresult⟩ := encryptWithin_of_key c hkey s.mem.buf s.mem.ext
    refine ⟨_, csel s.mem.key, k, _, encryptStages c k s.mem.key s.mem.buf s.mem.ext, rfl, rfl, hval, rfl,
      encryptStages_length .., rfl, ?_⟩
    rw [runEnc, hresult]
    simp only [apply_ite s.clearCsv.commitBuf, commitBuf_ok, commitBuf_error]
    rfl

/-- `IS4` of a sequence that has a last byte (43_pipeline_stages.md R195). -/
theorem invStage4_of_ne_nil {b : Bytes} (h : b ≠ []) :
    invStage4 b =
      if b.length < (b.getD (b.length - 1) 0).toNat + 1 then .error (invalidCiphertext 1)
      else .ok (b.take (b.length - (b.getD (b.length - 1) 0).toNat - 1)) := by
  have hlast : b.getLast? = some (b.getD (b.length - 1) 0) := by
    have hlt : b.length - 1 < b.length := Nat.sub_one_lt (by simpa using h)
    rw [List.getLast?_eq_getElem?, List.getD_eq_getElem?_getD, List.getElem?_eq_getElem hlt, Option.getD_some]
  rw [invStage4, hlast]

/-- The inverse stages 3, 2, 1: the constants of stage 1 are derived for the length of what `IS4` left
(44_cipher_batch.md R212). -/
theorem decryptStages_eq (c : Config) (k : Tag) (key b : Bytes) :
    decryptStages c k key b = invStage1 (cext (addcSet c (csel key)) b.length)
      (invStage2 c (csel key) k (invStage3 c (roundRegs c key).rounds (tgen c key).table b)) := by
  rw [decryptStages, invStage2, invStage2From_length, invStage3_length]

/-- Decryption with the empty key is rejected first (44_cipher_batch.md R212). -/
theorem decrypt_of_empty_key (c : Config) (ct : Bytes) : decrypt c ct [] = .error (invalidKey 0) := by
  rw [decrypt, if_pos rfl]

/-- What DEC computes for another key, its tests in order, by the trailer byte `e` of the unmasked buffer `b`
(44_cipher_batch.md R212). -/
theorem decrypt_of_key (c : Config) {key : Bytes} (h : key ≠ []) (ct : Bytes) {b : Bytes} {e : Byte}
    (hb : b = stage5 (keystream key ct.length) ct) (he : e = b.getD (b.length - 1) 0) :
    ∃ k : Tag, k.val = popBytes key % popBytes (shake .sec128 key 16) % 4 ∧
      decrypt c ct key =
        if popBytes (shake .sec128 key 16) = 0 then .error (invalidKey 1)
        else if ct = [] then .error (invalidCiphertext 0)
        else if ct.length < e.toNat + 1 then .error (invalidCiphertext 1)
        else .ok (decryptStages c k key (b.take (ct.length - e.toNat - 1))) := by
  obtain ⟨k, hval, hssel⟩ := ssel_cases key
  have hlen : b.length = ct.length := by rw [hb, stage5_length _ _ (keystream_length key ct.length)]
  refine ⟨k, hval, ?_⟩
  rw [decrypt, if_neg h, hssel, ← hb]
  by_cases hdigest : popBytes (shake .sec128 key 16) = 0
  · simp only [if_pos hdigest]
  by_cases hct : ct = []
  · simp only [if_neg hdigest, if_pos hct]
  have hne : b ≠ [] := fun hnil => hct (List.length_eq_zero_iff.1 (by rw [← hlen, hnil, List.length_nil]))
  have htrailer := invStage4_of_ne_nil hne
  rw [← he, hlen] at htrailer
  simp only [if_neg hdigest, if_neg hct, htrailer]
  by_cases hshort : ct.length < e.toNat + 1
  · simp only [if_pos hshort]
  · simp only [if_neg hshort]

/-- Settles O49: `CSV` is cleared before the result is committed, and the result is one chain of tests. -/
theorem decDecryptsTheBufferOrReports : Obligations.DecDecryptsTheBufferOrReports := by
  rintro c s key rfl
  refine ⟨rfl, fun hempty => ?_, fun hkey => ?_⟩
  · rw [runDec, hempty, decrypt_of_empty_key]
    exact commitBuf_error s.clearCsv (invalidKey 0)
  · obtain ⟨k, hval, hresult⟩ := decrypt_of_key c hkey s.mem.buf rfl rfl
    refine ⟨_, csel s.mem.key, k, _, _, _, rfl, rfl, hval, rfl, rfl, rfl, ?_⟩
    have hopen := stage5_length _ s.mem.buf (keystream_length s.mem.key s.mem.buf.length)
    rw [runDec, hresult, decryptStages_eq, List.length_take_of_le (by omega)]
    simp only [apply_ite s.clearCsv.commitBuf, commitBuf_ok, commitBuf_error]
    rfl

end Sys2Proof.Machine
end

