-- ==== Sys2Proof/Proofs/BatchCommands.lean ====
section
/-!
The batch executor (44_cipher_batch.md R217 to R221): the blocks the workers hold, and what BENC and BDEC leave.
-/

namespace Sys2Proof.Machine

/-- A worker exists where its block's first index does (44_cipher_batch.md R217). -/
theorem lt_workers_count_iff {nb : Nat} (h : 1 ≤ nb) (n w : Nat) : w < (n + nb - 1) / nb ↔ w * nb < n := by
  rw [← Nat.succ_le_iff, Nat.le_div_iff_mul_le h, Nat.succ_mul]
  omega

/-- The number of workers (44_cipher_batch.md R217). -/
theorem workers_length (nb n : Nat) : (workers nb n).length = (n + nb - 1) / nb := by
  rw [workers, List.length_map, List.length_range]

/-- The queue of worker `w` (44_cipher_batch.md R217). -/
theorem workers_getElem?_eq_some {nb n w : Nat} {q : List Nat} :
    (workers nb n)[w]? = some q ↔ w < (n + nb - 1) / nb ∧ workerItems nb n w = q := by
  simp [workers, List.getElem?_eq_some_iff]

/-- A block that is not empty starts at its own first index (44_cipher_batch.md R217). -/
theorem workerItems_head? {nb n w : Nat} (h : 1 ≤ nb) (hw : w * nb < n) :
    (workerItems nb n w).head? = some (w * nb) := by
  have hpos : min ((w + 1) * nb) n - w * nb ≠ 0 := by
    rw [Nat.succ_mul]
    omega
  rw [workerItems, List.head?_range', if_neg hpos]

/-- A block that another one follows is full (44_cipher_batch.md R217). -/
theorem workerItems_length_of_lt {nb n w : Nat} (hw : (w + 1) * nb < n) : (workerItems nb n w).length = nb := by
  rw [workerItems, List.length_range', Nat.min_eq_left hw.le, Nat.succ_mul, Nat.add_sub_cancel_left]

/-- Settles O55: a worker's block starts below `n`, and is full where the next block starts below `n` too. -/
theorem workersPartitionTheItems : Obligations.WorkersPartitionTheItems := by
  refine fun nb n hnb => ⟨workers_flatten nb n hnb, workers_length nb n, fun w q hq => ?_⟩
  obtain ⟨hw, rfl⟩ := workers_getElem?_eq_some.1 hq
  rw [workers_length, lt_workers_count_iff hnb]
  exact ⟨workerItems_head? hnb ((lt_workers_count_iff hnb n w).1 hw), workerItems_length_of_lt⟩

/-- The least failing index: its item failed and none before it did (44_cipher_batch.md R218). -/
theorem firstFailed_some {items : List Item} {i : Nat} :
    firstFailed items = some i ↔
      (∃ it, items[i]? = some it ∧ it.err ≠ 0) ∧ ∀ j < i, ∀ it, items[j]? = some it → it.err = 0 := by
  simp only [firstFailed, List.findIdx?_eq_some_iff_getElem, bne_iff_ne, List.getElem?_eq_some_iff]
  constructor
  · rintro ⟨hi, hfailed, hbefore⟩
    refine ⟨⟨items[i], ⟨hi, rfl⟩, hfailed⟩, ?_⟩
    rintro j hj _ ⟨-, rfl⟩
    exact not_not.1 (hbefore j hj)
  · rintro ⟨⟨_, ⟨hi, rfl⟩, hfailed⟩, hbefore⟩
    exact ⟨hi, hfailed, fun j hj => not_not.2 (hbefore j hj _ ⟨hj.trans hi, rfl⟩)⟩

/-- BENC and BDEC are batches of the single-item functions, in turns the mode decides (44_cipher_batch.md R218,
R219). -/
theorem exec_batch (mode : ExecMode) (s : State) {p : Instr × (Item → Except CmdError Bytes)}
    (hp : p ∈ [(Instr.benc mode, fun it => encryptWithin Config.impl it.data it.key it.ext),
      (.bdec mode, fun it => decrypt Config.impl it.data it.key)]) :
    exec p.1 s = .next (runBatch (fun it => it.store (p.2 it)) (turns mode s.nblock s.items.length) s) := by
  fin_cases hp <;> rfl

/-- Settles O56: the batch maps the item function over the table and reports what `firstFailed` finds in it. -/
theorem batchCommandsProcessEveryItem : Obligations.BatchCommandsProcessEveryItem := by
  intro mode s p hp
  rw [exec_batch mode s hp]
  refine ⟨fun hzero => congrArg Host.Outcome.next (runBatch_zero _ _ s hzero), fun hpos => ?_⟩
  refine ⟨s.items.map fun it => it.store (p.2 it), _, _, rfl, congrArg Host.Outcome.next (runBatch_pos _ _ s hpos),
    fun hall => ?_, fun i hbefore hfailed => ?_⟩
  · rw [firstFailed_none.2 hall]
    exact ⟨rfl, rfl⟩
  · rw [firstFailed_some.2 ⟨hfailed, hbefore⟩]
    exact ⟨rfl, rfl⟩

end Sys2Proof.Machine
end

