-- ==== Sys2Proof/Proofs/CommandWords.lean ====
section
/-!
The command words (30_encoding.md R70 to R79): the decoder accepts the encodings of the commands and nothing else, and a
step of the machine runs what the decoder answers.
-/

namespace Sys2Proof

/-- What decodes is a command of the block, and the word is its encoding (30_encoding.md R79). -/
theorem wellFormed_and_encode_of_decode {cw : Word} {i : Instr} (h : decode cw = .ok i) :
    i.wellFormed = true ∧ encode i = cw := by
  rw [decode] at h
  split at h
  next hz =>
    obtain ⟨hwf, hencode⟩ := decodeFields_ok _ _ _ _ h
    exact ⟨hwf, hencode.trans (packWord_eq cw hz)⟩
  next => cases h

/-- A command of the block stands for itself (30_encoding.md R78). -/
theorem Instr.expand_of_wellFormed {i : Instr} (h : i.wellFormed = true) : i.expand = i := by
  unfold Instr.expand
  split
  case h_8 => rfl
  all_goals cases h

end Sys2Proof

namespace Sys2Proof.Machine

/-- Settles O1: the decoder's answer is inverted by the encoder, and the encoding of a command decodes to what the
command stands for, which is the command itself. -/
theorem decodeAcceptsExactlyTheEncodings : Obligations.DecodeAcceptsExactlyTheEncodings := by
  refine fun cw i => ⟨wellFormed_and_encode_of_decode, ?_⟩
  rintro ⟨hwf, rfl⟩
  rw [decode_encode_eq_expand, Instr.expand_of_wellFormed hwf]

/-- Settles O4: nine closed words, which the decoder evaluates. -/
theorem sampleWordsDecodeAsTheMapSays : Obligations.SampleWordsDecodeAsTheMapSays := by
  unfold Obligations.SampleWordsDecodeAsTheMapSays
  decide

/-- A step performs the operation at the head of the host's list (20_memory.md R63). -/
theorem step_of_pending {s : State} {op : HostOp} {rest : List HostOp} (h : s.pending = op :: rest) :
    step s = hostStep op { s with pending := rest, reply := none } := by
  rw [step, stepHost, h]
  rfl

/-- Issuing a word that decodes runs its instruction (20_memory.md R66). -/
theorem hostIssue_of_decode {cw : Word} {i : Instr} (h : decode cw = .ok i) (s : State) :
    hostIssue cw s = exec i s := by
  rw [hostIssue, h]

/-- Settles O5: the step is HostIssue on the state with the operation taken, in both of its branches. -/
theorem stepRunsTheIssuedCommand : Obligations.StepRunsTheIssuedCommand := by
  intro s cw rest hpending
  rw [step_of_pending hpending]
  exact ⟨fun i hi => hostIssue_of_decode hi _, fun hillegal => hostIssue_of_illegal hillegal _⟩

end Sys2Proof.Machine
end

