-- ==== Sys2Proof/Proofs/StateInvariant.lean ====
section
/-!
The invariant of the machine (10_state.md §2 to §6): which update of each piece of state keeps it, then what every
command and every operation of the host updates.
-/

namespace Sys2Proof.Machine

section
variable {c : Config} {s : State}

/-! One rule per piece of state: what a new value has to meet. -/

/-- The status registers after a command (60_exceptions.md R230). -/
theorem State.Inv.with_status (h : s.Inv c) {e : Byte} {d : Word} (hle : e ≤ 9) (hzero : e = 0 → d = 0) :
    State.Inv c { s with err := e, errInfo := d } :=
  { h with err_le := hle, err_zero := hzero }

/-- The sponge context (10_state.md R21). -/
theorem State.Inv.with_sponge (h : s.Inv c) {sp : Sponge} (hsp : sp.Good) : State.Inv c { s with sponge := sp } :=
  { h with sponge_good := hsp }

/-- `BUF` (10_state.md R24). -/
theorem State.Inv.with_buf (h : s.Inv c) {b : Bytes} (hb : within c.bufMax b.length = true) : (s.setBuf b).Inv c :=
  { h with mem_wf := wf_setBuf c s b h.mem_wf hb }

/-- `DIG` (10_state.md R24). -/
theorem State.Inv.with_dig (h : s.Inv c) {d : Bytes} (hd : within c.digMax d.length = true) : (s.setDig d).Inv c :=
  { h with mem_wf := wf_setDig c s d h.mem_wf hd }

/-- `LEN` (10_state.md R25). -/
theorem State.Inv.with_len (h : s.Inv c) {n : Nat} (hn : fitsWidth c .len n = true) : State.Inv c { s with len := n } :=
  { h with len_fits := hn }

/-- The cipher-state registers (10_state.md R28). -/
theorem State.Inv.with_cipher (h : s.Inv c) {cs : CipherState} (hcs : cs.Derived c s.mem.key) :
    State.Inv c { s with cipher := cs } :=
  { h with cipher_derived := hcs }

/-- The item table (10_state.md R34). -/
theorem State.Inv.with_items (h : s.Inv c) {items : List Item} (hcount : within c.nitemsMax items.length = true)
    (hfit : ∀ it ∈ items, itemFits c (it.key, it.data, it.ext) = true)
    (hcode : ∀ it ∈ items, itemCode it.err = true) : State.Inv c { s with items := items } :=
  { h with items_count := hcount, items_fit := hfit, items_code := hcode }

/-- `IB` with the `FB` it inverts (10_state.md R32). -/
theorem State.Inv.with_map (h : s.Inv c) {f : Vector Word 32} {ib : Option (Vector Word 32)}
    (hib : ∀ g, ib = some g → lininv f = some g) : State.Inv c { s with fb := f, ib := ib } :=
  { h with ib_inverse := hib }

/-- No cipher-state register holds a value, so none is wrong. -/
theorem derived_empty (c : Config) (key : Bytes) : CipherState.empty.Derived c key where
  key_nonempty := fun hne => absurd rfl hne
  csel_eq := by simp
  addx_eq := by simp
  ssel_eq := by simp
  tables_eq := by simp
  ks_eq := by simp
  rounds_eq := by simp

/-- The model's own fields `pending` and `reply` are not spoken of: taking an operation off the list. -/
theorem State.Inv.began (h : s.Inv c) (rest : List HostOp) : (s.began rest).Inv c := { h with }

/-- The model's own field `reply`: a value returned to the host. -/
theorem State.Inv.answer (h : s.Inv c) (r : Reply) : (s.answer r).Inv c := { h with }

/-- `CSV <- 0` (10_state.md R28). -/
theorem State.Inv.clearCsv (h : s.Inv c) : s.clearCsv.Inv c := h.with_cipher (derived_empty c _)

/-! The end of a command. -/

/-- A command that raises an error leaves the state it started from, with a code of the table. -/
theorem State.Inv.commit_error (h : s.Inv c) (e : CmdError) : (s.commit (.error e)).Inv c :=
  h.with_status (num_le_nine e.code) fun hzero => absurd hzero (num_ne_zero e.code)

/-- A command keeps the invariant where what it writes on success has it. -/
theorem State.Inv.commit (h : s.Inv c) {r : Except CmdError State} (hr : ∀ t, r = .ok t → t.Inv c) :
    (s.commit r).Inv c := by
  cases r with
  | ok t => exact (hr t rfl).with_status (by decide) fun _ => rfl
  | error e => exact h.commit_error e

/-- A command that writes `BUF` keeps the invariant where its result is within the capacity. -/
theorem State.Inv.commitBuf (h : s.Inv c) {r : Except CmdError Bytes}
    (hr : ∀ b, r = .ok b → within c.bufMax b.length = true) : (s.commitBuf r).Inv c := by
  refine h.commit fun t ht => ?_
  cases r with
  | ok b =>
    cases ht
    exact h.with_buf (hr b rfl)
  | error e => cases ht

/-- `BUF` is within its capacity. -/
theorem State.Inv.within_buf (h : s.Inv c) : within c.bufMax s.mem.buf.length = true := by
  obtain ⟨-, hbuf, -, -⟩ := (wf_iff c s.mem).1 h.mem_wf
  exact hbuf

/-! The commands of the Sponge Core. -/

/-- The lanes of a good context can hold anything. -/
theorem Sponge.Good.with_lanes {sp : Sponge} (h : sp.Good) (a : Lanes) : Sponge.Good { sp with lanes := a } :=
  ⟨h.pos_lt, h.constructed, h.finalized⟩

/-- KF changes the lanes, of which the invariant says nothing. -/
theorem runKf_inv (h : s.Inv c) : (runKf s).Inv c := by
  refine h.commit fun t ht => ?_
  obtain rfl := Except.ok.inj ht
  exact h.with_sponge (h.sponge_good.with_lanes _)

/-- A fresh context is at position 0 with a supported pair (40_sponge.md R95). -/
theorem spInit_inv (h : s.Inv c) {m : SpongeMode} {b : Byte} {cw : Word} {t : State}
    (ht : spInit m b cw s = .ok t) : t.Inv c := by
  unfold spInit at ht
  split at ht
  next => cases ht
  next l hl =>
    cases ht
    obtain ⟨-, hsupported⟩ := supportedLevel_some.1 hl
    exact h.with_sponge ⟨rate_pos l, fun _ => hsupported, fun hdone => by cases hdone⟩

/-- Absorbing leaves the position below the rate (40_sponge.md R96). -/
theorem spAbsorb_inv (h : s.Inv c) {t : State} (ht : spAbsorb s = .ok t) : t.Inv c := by
  unfold spAbsorb at ht
  split at ht
  next habsorbing =>
    cases ht
    refine h.with_sponge { h.sponge_good with pos_lt := ?_, finalized := fun hdone => ?_ }
    · dsimp only
      rw [absorb_pos _ _ _ h.sponge_good.pos_lt]
      exact Nat.mod_lt _ (rate_pos _)
    · cases habsorbing.symm.trans hdone
  next => cases ht

/-- A finalized context is at position 0, and its digest passed the capacity test (40_sponge.md R100). -/
theorem spFinish_inv (h : s.Inv c) {t : State} (ht : spFinish c s = .ok t) : t.Inv c := by
  unfold spFinish at ht
  split at ht
  next habsorbing =>
    split at ht
    next hcap =>
      cases ht
      have hconstructed : s.sponge.phase ≠ .idle := by
        rw [habsorbing]
        decide
      refine (h.with_sponge (good_done _ _ _ (h.sponge_good.constructed hconstructed))).with_dig ?_
      rwa [squeeze_length]
    next => cases ht
  next => cases ht

/-- HASH is the three commands in order (40_sponge.md R102). -/
theorem hashMessage_inv (h : s.Inv c) {m : SpongeMode} {b : Byte} {cw : Word} {t : State}
    (ht : hashMessage c m b cw s = .ok t) : t.Inv c := by
  unfold hashMessage at ht
  split at ht
  next => cases ht
  next s1 hinit =>
    split at ht
    next => cases ht
    next s2 habsorb => exact spFinish_inv (spAbsorb_inv (spInit_inv h hinit) habsorb) ht

/-- HASH in every phase (40_sponge.md R102). -/
theorem runHash_inv (h : s.Inv c) (m : SpongeMode) (b : Byte) : (runHash c m b s).Inv c :=
  h.commit fun _ => hashMessage_inv h

/-! The derivation commands: the key is not empty where one writes its group. -/

/-- A derivation command keeps the invariant where, for a key that is not empty, what it gives is derived. -/
theorem derive_inv (h : s.Inv c) {r : Except CmdError CipherState}
    (hr : s.mem.key ≠ [] → ∀ cs, r = .ok cs → cs.Derived c s.mem.key) : (derive s r).Inv c := by
  refine h.commit fun t ht => ?_
  split at ht
  next => cases ht
  next hkey =>
    cases r with
    | ok cs =>
      cases ht
      exact h.with_cipher (hr hkey cs rfl)
    | error e => cases ht

/-- DCSEL derives the selector that `ADDX`, if it is valid, was extended from (41_constants_sigma.md R121). -/
theorem runDcsel_inv (h : s.Inv c) : (runDcsel s).Inv c := by
  refine derive_inv h fun hkey cs hcs => ?_
  cases hcs
  exact { h.cipher_derived with
    key_nonempty := fun _ => hkey
    csel_eq := fun _ ht => (Option.some.inj ht).symm
    addx_eq := fun x hx => ⟨rfl, (h.cipher_derived.addx_eq x hx).2⟩ }

/-- DCEXT derives the selector and the extension for `LEN` (41_constants_sigma.md R124). -/
theorem runDcext_inv (h : s.Inv c) : (runDcext c s).Inv c := by
  refine derive_inv h fun hkey cs hcs => ?_
  cases hcs
  exact { h.cipher_derived with
    key_nonempty := fun _ => hkey
    csel_eq := fun _ ht => (Option.some.inj ht).symm
    addx_eq := fun _ hx => ⟨rfl, s.len, (Option.some.inj hx).symm⟩ }

/-- DSSEL derives the tag or raises the selector's error (41_constants_sigma.md R127). -/
theorem runDssel_inv (h : s.Inv c) : (runDssel s).Inv c := by
  refine derive_inv h fun hkey cs hcs => ?_
  split at hcs
  next k hk =>
    cases hcs
    exact { h.cipher_derived with
      key_nonempty := fun _ => hkey
      ssel_eq := fun _ ht => Option.some.inj ht ▸ hk }
  next => cases hcs

/-- DTGEN derives the tables (42_subst_keystream_rounds.md R157). -/
theorem runDtgen_inv (h : s.Inv c) : (runDtgen c s).Inv c := by
  refine derive_inv h fun hkey cs hcs => ?_
  cases hcs
  exact { h.cipher_derived with
    key_nonempty := fun _ => hkey
    tables_eq := fun _ ht => (Option.some.inj ht).symm }

/-- DKS derives a keystream, which has the length asked for (42_subst_keystream_rounds.md R160). -/
theorem runDks_inv (h : s.Inv c) : (runDks s).Inv c := by
  refine derive_inv h fun hkey cs hcs => ?_
  cases hcs
  refine { h.cipher_derived with
    key_nonempty := fun _ => hkey
    ks_eq := fun ks hks => ?_ }
  cases hks
  rw [keystream_length]

/-- DRND derives the round registers (42_subst_keystream_rounds.md R166). -/
theorem runDrnd_inv (h : s.Inv c) : (runDrnd c s).Inv c := by
  refine derive_inv h fun hkey cs hcs => ?_
  cases hcs
  exact { h.cipher_derived with
    key_nonempty := fun _ => hkey
    rounds_eq := fun _ ht => (Option.some.inj ht).symm }

/-- CSCLR discards what was derived (42_subst_keystream_rounds.md R167). -/
theorem runCsclr_inv (h : s.Inv c) : (runCsclr s).Inv c := by
  refine h.commit fun t ht => ?_
  cases ht
  exact h.clearCsv

/-! The mixing functions and the inverter. -/

/-- SIG and ISIG write `W`, of which the invariant says nothing. -/
theorem commit_w_inv (h : s.Inv c) (w : Word) : (s.commit (.ok { s with w := w })).Inv c := by
  refine h.commit fun t ht => ?_
  cases ht
  exact { h with }

/-- LINV writes what the inverter gives, or nothing (41_constants_sigma.md R135). -/
theorem runLinv_inv (h : s.Inv c) : (runLinv s).Inv c := by
  refine State.Inv.commit (h.with_map (by simp)) fun t ht => ?_
  split at ht
  next => cases ht
  next g hg =>
    cases ht
    exact h.with_map fun _ hib => Option.some.inj hib ▸ hg

/-! The stage and cipher commands. -/

/-- A command whose result is as long as `BUF` keeps the invariant. -/
theorem State.Inv.commitBuf_of_length (h : s.Inv c) {r : Except CmdError Bytes}
    (hr : ∀ b, r = .ok b → b.length = s.mem.buf.length) : (s.commitBuf r).Inv c :=
  h.commitBuf fun b hb => (hr b hb).symm ▸ h.within_buf

/-- Stage 1 and its inverse keep the length. -/
theorem withAddx_inv (h : s.Inv c) {f : List Word → Bytes} (hf : ∀ x, (f x).length = s.mem.buf.length) :
    (withAddx s f).Inv c := by
  refine h.commitBuf_of_length fun b hb => ?_
  split at hb <;> cases hb
  exact hf _

/-- Stage 2 and its inverse keep the length. -/
theorem withSelectors_inv (h : s.Inv c) {f : Tag → Tag → Bytes}
    (hf : ∀ set k, (f set k).length = s.mem.buf.length) :
    (withSelectors s f).Inv c := by
  refine h.commitBuf_of_length fun b hb => ?_
  split at hb <;> cases hb
  exact hf _ _

/-- Stage 3 and its inverse keep the length. -/
theorem withRounds_inv (h : s.Inv c) {f : Nat → Vector Byte 256 → Bytes}
    (hf : ∀ n t, (f n t).length = s.mem.buf.length) : (withRounds s f).Inv c := by
  refine h.commitBuf_of_length fun b hb => ?_
  split at hb <;> cases hb
  exact hf _ _

/-- ST4 tests the length that `S4` gives (43_pipeline_stages.md R194). -/
theorem runSt4_inv (h : s.Inv c) : (runSt4 c s).Inv c := by
  refine h.commitBuf fun b hb => ?_
  split at hb
  next => cases hb
  next =>
    split at hb
    next hcap =>
      cases hb
      rwa [stage4_length]
    next => cases hb

/-- `IS4` drops bytes (43_pipeline_stages.md R195). -/
theorem invStage4_length_le {b d : Bytes} (h : invStage4 b = .ok d) : d.length ≤ b.length := by
  unfold invStage4 at h
  split at h
  next => cases h
  next =>
    split at h
    next => cases h
    next =>
      cases h
      rw [List.length_take]
      exact Nat.min_le_right _ _

/-- IST4 does not lengthen `BUF`. -/
theorem runIst4_inv (h : s.Inv c) : (runIst4 s).Inv c :=
  h.commitBuf fun _ hb => within_mono h.within_buf (invStage4_length_le hb)

/-- Stage 5 keeps the length. -/
theorem runSt5_inv (h : s.Inv c) : (runSt5 s).Inv c := by
  refine h.commitBuf_of_length fun b hb => ?_
  split at hb
  next ks _ =>
    split at hb
    next hlen =>
      cases hb
      exact stage5_length ks _ hlen
    next => cases hb
  next => cases hb

/-- ENC tests the ciphertext's length (44_cipher_batch.md R211). -/
theorem runEnc_inv (h : s.Inv c) : (runEnc c s).Inv c :=
  h.clearCsv.commitBuf fun _ hb => (encryptWithin_ok hb).2

/-- DEC gives a plaintext that is not longer than the ciphertext. -/
theorem runDec_inv (h : s.Inv c) : (runDec c s).Inv c :=
  h.clearCsv.commitBuf fun _ hb => within_mono h.within_buf (decrypt_length hb)

/-! The batch commands. -/

/-- An item's result keeps its key, puts data within the capacity in place of the old ones or leaves them, and writes a
code of the table (44_cipher_batch.md R218, R221). -/
theorem store_good {it : Item} {r : Except CmdError Bytes}
    (hfit : itemFits c (it.key, it.data, it.ext) = true)
    (hok : ∀ d, r = .ok d → within c.bufMax d.length = true)
    (herror : ∀ e, r = .error e → itemCode e.code.num = true) :
    itemFits c ((it.store r).key, (it.store r).data, (it.store r).ext) = true ∧ itemCode (it.store r).err = true := by
  cases r with
  | ok d =>
    rw [itemFits, Bool.and_eq_true] at hfit ⊢
    obtain ⟨hkey, -⟩ := hfit
    exact ⟨⟨hkey, hok d rfl⟩, rfl⟩
  | error e => exact ⟨hfit, herror e rfl⟩

/-- An item's data are within the capacity. -/
theorem within_of_itemFits {it : Item} (h : itemFits c (it.key, it.data, it.ext) = true) :
    within c.bufMax it.data.length = true := by
  rw [itemFits, Bool.and_eq_true] at h
  exact h.2

/-- A batch keeps the invariant where its item function keeps each item's. -/
theorem runBatch_inv (h : s.Inv c) {f : Item → Item} (hf : ∀ it, itemFits c (it.key, it.data, it.ext) = true →
      itemFits c ((f it).key, (f it).data, (f it).ext) = true ∧ itemCode (f it).err = true)
    (schedule : List Nat) : (runBatch f schedule s).Inv c := by
  by_cases hzero : s.nblock = 0
  · rw [runBatch_zero f schedule s hzero]
    exact h.clearCsv.with_status (by decide) (by decide)
  · rw [runBatch_pos f schedule s hzero]
    have htable : State.Inv c { s.clearCsv with items := s.items.map f } := by
      refine h.clearCsv.with_items (by simpa using h.items_count) ?_ ?_
      · simpa using fun it hit => (hf it (h.items_fit it hit)).1
      · simpa using fun it hit => (hf it (h.items_fit it hit)).2
    cases firstFailed (s.items.map f) with
    | none => exact htable.with_status (by decide) fun _ => rfl
    | some i => exact htable.with_status (e := 8) (by decide) fun h8 => absurd h8 (by decide)

/-- BENC is a batch of ENC's test and codes (44_cipher_batch.md R218). -/
theorem runBenc_inv (h : s.Inv c) (mode : ExecMode) : (runBenc c mode s).Inv c :=
  runBatch_inv h (fun _ hfit => store_good hfit (fun _ hd => (encryptWithin_ok hd).2) fun _ => encryptWithin_error) _

/-- BDEC is a batch of DEC's bound and codes (44_cipher_batch.md R219). -/
theorem runBdec_inv (h : s.Inv c) (mode : ExecMode) : (runBdec c mode s).Inv c :=
  runBatch_inv h (fun _ hfit => store_good hfit
    (fun _ hd => within_mono (within_of_itemFits hfit) (decrypt_length hd)) fun _ => decrypt_error) _

end

/-! The commands and the host's operations together. -/

/-- Every command keeps the invariant. -/
theorem exec_inv {s : State} (h : s.Inv Config.impl) (i : Instr) : Safe Config.impl (exec i s) := by
  cases i with
  | kf => exact runKf_inv h
  | spinit m b => exact h.commit fun _ => spInit_inv h
  | spabs => exact h.commit fun _ => spAbsorb_inv h
  | spfin => exact h.commit fun _ => spFinish_inv h
  | hash m b => exact runHash_inv h m b
  | sha3_224 | sha3_256 | sha3_384 | sha3_512 | shake128 | shake256 => exact runHash_inv h _ _
  | dcsel => exact runDcsel_inv h
  | dcext => exact runDcext_inv h
  | dssel => exact runDssel_inv h
  | dtgen => exact runDtgen_inv h
  | dks => exact runDks_inv h
  | drnd => exact runDrnd_inv h
  | csclr => exact runCsclr_inv h
  | sig k | isig k => exact commit_w_inv h _
  | linv => exact runLinv_inv h
  | st1 => exact withAddx_inv h fun x => stage1_length x _
  | ist1 => exact withAddx_inv h fun x => invStage1_length x _
  | st2 => exact withSelectors_inv h fun set k => stage2From_length _ set k 0 _
  | ist2 => exact withSelectors_inv h fun set k => invStage2From_length _ set k 0 _
  | st3 => exact withRounds_inv h fun n t => stage3_length _ n t _
  | ist3 => exact withRounds_inv h fun n t => invStage3_length _ n t _
  | st4 => exact runSt4_inv h
  | ist4 => exact runIst4_inv h
  | st5 | ist5 => exact runSt5_inv h
  | enc => exact runEnc_inv h
  | dec => exact runDec_inv h
  | benc mode => exact runBenc_inv h mode
  | bdec mode => exact runBdec_inv h mode

/-- A load within the capacity keeps the invariant; a new key discards what was derived from the old one
(20_memory.md R66, 10_state.md R28). -/
theorem hostLoad_inv {c : Config} {s : State} (h : s.Inv c) (b : LoadName) (bytes : Bytes) :
    Safe c (hostLoad c b bytes s) := by
  unfold hostLoad
  split
  next hcap =>
    have hwf := wf_load c s.mem b bytes h.mem_wf hcap
    cases b with
    | key => exact { h with mem_wf := hwf, cipher_derived := derived_empty c _ }
    | buf | ext | msg => exact { h with mem_wf := hwf }
  next => trivial

/-- A register write that fits keeps the invariant (20_memory.md R66). -/
theorem hostSetReg_inv {c : Config} {s : State} (h : s.Inv c) (r : SetName) (v : Nat) :
    Safe c (hostSetReg c r v s) := by
  unfold hostSetReg
  split
  next hfits =>
    cases r with
    | len => exact h.with_len hfits
    | w | nblock => exact { h with }
  next => trivial

/-- The items of a list that fits, with every code 0, keep the invariant (20_memory.md R66). -/
theorem hostLoadItems_inv {c : Config} {s : State} (h : s.Inv c) (items : List (Bytes × Bytes × Bytes)) :
    Safe c (hostLoadItems c items s) := by
  unfold hostLoadItems
  split
  next hfits =>
    rw [Bool.and_eq_true, List.all_eq_true] at hfits
    obtain ⟨hcount, hfit⟩ := hfits
    refine h.with_items (by simpa using hcount) (fun it hit => ?_) fun it hit => ?_
    · obtain ⟨fields, hfields, rfl⟩ := List.mem_map.1 hit
      exact hfit fields hfields
    · obtain ⟨_, -, rfl⟩ := List.mem_map.1 hit
      rfl
  next => trivial

/-- A word that decodes runs its command; another one only raises an error. -/
theorem hostIssue_inv {s : State} (h : s.Inv Config.impl) (cw : Word) : Safe Config.impl (hostIssue cw s) := by
  unfold hostIssue
  split
  next i _ => exact exec_inv h i
  next => exact h.commit_error _

/-- The invariant holds after reset: every buffer is empty, no register holds a derived value (10_state.md R39). -/
theorem reset_inv (c : Config) : State.reset.Inv c where
  sponge_good := ⟨rate_pos .sec128, fun hidle => absurd rfl hidle, fun hdone => by cases hdone⟩
  mem_wf := wf_reset c
  len_fits := by cases hbits : c.lenBits <;> simp [fitsWidth, hbits, State.reset]
  cipher_derived := derived_empty c _
  ib_inverse := by simp [State.reset]
  err_le := by decide
  err_zero := fun _ => rfl
  items_count := within_zero _
  items_fit := by simp [State.reset]
  items_code := by simp [State.reset]

/-- Settles O10: nothing in the proof depends on the configuration. -/
theorem resetHasTheInvariant : Obligations.ResetHasTheInvariant := reset_inv

/-- Every operation of the host keeps the invariant or is refused (20_memory.md R66). -/
theorem hostStep_inv {s : State} (h : s.Inv Config.impl) (op : HostOp) : Safe Config.impl (hostStep op s) := by
  cases op with
  | load b bytes => exact hostLoad_inv h b bytes
  | read b => exact h.answer _
  | readByte b i =>
    rw [hostStep, hostReadByte]
    split
    · exact h.answer _
    · trivial
  | setReg r v => exact hostSetReg_inv h r v
  | setFB i word => exact h.with_map (by simp)
  | getReg r =>
    rw [hostStep, hostGetReg]
    split
    · exact h.answer _
    · trivial
  | getArr x i =>
    rw [hostStep, hostGetArr]
    split
    · exact h.answer _
    · trivial
  | loadItems items => exact hostLoadItems_inv h items
  | issue cw => exact hostIssue_inv h cw
  | reset => exact { reset_inv Config.impl with }

/-- Every step is safe: the idle one changes nothing, the others perform an operation of the host. -/
theorem step_safe {s : State} (h : s.Inv Config.impl) : Safe Config.impl (step s) := by
  cases hpending : s.pending with
  | nil =>
    rw [step, stepHost, hpending]
    exact h
  | cons op rest =>
    rw [step_of_pending hpending]
    exact hostStep_inv (h.began rest) op

/-- Settles O9: a step that answers a next state is safe, so that state has the invariant. -/
theorem stepKeepsTheInvariant : Obligations.StepKeepsTheInvariant := by
  intro s t h hstep
  have hsafe := step_safe h
  rwa [hstep] at hsafe

end Sys2Proof.Machine
end

