-- ==== Sys2Proof/Proofs/CommandFrames.lean ====
section
/-!
How every command ends (60_exceptions.md R230, R231), and what it can write: each command belongs to one unit of the
block, and a unit writes its own pieces of state and the status alone (10_state.md §2 to §6, 30_encoding.md §2).
-/

namespace Sys2Proof.Machine

/-- Every command answers the end of a command, `State.commit` of some state and result (60_exceptions.md R242). -/
theorem exec_eq_commit (i : Instr) (s : State) : ∃ s' r, exec i s = .next (State.commit s' r) := by
  have hbatch : ∀ f schedule, ∃ s' r, runBatch f schedule s = State.commit s' r := by
    intro f schedule
    unfold runBatch
    split
    · exact ⟨_, _, rfl⟩
    · exact ⟨_, _, rfl⟩
  cases i with
  | benc mode | bdec mode =>
    obtain ⟨s', r, h⟩ := hbatch _ _
    exact ⟨s', r, congrArg Host.Outcome.next h⟩
  | _ => exact ⟨_, _, rfl⟩

/-- Settles O7: every command ends in `State.commit`, which succeeds or writes a code of the table. -/
theorem everyCommandEndsInSuccessOrOneError : Obligations.EveryCommandEndsInSuccessOrOneError := by
  intro i s
  obtain ⟨s', r, h⟩ := exec_eq_commit i s
  exact ⟨_, h, commit_ends s' r⟩

/-- The units of the block, by what a command of the unit writes beside the status. -/
inductive WriteSet where
  /-- KF, SPINIT, SPABS: the sponge context. -/
  | sponge
  /-- SPFIN and the hashes: the sponge context and `DIG`. -/
  | digest
  /-- The derivation commands and CSCLR: the cipher state. -/
  | derivation
  /-- SIG, ISIG: `W`. -/
  | word
  /-- LINV: `IB`. -/
  | inverter
  /-- The stage commands: `BUF`. -/
  | stage
  /-- ENC, DEC: `BUF` and the cipher state. -/
  | cipher
  /-- BENC, BDEC: the items' data and codes and the cipher state. -/
  | batch

/-- The unit of a command (30_encoding.md R73). -/
def writeSet : Instr → WriteSet
  | .kf | .spinit _ _ | .spabs => .sponge
  | .spfin | .hash _ _ | .sha3_224 | .sha3_256 | .sha3_384 | .sha3_512 | .shake128 | .shake256 => .digest
  | .dcsel | .dcext | .dssel | .dtgen | .dks | .drnd | .csclr => .derivation
  | .sig _ | .isig _ => .word
  | .linv => .inverter
  | .st1 | .st2 | .st3 | .st4 | .st5 | .ist1 | .ist2 | .ist3 | .ist4 | .ist5 => .stage
  | .enc | .dec => .cipher
  | .benc _ | .bdec _ => .batch

/-- The key and the extension of every item, which no command writes (10_state.md R34). -/
def itemInputs (items : List Item) : List (Bytes × Bytes) := items.map fun it => (it.key, it.ext)

/-- `t` is `s` with new values in the pieces a unit writes. -/
def WritesOnly : WriteSet → State → State → Prop
  | .sponge, s, t => ∃ sp e d, t = { s with sponge := sp, err := e, errInfo := d }
  | .digest, s, t => ∃ sp dig e d, t = { s with sponge := sp, mem := { s.mem with dig := dig }, err := e, errInfo := d }
  | .derivation, s, t => ∃ cs e d, t = { s with cipher := cs, err := e, errInfo := d }
  | .word, s, t => ∃ w e d, t = { s with w := w, err := e, errInfo := d }
  | .inverter, s, t => ∃ ib e d, t = { s with ib := ib, err := e, errInfo := d }
  | .stage, s, t => ∃ b e d, t = { s with mem := { s.mem with buf := b }, err := e, errInfo := d }
  | .cipher, s, t => ∃ b cs e d, t = { s with mem := { s.mem with buf := b }, cipher := cs, err := e, errInfo := d }
  | .batch, s, t => ∃ items cs e d, t = { s with items := items, cipher := cs, err := e, errInfo := d } ∧
      itemInputs items = itemInputs s.items

/-- A stage command writes `BUF` alone. -/
theorem commitBuf_writesOnly (s : State) (r : Except CmdError Bytes) : WritesOnly .stage s (s.commitBuf r) :=
  commitBuf_frame s r

/-- ENC and DEC write `BUF` and clear the cipher state (44_cipher_batch.md R211, R213). -/
theorem clearCsv_commitBuf_writesOnly (s : State) (r : Except CmdError Bytes) :
    WritesOnly .cipher s (s.clearCsv.commitBuf r) := by
  obtain ⟨b, e, d, h⟩ := commitBuf_frame s.clearCsv r
  exact ⟨b, CipherState.empty, e, d, h⟩

/-- A batch command writes the items' results and clears the cipher state (44_cipher_batch.md R218). -/
theorem runBatch_writesOnly (f : Item → Item) (hf : ∀ it, (f it).key = it.key ∧ (f it).ext = it.ext)
    (schedule : List Nat) (s : State) : WritesOnly .batch s (runBatch f schedule s) := by
  obtain ⟨items, e, d, h, hinputs⟩ := runBatch_frame f hf schedule s
  exact ⟨items, CipherState.empty, e, d, h, hinputs⟩

/-- Every command writes the pieces of its unit and the status alone. -/
theorem exec_writesOnly (i : Instr) (s : State) : ∃ t, exec i s = .next t ∧ WritesOnly (writeSet i) s t := by
  cases i with
  | kf => exact ⟨_, rfl, _, _, _, runKf_eq s⟩
  | spinit m b => exact ⟨_, rfl, runSpinit_frame m b s⟩
  | spabs => exact ⟨_, rfl, runSpabs_frame s⟩
  | spfin => exact ⟨_, rfl, runSpfin_frame Config.impl s⟩
  | hash m b => exact ⟨_, rfl, runHash_frame Config.impl m b s⟩
  | sha3_224 | sha3_256 | sha3_384 | sha3_512 | shake128 | shake256 => exact ⟨_, rfl, runHash_frame Config.impl _ _ s⟩
  | dcsel | dcext | dssel | dtgen | dks | drnd => exact ⟨_, rfl, derive_frame s _⟩
  | csclr => exact ⟨_, rfl, _, _, _, runCsclr_eq s⟩
  | sig k => exact ⟨_, rfl, _, _, _, runSig_eq Config.impl k s⟩
  | isig k => exact ⟨_, rfl, _, _, _, runIsig_eq Config.impl k s⟩
  | linv => exact ⟨_, rfl, runLinv_frame s⟩
  | st1 | st2 | st3 | st4 | st5 | ist1 | ist2 | ist3 | ist4 | ist5 => exact ⟨_, rfl, commitBuf_writesOnly s _⟩
  | enc | dec => exact ⟨_, rfl, clearCsv_commitBuf_writesOnly s _⟩
  | benc mode | bdec mode => exact ⟨_, rfl, runBatch_writesOnly _ (fun it => store_key it _) _ s⟩

/-! What a command outside the listed ones is not: the premises of the clauses, as statements about the unit. -/

/-- Only SIG and ISIG write `W`. -/
theorem writeSet_ne_word {i : Instr} (h : ∀ k, i ≠ .sig k ∧ i ≠ .isig k) : writeSet i ≠ .word := by
  cases i <;> simp_all [writeSet]

/-- Only SPFIN and the hashes, under either spelling, write `DIG`. -/
theorem writeSet_ne_digest {i : Instr} (hfin : i ≠ .spfin) (hhash : ∀ m b, i.expand ≠ .hash m b) :
    writeSet i ≠ .digest := by
  cases i <;> simp_all [writeSet, Instr.expand]

/-- Only the sponge commands write the context. -/
theorem writeSet_ne_sponge {i : Instr} (h : i ∉ [Instr.kf, .spabs, .spfin])
    (hhash : ∀ m b, i ≠ .spinit m b ∧ i.expand ≠ .hash m b) : writeSet i ≠ .sponge ∧ writeSet i ≠ .digest := by
  cases i <;> simp_all [writeSet, Instr.expand]

/-- Only the stage commands, under either spelling, ENC and DEC write `BUF`. -/
theorem writeSet_ne_stage {i : Instr}
    (h : i.expand ∉ [Instr.st1, .st2, .st3, .st4, .st5, .ist1, .ist2, .ist3, .ist4, .enc, .dec]) :
    writeSet i ≠ .stage ∧ writeSet i ≠ .cipher := by
  cases i <;> simp_all [writeSet, Instr.expand]

/-- Only LINV writes `IB`. -/
theorem writeSet_ne_inverter {i : Instr} (h : i ≠ .linv) : writeSet i ≠ .inverter := by
  cases i <;> simp_all [writeSet]

/-- Only BENC and BDEC write the item table. -/
theorem writeSet_ne_batch {i : Instr} (h : ∀ m, i ≠ .benc m ∧ i ≠ .bdec m) : writeSet i ≠ .batch := by
  cases i <;> simp_all [writeSet]

/-- Only the derivation commands, CSCLR, ENC, DEC and the batch commands write the cipher state. -/
theorem writeSet_ne_derivation {i : Instr}
    (h : i ∉ [Instr.dcsel, .dcext, .dssel, .dtgen, .dks, .drnd, .csclr, .enc, .dec]) :
    writeSet i ≠ .derivation ∧ writeSet i ≠ .cipher := by
  cases i <;> simp_all [writeSet]

/-- Each piece of state is left by every unit that does not write it. -/
structure LeavesTheRest (u : WriteSet) (s t : State) : Prop where
  key_eq : t.mem.key = s.mem.key
  ext_eq : t.mem.ext = s.mem.ext
  msg_eq : t.mem.msg = s.mem.msg
  len_eq : t.len = s.len
  fb_eq : t.fb = s.fb
  nblock_eq : t.nblock = s.nblock
  pending_eq : t.pending = s.pending
  reply_eq : t.reply = s.reply
  inputs_eq : itemInputs t.items = itemInputs s.items
  w_eq : u ≠ .word → t.w = s.w
  dig_eq : u ≠ .digest → t.mem.dig = s.mem.dig
  sponge_eq : u ≠ .sponge → u ≠ .digest → t.sponge = s.sponge
  buf_eq : u ≠ .stage → u ≠ .cipher → t.mem.buf = s.mem.buf
  ib_eq : u ≠ .inverter → t.ib = s.ib
  items_eq : u ≠ .batch → t.items = s.items
  cipher_eq : u ≠ .derivation → u ≠ .cipher → u ≠ .batch → t.cipher = s.cipher

/-- A unit that writes only its own pieces leaves the rest. -/
theorem WritesOnly.leavesTheRest {u : WriteSet} {s t : State} (h : WritesOnly u s t) : LeavesTheRest u s t := by
  cases u with
  | digest | cipher =>
    obtain ⟨_, _, _, _, rfl⟩ := h
    constructor <;> simp
  | batch =>
    obtain ⟨items, _, _, _, rfl, hinputs⟩ := h
    constructor <;> simp [hinputs]
  | _ =>
    obtain ⟨_, _, _, rfl⟩ := h
    constructor <;> simp

/-- Settles O8: what the premise of a clause excludes are the units that write the clause's piece of state. -/
theorem eachPieceOfStateHasItsWriters : Obligations.EachPieceOfStateHasItsWriters := by
  intro i s t hexec
  obtain ⟨t', hexec', hwrites⟩ := exec_writesOnly i s
  obtain rfl : t' = t := Host.Outcome.next.inj (hexec'.symm.trans hexec)
  have h := hwrites.leavesTheRest
  refine ⟨h.key_eq, h.ext_eq, h.msg_eq, h.len_eq, h.fb_eq, h.nblock_eq, h.pending_eq, h.reply_eq, h.inputs_eq,
    fun hi => h.w_eq (writeSet_ne_word hi), fun hfin hhash => h.dig_eq (writeSet_ne_digest hfin hhash),
    fun hi hhash => ?_, fun hi => ?_, fun hi => h.ib_eq (writeSet_ne_inverter hi),
    fun hi => h.items_eq (writeSet_ne_batch hi), fun hi hbatch => ?_⟩
  · obtain ⟨hsponge, hdigest⟩ := writeSet_ne_sponge hi hhash
    exact h.sponge_eq hsponge hdigest
  · obtain ⟨hstage, hcipher⟩ := writeSet_ne_stage hi
    exact h.buf_eq hstage hcipher
  · obtain ⟨hderivation, hcipher⟩ := writeSet_ne_derivation hi
    exact h.cipher_eq hderivation hcipher (writeSet_ne_batch hbatch)

end Sys2Proof.Machine
end

