-- ==== Sys2Proof/Proofs/KeccakSponge.lean ====
section
/-!
The permutation lane by lane, the byte view of the state, and the three loops of the sponge (40_sponge.md R90 to R99,
10_state.md R23).
-/

namespace Sys2Proof.Machine

/-! ## The permutation -/

/-- The lane that rho and pi send to column `y`, row `2x + 3y` is the one at column `x`, row `y`: the destination
formula of 40_sponge.md R90 undoes its source formula modulo 5. -/
theorem rhoPi_source_column (x y : Fin 5) : y + 3 * (2 * x + 3 * y) = x := by
  revert x y
  decide

/-- Lane 0 is the one at column 0, row 0. -/
theorem laneIndex_eq_zero_iff (x y : Fin 5) : (laneIndex x y).val = 0 ↔ x = 0 ∧ y = 0 := by
  simp only [laneIndex, Fin.ext_iff, Fin.val_zero]
  omega

/-- The XOR of a column (40_sponge.md R90). -/
theorem theta_lane (a : Lanes) (x y : Fin 5) : (theta a)[laneIndex x y] = a[laneIndex x y] ^^^
    ((a[laneIndex (x + 4) 0] ^^^ a[laneIndex (x + 4) 1] ^^^ a[laneIndex (x + 4) 2] ^^^ a[laneIndex (x + 4) 3] ^^^
        a[laneIndex (x + 4) 4]) ^^^
      rotl64 (a[laneIndex (x + 1) 0] ^^^ a[laneIndex (x + 1) 1] ^^^ a[laneIndex (x + 1) 2] ^^^
        a[laneIndex (x + 1) 3] ^^^ a[laneIndex (x + 1) 4]) 1) := by
  rw [theta, laneTable_get]
  simp only [Fin.getElem_fin, Vector.getElem_ofFn]

/-- Rho and pi at the destination of a lane (40_sponge.md R90). -/
theorem rhoPi_lane (a : Lanes) (x y : Fin 5) :
    (rhoPi a)[laneIndex y (2 * x + 3 * y)] = rotl64 a[laneIndex x y] (rotationOffset x y) := by
  rw [rhoPi, laneTable_get]
  simp only [rhoPi_source_column]

/-- Iota changes lane 0 alone (40_sponge.md R90). -/
theorem iota_lane (a : Lanes) (rc : Lane) (x y : Fin 5) :
    (iota a rc)[laneIndex x y] = if x = 0 ∧ y = 0 then a[laneIndex x y] ^^^ rc else a[laneIndex x y] := by
  simp only [iota, Fin.getElem_fin, Vector.getElem_set, eq_comm (a := 0), laneIndex_eq_zero_iff]
  split
  next h =>
    obtain ⟨rfl, rfl⟩ := h
    rfl
  next => rfl

/-- Settles O11, step by step; the rounds are `keccakRound` in order by definition. -/
theorem keccakRoundIsTheFiveSteps : Obligations.KeccakRoundIsTheFiveSteps :=
  ⟨theta_lane, rhoPi_lane, fun _ x y => laneTable_get _ x y, iota_lane, fun _ => rfl⟩

/-! ## The byte view -/

/-- A byte XORed into a lane at byte `q` changes byte `q` and no other (10_state.md R23). -/
theorem extract_xor_shifted (x : Lane) (v : Byte) {p q : Nat} (hp : p < 8) (hq : q < 8) :
    (x ^^^ (v.setWidth 64 <<< (8 * q))).extractLsb' (8 * p) 8 =
      if p = q then x.extractLsb' (8 * p) 8 ^^^ v else x.extractLsb' (8 * p) 8 := by
  apply BitVec.eq_of_getLsbD_eq
  intro i hi
  have hbit : 8 * p + i < 64 := by omega
  have hshifted : (v.setWidth 64 <<< (8 * q)).getLsbD (8 * p + i) = (decide (p = q) && v.getLsbD i) := by
    rw [BitVec.getLsbD_shiftLeft, BitVec.getLsbD_setWidth]
    rcases Nat.lt_trichotomy p q with h | rfl | h
    · have hbelow : 8 * p + i < 8 * q := by omega
      simp [hbelow, h.ne]
    · simp [hbit]
      omega
    · have habove : v.getLsbD (8 * p + i - 8 * q) = false := BitVec.getLsbD_of_ge _ _ (by omega)
      simp [habove, h.ne']
  obtain rfl | hne := eq_or_ne p q
  · simp only [BitVec.getLsbD_extractLsb', BitVec.getLsbD_xor, hshifted, hi, decide_true, if_true, Bool.true_and]
  · simp only [BitVec.getLsbD_extractLsb', BitVec.getLsbD_xor, hshifted, hi, hne, decide_true, decide_false, if_false,
      Bool.true_and, Bool.false_and, Bool.xor_false]

/-- XORing a byte into the state changes that byte of it and no other; at index 200 or above nothing changes
(10_state.md R23). -/
theorem stateByte_xorByte (a : Lanes) (j : Nat) (v : Byte) {i : Nat} (hi : i < 200) :
    stateByte (xorByte a j v) i = if i = j then stateByte a i ^^^ v else stateByte a i := by
  rcases Nat.lt_or_ge j 200 with hj | hj
  · have hi8 : i / 8 < 25 := by omega
    have hj8 : j / 8 < 25 := by omega
    simp only [stateByte, xorByte, hi8, hj8, dif_pos, Vector.getElem_set]
    by_cases hlane : j / 8 = i / 8
    · have hbyte : i % 8 = j % 8 ↔ i = j := by omega
      simp only [hlane, if_true, extract_xor_shifted _ v (Nat.mod_lt i (by decide)) (Nat.mod_lt j (by decide)), hbyte]
    · have hne : i ≠ j := by
        rintro rfl
        exact hlane rfl
      simp only [hlane, hne, if_false]
  · rw [xorByte_ge a j v hj, if_neg (by omega)]

/-- Settles O12: both indices are in range, where the byte view has the byte. -/
theorem xorByteChangesOneStateByte : Obligations.XorByteChangesOneStateByte :=
  fun a _ j v hi _ => stateByte_xorByte a j v hi

/-! ## Absorb -/

/-- A byte that does not fill the block (40_sponge.md R96). -/
theorem absorbByte_of_lt {r pos : Nat} (h : pos + 1 < r) (a : Lanes) (v : Byte) :
    absorbByte r (a, pos) v = (xorByte a pos v, pos + 1) :=
  if_neg h.ne

/-- The byte that fills the block (40_sponge.md R96). -/
theorem absorbByte_of_full {r pos : Nat} (h : pos + 1 = r) (a : Lanes) (v : Byte) :
    absorbByte r (a, pos) v = (keccakF (xorByte a pos v), 0) :=
  if_pos h

/-- While the block is not full each byte is XORed at its place (40_sponge.md R96). -/
theorem stateByte_absorb {r : Nat} (data : Bytes) : ∀ (pos : Nat) (a : Lanes), pos + data.length < r → ∀ j < 200,
    stateByte (absorb r (a, pos) data).1 j =
      if pos ≤ j then stateByte a j ^^^ data.getD (j - pos) 0 else stateByte a j := by
  induction data with
  | nil =>
    intro pos a _ j _
    simp [absorb_nil]
  | cons v data ih =>
    intro pos a hlen j hj
    rw [List.length_cons] at hlen
    rw [absorb_cons, absorbByte_of_lt (by omega), ih (pos + 1) _ (by omega) j hj, stateByte_xorByte a pos v hj]
    rcases Nat.lt_trichotomy j pos with h | rfl | h
    · simp [h.ne, h.not_ge, show ¬ pos + 1 ≤ j by omega]
    · simp
    · simp [h.ne', h.le, show pos + 1 ≤ j by omega, show j - pos = j - (pos + 1) + 1 by omega]

/-- The byte that fills the block, after any bytes that do not (40_sponge.md R96). -/
theorem absorb_full {r pos : Nat} {data : Bytes} (h : pos + data.length + 1 = r) (a : Lanes) (v : Byte) :
    absorb r (a, pos) (data ++ [v]) = (keccakF (xorByte (absorb r (a, pos) data).1 (r - 1) v), 0) := by
  have hpos : (absorb r (a, pos) data).2 = r - 1 := by
    rw [absorb_pos r (a, pos) data (by dsimp only; omega), Nat.mod_eq_of_lt (by dsimp only; omega)]
    dsimp only
    omega
  rw [absorb_append, absorb_cons, absorb_nil, ← Prod.mk.eta (p := absorb r (a, pos) data), hpos,
    absorbByte_of_full (by omega)]

/-- Settles O13, clause by clause. -/
theorem absorbPermutesAtEachFullBlock : Obligations.AbsorbPermutesAtEachFullBlock :=
  fun r pos a data hpos => ⟨absorb_pos r (a, pos) data hpos, stateByte_absorb data pos a,
    fun v hfull => absorb_full hfull a v, absorb_nil r (a, pos), fun st d e => (absorb_append r st d e).symm⟩

/-! ## Pad -/

/-- The domain bytes of the two modes (40_sponge.md R98). -/
theorem domainByte_eq (m : SpongeMode) : domainByte m = if m = .fixed then 0x06 else 0x1F := by cases m <;> rfl

/-- The domain byte with the closing bit (40_sponge.md R98). -/
theorem domainByte_xor_closing (m : SpongeMode) : domainByte m ^^^ 0x80 = if m = .fixed then 0x86 else 0x9F := by
  cases m <;> rfl

/-- Settles O14: on the last byte of the block the two XORs are one. -/
theorem padIsTwoXorsAndOnePermutation : Obligations.PadIsTwoXorsAndOnePermutation := by
  refine fun l m a pos _ => ⟨by rw [← domainByte_eq, pad], ?_⟩
  rintro rfl
  rw [pad, xorByte_xorByte, domainByte_xor_closing]

/-! ## Squeeze -/

/-- The table of 40_sponge.md R94. -/
theorem level_row (l : SecLevel) : (l.code, l.bits, l.rate) ∈
    [(0, 128, 168), (1, 224, 144), (2, 256, 136), (3, 384, 104), (4, 512, 72)] := by
  cases l <;> decide

/-- Up to the rate the output is the first state bytes (40_sponge.md R99). -/
theorem squeeze_within {r n : Nat} (h : n ≤ r) (a : Lanes) :
    squeeze r a n = ((List.range n).map (stateByte a), a) := by
  rw [squeeze, squeezeFrom_within r n 0 a (by omega), List.range_eq_range']

/-- Beyond the rate the rest comes from the permuted state (40_sponge.md R99). -/
theorem squeeze_beyond {r n : Nat} (hr : 0 < r) (hn : 0 < n) (a : Lanes) :
    squeeze r a (r + n) = ((squeeze r a r).1 ++ (squeeze r (keccakF a) n).1, (squeeze r (keccakF a) n).2) := by
  obtain ⟨n, rfl⟩ := Nat.exists_eq_succ_of_ne_zero hn.ne'
  have hblock : squeezeFrom r (n + 1) (0 + r) a = squeeze r (keccakF a) (n + 1) := by
    rw [Nat.zero_add, squeezeFrom_full r n a hr, squeeze]
  rw [squeeze, squeezeFrom_add r r (n + 1) 0 a (by omega), hblock, ← squeeze]

/-- Settles O15, clause by clause; the rate is never 0, so a longer output has a first full block. -/
theorem squeezeReadsBlocksOfTheRate : Obligations.SqueezeReadsBlocksOfTheRate :=
  fun l a n => ⟨level_row l, squeeze_length l.rate n a, fun hn => squeeze_within hn a,
    fun hn => squeeze_beyond (rate_pos l) hn a⟩

/-! ## The source's digest -/

/-- Settles O16: one permutation of the padded empty block, evaluated by the kernel. -/
theorem sha3OfTheEmptyMessageMatchesTheSource : Obligations.Sha3OfTheEmptyMessageMatchesTheSource := by
  unfold Obligations.Sha3OfTheEmptyMessageMatchesTheSource
  decide +kernel

end Sys2Proof.Machine
end

