-- ==== Sys2Proof/Proofs/DigestCommands.lean ====
section
/-!
SPFIN and HASH case by case, the hash spellings, and hashing in chunks (40_sponge.md R100 to R103, 30_encoding.md R78).
-/

namespace Sys2Proof.Machine

/-! ## SPFIN -/

/-- The length of the digest by the mode (40_sponge.md R100). -/
theorem digestLength_eq (s : State) :
    digestLength s = if s.sponge.mode = .fixed then s.sponge.sec.bits / 8 else s.len := by
  unfold digestLength
  cases s.sponge.mode <;> rfl

/-- SPFIN outside ABSORBING raises SequenceError(0x100) (40_sponge.md R100). -/
theorem runSpfin_of_not_absorbing (c : Config) {s : State} (h : s.sponge.phase ≠ .absorbing) :
    runSpfin c s = { s with err := 5, errInfo := 0x100 } := by
  rw [runSpfin, spFinish, if_neg h]
  exact commit_error s _

/-- SPFIN of a digest beyond the capacity (40_sponge.md R100). -/
theorem runSpfin_of_not_within {c : Config} {s : State} (h : s.sponge.phase = .absorbing)
    (hcap : within c.digMax (digestLength s) = false) : runSpfin c s = { s with err := 9, errInfo := 0 } := by
  rw [runSpfin, spFinish, if_pos h, hcap, if_neg (by decide)]
  exact commit_error s _

/-- SPFIN delivers the digest and finalizes the context (40_sponge.md R100). -/
theorem runSpfin_of_within {c : Config} {s : State} {out : Bytes × Lanes} (h : s.sponge.phase = .absorbing)
    (hcap : within c.digMax (digestLength s) = true)
    (hout : out = squeeze s.sponge.sec.rate (pad s.sponge.sec.rate s.sponge.mode (s.sponge.lanes, s.sponge.pos))
      (digestLength s)) :
    runSpfin c s = { s with
      sponge := { s.sponge with lanes := out.2, pos := 0, phase := .done }
      mem := { s.mem with dig := out.1 }
      err := 0, errInfo := 0 } := by
  subst hout
  rw [runSpfin, spFinish, if_pos h, if_pos hcap]
  exact commit_ok s _

/-- Settles O20: the phase, then the capacity, then the digest. -/
theorem spfinDeliversTheDigest : Obligations.SpfinDeliversTheDigest := by
  refine fun c s => ⟨digestLength s, _, digestLength_eq s, rfl, rfl, ?_⟩
  by_cases hphase : s.sponge.phase = .absorbing
  · rw [if_neg (not_not.2 hphase)]
    cases hcap : within c.digMax (digestLength s) with
    | false => exact runSpfin_of_not_within hphase hcap
    | true => exact runSpfin_of_within hphase hcap rfl
  · rw [if_pos hphase]
    exact runSpfin_of_not_absorbing c hphase

/-! ## HASH -/

/-- HASH of an unsupported pair raises UnsupportedDigestParameter with the command word (40_sponge.md R102). -/
theorem runHash_of_unsupported (c : Config) {m : SpongeMode} {b : Byte} (h : supportedLevel m b = none) (s : State) :
    runHash c m b s = { s with err := 3, errInfo := encode (.hash m b) } := by
  rw [runHash, hashMessage, spInit, h]
  exact commit_error s _

/-- The supported pairs by their codes (40_sponge.md R95, R103). -/
theorem supportedLevel_of_code {m : SpongeMode} {b : Byte} {l : SecLevel} (hcode : l.code = b.toNat)
    (h : ¬(m = .fixed ∧ b = 0)) : supportedLevel m b = some l := by
  refine supportedLevel_some.2 ⟨hcode, supported_iff.2 ?_⟩
  rintro ⟨hm, rfl⟩
  exact h ⟨hm, BitVec.eq_of_toNat_eq hcode.symm⟩

/-- The function that a mode stands for (40_sponge.md R101). -/
theorem spongeHash_eq (m : SpongeMode) (l : SecLevel) (msg : Bytes) (len : Nat) :
    spongeHash m l msg (if m = .fixed then l.bits / 8 else len) =
      if m = .fixed then sha3 l msg else shake l msg len := by
  cases m <;> rfl

/-- HASH of a supported pair tests the capacity and delivers the hash of `MSG` (40_sponge.md R102). -/
theorem runHash_of_supported (c : Config) {m : SpongeMode} {b : Byte} {l : SecLevel} (hl : supportedLevel m b = some l)
    (s : State) {n : Nat} (hn : n = if m = .fixed then l.bits / 8 else s.len) :
    runHash c m b s =
      if within c.digMax n = false then { s with err := 9, errInfo := 0 }
      else { s with
        sponge := {
          lanes := (squeeze l.rate (pad l.rate m (absorb l.rate (zeroLanes, 0) s.mem.msg)) n).2
          mode := m, sec := l, pos := 0, phase := .done }
        mem := { s.mem with dig := if m = .fixed then sha3 l s.mem.msg else shake l s.mem.msg s.len }
        err := 0, errInfo := 0 } := by
  have hmessage := hashMessage_eq c m b (encode (.hash m b)) s hl
  dsimp only at hmessage
  rw [← hn] at hmessage
  rw [runHash, hmessage, ← spongeHash_eq, ← hn]
  cases within c.digMax n <;> rfl

/-- Settles O21: the level the pair stands for decides between rejection and the hash. -/
theorem hashDeliversTheHashFunction : Obligations.HashDeliversTheHashFunction := fun c _ _ s =>
  ⟨rfl, fun hbad => runHash_of_unsupported c (supportedLevel_none.2 hbad) s,
    fun _ _ hcode hgood hn => runHash_of_supported c (supportedLevel_of_code hcode hgood) s hn⟩

/-- Each spelling is HASH of the pair in its name (30_encoding.md R78). -/
theorem exec_hashSpelling (s : State) : ∀ p ∈ [(Instr.sha3_224, SpongeMode.fixed, SecLevel.sec224),
      (.sha3_256, .fixed, .sec256), (.sha3_384, .fixed, .sec384), (.sha3_512, .fixed, .sec512),
      (.shake128, .xof, .sec128), (.shake256, .xof, .sec256)],
    ∃ b, supportedLevel p.2.1 b = some p.2.2 ∧ exec p.1 s = .next (runHash Config.impl p.2.1 b s) := by
  intro p hp
  refine ⟨BitVec.ofNat 8 p.2.2.code, ?_, ?_⟩
  · revert p
    decide
  · fin_cases hp <;> rfl

/-- Settles O22: the spelling's pair is supported, so HASH delivers its function. -/
theorem hashSpellingsDeliverTheirFunctions : Obligations.HashSpellingsDeliverTheirFunctions := by
  intro s p hp
  obtain ⟨b, hl, hexec⟩ := exec_hashSpelling s p hp
  exact ⟨_, _, rfl, hexec.trans (congrArg Host.Outcome.next (runHash_of_supported Config.impl hl s rfl))⟩

/-! ## Hashing in chunks -/

/-- SPABS of a chunk that the host has loaded into `MSG`. -/
def absorbChunk (s : State) (chunk : Bytes) : State := runSpabs { s with mem := { s.mem with msg := chunk } }

/-- After the chunks the context has absorbed their concatenation, and what SPFIN reads beside it is as before
(40_sponge.md §3). -/
theorem foldl_absorbChunk (chunks : List Bytes) : ∀ s : State, s.sponge.phase = .absorbing →
    let t := chunks.foldl absorbChunk s
    let st := absorb s.sponge.sec.rate (s.sponge.lanes, s.sponge.pos) chunks.flatten
    t.sponge = { s.sponge with lanes := st.1, pos := st.2 } ∧ t.len = s.len ∧ t.mem.dig = s.mem.dig := by
  induction chunks with
  | nil => exact fun s _ => ⟨rfl, rfl, rfl⟩
  | cons chunk chunks ih =>
    intro s habsorbing
    have hchunk : absorbChunk s chunk = _ := runSpabs_of_absorbing habsorbing
    obtain ⟨hsponge, hlen, hdig⟩ := ih (absorbChunk s chunk) (by rw [hchunk]; exact habsorbing)
    rw [List.foldl_cons]
    refine ⟨hsponge.trans ?_, hlen.trans ?_, hdig.trans ?_⟩
    · rw [hchunk, List.flatten_cons, absorb_append]
    · rw [hchunk]
    · rw [hchunk]

/-- Settles O23: SPINIT and the chunks leave the context that HASH finalizes, so both meet the same capacity test and
squeeze the same padded state. -/
theorem chunkedHashingEqualsOneShot : Obligations.ChunkedHashingEqualsOneShot := by
  intro c m b chunks s hsupported
  obtain ⟨l, hl⟩ := Option.isSome_iff_exists.1 hsupported
  have hinit := runSpinit_of_supported hl s
  obtain ⟨t, ht⟩ : ∃ t, chunks.foldl absorbChunk (runSpinit m b s) = t := ⟨_, rfl⟩
  obtain ⟨hsponge, hlen, hdig⟩ := foldl_absorbChunk chunks (runSpinit m b s) (by rw [hinit])
  rw [ht, hinit] at hsponge hlen hdig
  have hphase : t.sponge.phase = .absorbing := by rw [hsponge]
  have hn : digestLength t = if m = .fixed then l.bits / 8 else s.len := by rw [digestLength_eq, hsponge, hlen]
  intro chunked oneShot
  have hchunked : chunked = runSpfin c t := congrArg (runSpfin c) ht
  have hone : oneShot = _ := runHash_of_supported c hl { s with mem := { s.mem with msg := chunks.flatten } } hn
  rw [hchunked, hone]
  cases hcap : within c.digMax (digestLength t) with
  | false =>
    rw [runSpfin_of_not_within hphase hcap, if_pos rfl]
    exact ⟨rfl, hdig, fun h9 : (9 : Byte) = 0 => absurd h9 (by decide)⟩
  | true =>
    rw [runSpfin_of_within hphase hcap rfl, if_neg (by decide), hsponge, ← spongeHash_eq]
    exact ⟨rfl, congrArg (spongeHash m l chunks.flatten) hn, fun _ => rfl⟩

/-! ## The empty key -/

/-- ENC on the empty key clears `CSV` and raises InvalidKey(0) before any other test (60_exceptions.md R232). -/
theorem runEnc_of_empty_key (c : Config) {s : State} (h : s.mem.key = []) :
    runEnc c s = { s with cipher := CipherState.empty, err := 1, errInfo := 0 } := by
  rw [runEnc, h, encryptWithin_of_empty_key]
  exact commitBuf_error s.clearCsv (invalidKey 0)

/-- DEC on the empty key clears `CSV` and raises InvalidKey(0) before any other test (60_exceptions.md R232). -/
theorem runDec_of_empty_key (c : Config) {s : State} (h : s.mem.key = []) :
    runDec c s = { s with cipher := CipherState.empty, err := 1, errInfo := 0 } := by
  rw [runDec, h, decrypt_of_empty_key]
  exact commitBuf_error s.clearCsv (invalidKey 0)

/-- Settles O24: the derivation commands share their test of the key; ENC and DEC make it first, after `CSV` has been
cleared. -/
theorem emptyKeyIsInvalid : Obligations.EmptyKeyIsInvalid := by
  refine fun s hempty => ⟨exec_derivation_of_empty_key hempty, fun i hi => ?_⟩
  obtain rfl | rfl : i = .enc ∨ i = .dec := by simpa using hi
  · exact congrArg Host.Outcome.next (runEnc_of_empty_key Config.impl hempty)
  · exact congrArg Host.Outcome.next (runDec_of_empty_key Config.impl hempty)

end Sys2Proof.Machine
end

