-- ==== Sys2Proof/Proofs/ExactFunctions.lean ====
section
/-!
The integer functions, the keystream, the mixing functions and the inverter as exact functions (00_scope.md R10 to R12,
42_subst_keystream_rounds.md R158, R165, 41_constants_sigma.md R128 to R134).
-/

namespace Sys2Proof.Machine

/-! ## Integers -/

/-- The set bits of a byte sequence, byte by byte (00_scope.md R10). -/
theorem popBytes_eq (bs : Bytes) :
    popBytes bs = (bs.map fun b => (List.range 8).countP fun i => b.getLsbD i).sum := by
  rw [popBytes]
  congr 2
  funext b
  rw [popNat_eq b.toNat 8 b.isLt]
  rfl

/-- The root is the largest number whose square is not above (00_scope.md R11). -/
theorem le_isqrt_iff (n r : Nat) : r ≤ isqrt n ↔ r * r ≤ n := by
  rw [isqrt_eq_sqrt, Nat.le_sqrt]

/-- The repetition count of a positive round count (42_subst_keystream_rounds.md R165). -/
theorem repetitions_of_pos {n : Nat} (h : 1 ≤ n) : repetitions n = 1 + clog2 n :=
  if_neg (Nat.one_le_iff_ne_zero.1 h)

/-- Settles O30, function by function. -/
theorem integerFunctionsAreExact : Obligations.IntegerFunctionsAreExact :=
  ⟨popNat_eq, popBytes_eq, popNat_leNat, le_isqrt_iff, rfl, fun n m hn => ⟨clog2_le n m hn, repetitions_of_pos hn⟩⟩

/-! ## Keystream -/

/-- The window of a round: the bytes before the latest digest block, ANDed with the first bytes of that block
(42_subst_keystream_rounds.md R158). -/
theorem andWindow_eq {rs : Nat} {s : Bytes} (h : rs + 32 ≤ s.length) : andWindow rs s =
    List.zipWith (· &&& ·) ((s.drop (s.length - 32 - rs)).take rs) ((s.drop (s.length - 32)).take rs) := by
  rw [andWindow, slice, slice, Nat.add_sub_cancel_left, Nat.sub_sub_self (by omega)]

/-- A round appends the digest of its window (42_subst_keystream_rounds.md R158). -/
theorem keystream_succ_round (key : Bytes) (j : Nat) :
    let s := keystream key (key.length + 32 * (j + 1))
    let rs := min key.length 32
    keystream key (key.length + 32 * (j + 2)) = s ++ sha3 .sec256 (List.zipWith (· &&& ·)
      ((s.drop (s.length - 32 - rs)).take rs) ((s.drop (s.length - 32)).take rs)) := by
  intro s rs
  have hs : s = keystreamTimes key j := keystream_round key j
  have hlen : rs + 32 ≤ (keystreamTimes key j).length := by
    rw [keystreamTimes_length]
    omega
  rw [keystream_round key (j + 1), hs, ← andWindow_eq hlen, keystreamTimes]

/-- Settles O31: the stream after any number of rounds is the longer one's beginning. -/
theorem keystreamIsKeyThenDigests : Obligations.KeystreamIsKeyThenDigests := fun key n _ =>
  ⟨keystream_length key n, fun hn => if_pos hn, keystream_round key 0, keystream_succ_round key,
    fun m hm => (keystream_take key n m hm).symm⟩

/-! ## Mixing functions -/

/-- One more bit in a parity. -/
theorem decide_odd_add_bit (n : Nat) (b : Bool) :
    decide ((n + if b = true then 1 else 0) % 2 = 1) = (b ^^ decide (n % 2 = 1)) := by
  rcases Nat.mod_two_eq_zero_or_one n with h | h <;> cases b <;> simp [Nat.add_mod, h]

/-- One bit of a XOR of rotations: the parity of how many bring a set bit there (41_constants_sigma.md R128). -/
theorem rotSum_getLsbD (l : List Nat) (x : Word) {i : Nat} (hi : i < 32) :
    (rotSum l x).getLsbD i = decide ((l.countP fun r => x.getLsbD ((i + r) % 32)) % 2 = 1) := by
  induction l with
  | nil => simp [rotSum]
  | cons r l ih =>
    rw [rotSum, List.foldr_cons, ← rotSum, BitVec.getLsbD_xor, rotr32_getLsbD x r i hi, ih, List.countP_cons]
    exact (decide_odd_add_bit _ _).symm

/-- A rotation to the left is one to the right by the rest of the width (00_scope.md R8). -/
theorem rotateLeft_eq_rotr32 (x : Word) (n : Nat) : x.rotateLeft n = rotr32 x (32 - n % 32) := by
  apply BitVec.eq_of_getLsbD_eq
  intro i hi
  rw [rotr32_getLsbD x _ i hi, BitVec.getLsbD_rotateLeft]
  by_cases h : i < n % 32
  · have hindex : (i + (32 - n % 32)) % 32 = 32 - n % 32 + i := by omega
    simp [h, hindex]
  · have hindex : (i + (32 - n % 32)) % 32 = i - n % 32 := by omega
    simp [h, hi, hindex]

/-- The mixing function commutes with rotation to the left as well. -/
theorem sigma_rotateLeft (c : Config) (k : Tag) (x : Word) (n : Nat) :
    sigma c k (x.rotateLeft n) = (sigma c k x).rotateLeft n := by
  rw [rotateLeft_eq_rotr32, rotateLeft_eq_rotr32, sigma_rotr]

/-- Settles O35: `sigma` is the XOR of the rotations by the amounts of its set. -/
theorem sigmaIsLinear : Obligations.SigmaIsLinear := by
  refine fun c k x y n => ⟨fun i hi => ?_, sigma_xor c k x y, sigma_zero c k, sigma_rotateLeft c k x n⟩
  rw [sigma_eq, rotSum_getLsbD _ x hi, List.countP_map]
  rfl

/-- Settles O37: the table of `isigma` is the inverter's for the columns of `sigma`, and what the inverter gives is a left
and a right inverse. -/
theorem sigmaAndIsigmaAreInverse : Obligations.SigmaAndIsigmaAreInverse := by
  intro c k x
  have hinverse := lininv_sigmaColumns c k
  have hleft := xorOverBits_leftInverse hinverse x
  have hright := xorOverBits_rightInverse hinverse x
  rw [sigma_columns] at hleft hright
  exact ⟨hleft, hright⟩

/-- Settles O38: dependent columns are the case in which the inverter gives nothing; for independent ones its word `i` is
the unique one sent to `e_i`. -/
theorem lininvInvertsExactlyTheBijections : Obligations.LininvInvertsExactlyTheBijections := by
  refine fun f => ⟨lininv_eq_none_iff.2, fun hindependent => ?_⟩
  obtain ⟨g, hg⟩ := lininv_isSome_of_injective hindependent
  exact ⟨g, hg, xorOverBits_eq_unitWord_iff hg⟩

end Sys2Proof.Machine
end

