-- ==== Sys2Proof/Proofs/RoundTrip.lean ====
section
/-!
The inverse stages, the round trip of encryption and decryption, the reach of the draw, and the batch commands one after
the other (43_pipeline_stages.md, 44_cipher_batch.md §3, §4).
-/

namespace Sys2Proof.Machine

/-! ## The valid bits of the stage commands -/

/-- Settles O40: each stage command tests its bits before it computes anything. -/
theorem stageCommandsNeedTheirValidBits : Obligations.StageCommandsNeedTheirValidBits := by
  intro s p hp hmissing
  fin_cases hp
  · exact congrArg Host.Outcome.next (withAddx_missing s _ hmissing)
  · exact congrArg Host.Outcome.next (withAddx_missing s _ hmissing)
  · exact congrArg Host.Outcome.next (withSelectors_missing s _ hmissing)
  · exact congrArg Host.Outcome.next (withSelectors_missing s _ hmissing)
  · exact congrArg Host.Outcome.next (withRounds_missing s _ hmissing)
  · exact congrArg Host.Outcome.next (withRounds_missing s _ hmissing)
  · exact congrArg Host.Outcome.next (withKeystream_missing s _ hmissing)
  · exact congrArg Host.Outcome.next (withKeystream_missing s _ hmissing)

/-! ## Each inverse stage undoes its stage -/

/-- Subtracting at each index what was added there. -/
theorem mapIdx_sub_mapIdx_add (f : Nat → Byte) (b : Bytes) :
    (b.mapIdx fun i v => v + f i).mapIdx (fun i v => v - f i) = b := by
  refine List.ext_getElem (by simp) fun i _ _ => ?_
  rw [List.getElem_mapIdx, List.getElem_mapIdx, BitVec.add_sub_cancel]

/-- Inverse stage 1 subtracts the bytes that stage 1 added (43_pipeline_stages.md R183). -/
theorem invStage1_stage1 (x : List Word) (b : Bytes) : invStage1 x (stage1 x b) = b :=
  mapIdx_sub_mapIdx_add (constantByte x) b

/-- A whole group is recovered from its word; the trailing bytes from their masks, which are the forward ones. -/
theorem invStage2From_stage2From (c : Config) (set k : Tag) (i : Nat) (b : Bytes) :
    invStage2From c set k i (stage2From c set k i b) = b := by
  induction hn : b.length / 4 generalizing i b with
  | zero =>
    have hshort : b.length < 4 := by omega
    rw [stage2From_tail c set k i b hshort, invStage2From_tail c set k i _ (by rwa [List.length_mapIdx])]
    exact mapIdx_sub_mapIdx_add (fun t => trailMask c set k (i + t)) b
  | succ n ih =>
    obtain ⟨b0, b1, b2, b3, rest, rfl⟩ | hshort := four_cases b
    · have hrest : rest.length / 4 = n := by
        simp only [List.length_cons] at hn
        omega
      obtain ⟨hisigma, -⟩ := sigmaAndIsigmaAreInverse c k (be32 b0 b1 b2 b3 + mixcAt c set i)
      rw [stage2From, toLE32, List.cons_append, List.cons_append, List.cons_append, List.cons_append, List.nil_append,
        invStage2From, le32_wordByte, hisigma, BitVec.add_sub_cancel, toBE32_be32, ih (i + 1) rest hrest]
      rfl
    · omega

/-- Each iteration backwards undoes the last one forwards (43_pipeline_stages.md R191). -/
theorem invSubstRotate_substRotate (c : Config) (n : Nat) (b : Bytes) :
    invSubstRotate c n (substRotate c n b) = b := by
  induction n with
  | zero => rfl
  | succ n ih =>
    have hsbox : isboxAt c ∘ sboxAt c = id := funext (isboxAt_sboxAt c)
    rw [substRotate_succ', invSubstRotate, rotrSeq_rotlSeq, List.map_map, hsbox, List.map_id, ih]

/-- Inverse stage 3 undoes the table first, then the iterations (43_pipeline_stages.md R191). -/
theorem invStage3_stage3 (c : Config) (n : Nat) (t : Vector Byte 256) (b : Bytes) :
    invStage3 c n t (stage3 c n t b) = b := by
  rw [invStage3, stage3, mapIdx_sub_mapIdx_add (fun i => t[i % 256]), invSubstRotate_substRotate]

/-- Inverse stage 4 reads the length that stage 4 wrote into the last byte (43_pipeline_stages.md R195). -/
theorem invStage4_stage4 {x : Bytes} (h : x.length ≤ 255) (b : Bytes) : invStage4 (stage4 x b) = .ok b := by
  have htrailer : (BitVec.ofNat 8 x.length).toNat = x.length := by
    rw [BitVec.toNat_ofNat]
    omega
  rw [stage4, invStage4_append, htrailer, List.length_append, if_neg (by omega), Nat.add_sub_cancel,
    List.take_left]

/-- Stage 5 is its own inverse (43_pipeline_stages.md R197). -/
theorem stage5_stage5 {ks b : Bytes} (h : ks.length = b.length) : stage5 ks (stage5 ks b) = b := by
  refine List.ext_getElem (by simp [stage5, h]) fun i _ _ => ?_
  simp [stage5]

/-- Settles O47, stage by stage. -/
theorem inverseStagesUndoTheStages : Obligations.InverseStagesUndoTheStages := fun c b =>
  ⟨fun x => invStage1_stage1 x b, fun set k => invStage2From_stage2From c set k 0 b, fun n t => invStage3_stage3 c n t b,
    fun _ hx => invStage4_stage4 hx b, fun _ hks => stage5_stage5 hks⟩

/-! ## Encryption and decryption -/

/-- Stages 1 to 3 of encryption, in which the draw has no part (44_cipher_batch.md R210). -/
def bodyStages (c : Config) (k : Tag) (key p : Bytes) : Bytes :=
  stage3 c (roundRegs c key).rounds (tgen c key).table
    (stage2 c (csel key) k (stage1 (cext (addcSet c (csel key)) p.length) p))

/-- Stages 1 to 3 keep the length. -/
theorem bodyStages_length (c : Config) (k : Tag) (key p : Bytes) : (bodyStages c k key p).length = p.length := by
  rw [bodyStages, stage3_length, stage2, stage2From_length, stage1_length]

/-- Encryption appends the trailer to the body and masks the whole (44_cipher_batch.md R210). -/
theorem encryptStages_eq (c : Config) (k : Tag) (key p x : Bytes) : encryptStages c k key p x =
    stage5 (keystream key (p.length + x.length + 1)) (stage4 x (bodyStages c k key p)) := rfl

/-- The keystream of encryption has the length of what it masks. -/
theorem keystream_length_eq_trailed (c : Config) (k : Tag) (key p x : Bytes) :
    (keystream key (p.length + x.length + 1)).length = (stage4 x (bodyStages c k key p)).length := by
  rw [keystream_length, stage4_length, bodyStages_length]

/-- The inverse stages 3, 2, 1 undo the body: stage 1 derives the same constants, for the same length. -/
theorem decryptStages_bodyStages (c : Config) (k : Tag) (key p : Bytes) :
    decryptStages c k key (bodyStages c k key p) = p := by
  rw [decryptStages_eq, bodyStages_length, bodyStages, invStage3_stage3]
  exact (congrArg _ (invStage2From_stage2From c (csel key) k 0 _)).trans (invStage1_stage1 _ p)

/-- Decryption under the key of an encryption gives the plaintext (44_cipher_batch.md R214). -/
theorem decrypt_encryptStages {c : Config} {k : Tag} {key p x : Bytes} (hkey : key ≠ []) (hk : ssel key = .ok k)
    (hx : x.length ≤ 255) : decrypt c (encryptStages c k key p x) key = .ok p := by
  have hlen := encryptStages_length c k key p x
  have hne : encryptStages c k key p x ≠ [] := List.ne_nil_of_length_pos (by omega)
  have hopen : invStage4 (stage5 (keystream key (encryptStages c k key p x).length) (encryptStages c k key p x)) =
      .ok (bodyStages c k key p) := by
    rw [hlen, encryptStages_eq, stage5_stage5 (keystream_length_eq_trailed c k key p x), invStage4_stage4 hx]
  rw [decrypt, if_neg hkey, hk]
  dsimp only
  rw [if_neg hne, hopen]
  exact congrArg Except.ok (decryptStages_bodyStages c k key p)

/-- Settles O50: a ciphertext is the encryption stages under a key that has a tag, which decryption finds again. -/
theorem decryptUndoesEncrypt : Obligations.DecryptUndoesEncrypt := by
  intro c p key x ct hct
  obtain ⟨hkey, k, hk, hx, rfl⟩ := encrypt_ok hct
  exact ⟨encryptStages_length c k key p x, decrypt_encryptStages hkey hk hx⟩

/-- Before the appended region the ciphertext is the masked body (44_cipher_batch.md R216). -/
theorem encryptStages_take (c : Config) (k : Tag) (key p x : Bytes) :
    (encryptStages c k key p x).take p.length = stage5 (keystream key p.length) (bodyStages c k key p) := by
  have hbody : (stage4 x (bodyStages c k key p)).take p.length = bodyStages c k key p := by
    rw [stage4, List.append_assoc, List.take_left' (bodyStages_length c k key p)]
  rw [encryptStages_eq, stage5, List.take_zipWith, hbody, keystream_take key _ _ (by omega), stage5]

/-- The last byte of the ciphertext is the masked length of the extension (44_cipher_batch.md R216). -/
theorem encryptStages_getLast? (c : Config) (k : Tag) (key p x : Bytes) : (encryptStages c k key p x).getLast? =
    (keystream key (p.length + x.length + 1))[p.length + x.length]?.map (BitVec.ofNat 8 x.length ^^^ ·) := by
  have htrailer : (stage4 x (bodyStages c k key p))[p.length + x.length]? = some (BitVec.ofNat 8 x.length) := by
    rw [stage4, ← bodyStages_length c k key p, ← List.length_append, List.getElem?_concat_length]
  rw [List.getLast?_eq_getElem?, encryptStages_length, Nat.add_sub_cancel, encryptStages_eq, stage5,
    List.getElem?_zipWith, htrailer]
  cases (keystream key (p.length + x.length + 1))[p.length + x.length]? <;> rfl

/-- Settles O51: both ciphertexts come from the same tag, so the draws enter through the trailer alone. -/
theorem drawsOnlyReachTheAppendedRegion : Obligations.DrawsOnlyReachTheAppendedRegion := by
  intro c p key x x' ct ct' hct hct'
  obtain ⟨-, k, hk, -, rfl⟩ := encrypt_ok hct
  obtain ⟨-, k', hk', -, rfl⟩ := encrypt_ok hct'
  obtain rfl : k = k' := Except.ok.inj (hk.symm.trans hk')
  refine ⟨by rw [encryptStages_take, encryptStages_take], fun hlen => ?_⟩
  rw [encryptStages_getLast?, encryptStages_getLast?, hlen]

/-! ## Batches -/

/-- Settles O54: the order of every schedule is a rearrangement of all indices. -/
theorem everyInterleavingGivesTheSameTable : Obligations.EveryInterleavingGivesTheSameTable := by
  intro f schedule nb items hnb
  have hperm := interleave_perm schedule (workers nb items.length)
  rw [workers_flatten nb items.length hnb] at hperm
  exact processItems_perm f hperm

/-- A batch ends in success exactly where its block size is not 0 and every item got the code 0
(44_cipher_batch.md R218). -/
theorem runBatch_err_eq_zero_iff (f : Item → Item) (schedule : List Nat) (s : State) :
    (runBatch f schedule s).err = 0 ↔ s.nblock ≠ 0 ∧ ∀ it ∈ s.items, (f it).err = 0 := by
  by_cases hzero : s.nblock = 0
  · rw [runBatch_zero f schedule s hzero]
    simp [hzero]
  · have hall : firstFailed (s.items.map f) = none ↔ ∀ it ∈ s.items, (f it).err = 0 := by
      rw [firstFailed_none, List.forall_mem_map]
    rw [runBatch_pos f schedule s hzero, ← hall]
    cases firstFailed (s.items.map f) <;> simp [hzero]

/-- What a batch leaves in the item table (44_cipher_batch.md R218). -/
theorem runBatch_items {f : Item → Item} {schedule : List Nat} {s : State} (h : s.nblock ≠ 0) :
    (runBatch f schedule s).items = s.items.map f := by
  rw [runBatch_pos f schedule s h]

/-- An item that BENC encrypted is restored by BDEC (44_cipher_batch.md R219). -/
theorem decryptItem_encryptItem {c : Config} {it : Item} (h : (encryptItem c it).err = 0) :
    decryptItem c (encryptItem c it) = { it with err := 0 } := by
  rw [encryptItem] at h ⊢
  cases hresult : encryptWithin c it.data it.key it.ext with
  | ok ct =>
    obtain ⟨hct, -⟩ := encryptWithin_ok hresult
    obtain ⟨-, hplain⟩ := decryptUndoesEncrypt c it.data it.key it.ext ct hct
    exact congrArg (Item.store { it with data := ct, err := 0 }) hplain
  | error e =>
    rw [hresult] at h
    exact absurd h (num_ne_zero e.code)

/-- Settles O57: no item failed, so each holds its ciphertext, and the second batch gives every item its data back. -/
theorem batchDecryptRestoresTheItems : Obligations.BatchDecryptRestoresTheItems := by
  intro mode mode' s t nb hnb hbenc herr
  obtain rfl : runBenc Config.impl mode s = t := Host.Outcome.next.inj hbenc
  obtain ⟨hblock, hall⟩ := (runBatch_err_eq_zero_iff _ _ s).1 herr
  have hnb0 : nb ≠ 0 := by omega
  have htable : (runBenc Config.impl mode s).items = s.items.map (encryptItem Config.impl) := runBatch_items hblock
  have hrestored : ∀ it ∈ s.items, decryptItem Config.impl (encryptItem Config.impl it) = { it with err := 0 } :=
    fun it hit => decryptItem_encryptItem (hall it hit)
  refine ⟨_, rfl, (runBatch_err_eq_zero_iff _ _ _).2 ⟨hnb0, ?_⟩, ?_⟩
  · dsimp only
    rw [htable, List.forall_mem_map]
    intro it hit
    rw [hrestored it hit]
  · refine (congrArg _ (runBatch_items hnb0)).trans ?_
    dsimp only
    rw [htable, List.map_map, List.map_map]
    refine List.map_congr_left fun it hit => ?_
    rw [Function.comp_apply, Function.comp_apply, hrestored it hit]

end Sys2Proof.Machine
end

