-- ==== Sys2Proof/Proofs/StageSequences.lean ====
section
/-!
ENC and DEC as sequences of the derivation and stage commands (44_cipher_batch.md R211, R213).
-/

namespace Sys2Proof.Machine

/-- `LEN <- BUFLEN`, as the host sets it between the commands of a sequence. -/
def setLen (s : State) : State := { s with len := s.mem.buf.length }

/-- DSSEL, DTGEN and DRND in order write the tag, the tables and the round registers of the key. -/
theorem runDrnd_runDtgen_runDssel (c : Config) {s : State} {k : Tag} (hkey : s.mem.key ≠ [])
    (hk : ssel s.mem.key = .ok k) :
    runDrnd c (runDtgen c (runDssel s)) = { s with
      cipher := { s.cipher with
        ssel := some k, tables := some (tgen c s.mem.key), rounds := some (roundRegs c s.mem.key) }
      err := 0, errInfo := 0 } := by
  rw [runDssel_of_tag hkey hk, runDtgen_of_key, runDrnd_of_key]
  · exact hkey
  · exact hkey

/-- ENC that ends in success had a key with a tag, an extension that fits and a ciphertext within the capacity, which is
what it leaves (44_cipher_batch.md R211). -/
theorem runEnc_of_err_zero {c : Config} {s : State} (h : (runEnc c s).err = 0) :
    s.mem.key ≠ [] ∧ s.mem.ext.length ≤ 255 ∧
      within c.bufMax (s.mem.buf.length + s.mem.ext.length + 1) = true ∧
      ∃ k, ssel s.mem.key = .ok k ∧ runEnc c s = { s with
        mem := { s.mem with buf := encryptStages c k s.mem.key s.mem.buf s.mem.ext }
        cipher := CipherState.empty, err := 0, errInfo := 0 } := by
  obtain ⟨ct, hresult⟩ := commitBuf_err_zero h
  obtain ⟨hct, hcap⟩ := encryptWithin_ok hresult
  obtain ⟨hkey, k, hk, hext, rfl⟩ := encrypt_ok hct
  rw [encryptStages_length] at hcap
  refine ⟨hkey, hext, hcap, k, hk, ?_⟩
  rw [runEnc, hresult]
  exact commitBuf_ok s.clearCsv _

/-- The cipher state with every derived value that stages 1 to 3 of encryption read. -/
def encryptionCipher (c : Config) (s : State) (k : Tag) : CipherState :=
  { s.cipher with
    csel := some (csel s.mem.key)
    addx := some (cext (addcSet c (csel s.mem.key)) s.mem.buf.length)
    ssel := some k
    tables := some (tgen c s.mem.key)
    rounds := some (roundRegs c s.mem.key) }

/-- DCEXT, DSSEL, DTGEN, DRND and ST1 to ST4 leave the trailed body of the ciphertext (44_cipher_batch.md R211). -/
theorem stageCommands_forward {c : Config} {s : State} {k : Tag} (hkey : s.mem.key ≠ [])
    (hk : ssel s.mem.key = .ok k) (hext : s.mem.ext.length ≤ 255)
    (hcap : within c.bufMax (s.mem.buf.length + s.mem.ext.length + 1) = true) :
    runSt4 c (runSt3 c (runSt2 c (runSt1 (runDrnd c (runDtgen c (runDssel (runDcext c (setLen s)))))))) =
      { s with
        mem := { s.mem with buf := stage4 s.mem.ext (bodyStages c k s.mem.key s.mem.buf) }
        len := s.mem.buf.length, cipher := encryptionCipher c s k, err := 0, errInfo := 0 } := by
  have hdcext := runDcext_of_key c (s := setLen s) hkey
  rw [← bodyStages_length c k s.mem.key s.mem.buf] at hcap
  rw [hdcext, runDrnd_runDtgen_runDssel (k := k), runSt1, withAddx_of_some rfl, runSt2, withSelectors_of_some rfl rfl,
    runSt3, withRounds_of_some rfl rfl, runSt4_of_within]
  · rfl
  · exact hext
  · exact hcap
  · exact hkey
  · exact hk

/-- `LEN <- BUFLEN`, DKS and ST5 mask the whole buffer with the keystream of its length (44_cipher_batch.md R211,
R213). -/
theorem keystreamCommands {s : State} (hkey : s.mem.key ≠ []) :
    runSt5 (runDks (setLen s)) = { s with
      mem := { s.mem with buf := stage5 (keystream s.mem.key s.mem.buf.length) s.mem.buf }
      len := s.mem.buf.length
      cipher := { s.cipher with ks := some (keystream s.mem.key s.mem.buf.length) }
      err := 0, errInfo := 0 } := by
  have hdks := runDks_of_key (s := setLen s) hkey
  rw [hdks, runSt5_of_length_eq rfl (keystream_length _ _)]
  rfl

/-- Settles O52: the commands up to ST4 leave the trailed body, and the keystream of its length masks it as `encrypt`
does. -/
theorem encEqualsTheStageCommands : Obligations.EncEqualsTheStageCommands := by
  intro c s herr
  obtain ⟨hkey, hext, hcap, k, hk, henc⟩ := runEnc_of_err_zero herr
  intro _ afterStage4 final
  have hafter : afterStage4 = _ := stageCommands_forward hkey hk hext hcap
  have hfinal : final = runCsclr (runSt5 (runDks (setLen afterStage4))) := rfl
  rw [hfinal, hafter, keystreamCommands, runCsclr_eq, henc, encryptStages_eq,
    ← bodyStages_length c k s.mem.key s.mem.buf, ← stage4_length]
  · exact ⟨rfl, rfl, rfl⟩
  · exact hkey

/-- DEC that ends in success had a key with a tag and a trailer that fits, and leaves the plaintext
(44_cipher_batch.md R213). -/
theorem runDec_of_err_zero {c : Config} {s : State} (h : (runDec c s).err = 0) :
    s.mem.key ≠ [] ∧ ∃ k b, ssel s.mem.key = .ok k ∧
      invStage4 (stage5 (keystream s.mem.key s.mem.buf.length) s.mem.buf) = .ok b ∧ runDec c s = { s with
        mem := { s.mem with buf := decryptStages c k s.mem.key b }
        cipher := CipherState.empty, err := 0, errInfo := 0 } := by
  obtain ⟨p, hresult⟩ := commitBuf_err_zero h
  obtain ⟨hkey, -, k, b, hk, hb, rfl⟩ := decrypt_ok hresult
  refine ⟨hkey, k, b, hk, hb, ?_⟩
  rw [runDec, hresult]
  exact commitBuf_ok s.clearCsv _

/-- IST4 leaves what `IS4` gives (43_pipeline_stages.md R196). -/
theorem runIst4_of_ok {s : State} {b : Bytes} (h : invStage4 s.mem.buf = .ok b) :
    runIst4 s = { s with mem := { s.mem with buf := b }, err := 0, errInfo := 0 } := by
  rw [runIst4, h, commitBuf_ok]

/-- The cipher state with every derived value that stages 5, 3 and 2 of decryption read. -/
def decryptionCipher (c : Config) (s : State) (k : Tag) : CipherState :=
  { s.cipher with
    csel := some (csel s.mem.key)
    ssel := some k
    tables := some (tgen c s.mem.key)
    ks := some (keystream s.mem.key s.mem.buf.length)
    rounds := some (roundRegs c s.mem.key) }

/-- DKS, ST5, IST4, DSSEL, DTGEN, DRND, IST3, DCSEL and IST2 undo stages 5 to 2 (44_cipher_batch.md R213). -/
theorem stageCommands_backward {c : Config} {s : State} {k : Tag} {b : Bytes} (hkey : s.mem.key ≠ [])
    (hk : ssel s.mem.key = .ok k)
    (hb : invStage4 (stage5 (keystream s.mem.key s.mem.buf.length) s.mem.buf) = .ok b) :
    runIst2 c (runDcsel (runIst3 c (runDrnd c (runDtgen c (runDssel (runIst4 (runSt5 (runDks (setLen s))))))))) =
      { s with
        mem := { s.mem with
          buf := invStage2 c (csel s.mem.key) k (invStage3 c (roundRegs c s.mem.key).rounds (tgen c s.mem.key).table b) }
        len := s.mem.buf.length, cipher := decryptionCipher c s k, err := 0, errInfo := 0 } := by
  rw [keystreamCommands hkey, runIst4_of_ok (b := b), runDrnd_runDtgen_runDssel (k := k), runIst3,
    withRounds_of_some rfl rfl, runDcsel_of_key, runIst2, withSelectors_of_some rfl rfl]
  · rfl
  · exact hkey
  · exact hkey
  · exact hk
  · exact hb

/-- Settles O53: the commands up to IST2 undo stages 5 to 2, and stage 1 is undone with the constants of the length that
is left. -/
theorem decEqualsTheStageCommands : Obligations.DecEqualsTheStageCommands := by
  intro c s herr
  obtain ⟨hkey, k, b, hk, hb, hdec⟩ := runDec_of_err_zero herr
  intro _ afterStage2 final
  have hafter : afterStage2 = _ := stageCommands_backward hkey hk hb
  have hfinal : final = runCsclr (runIst1 (runDcext c (setLen afterStage2))) := rfl
  rw [hfinal, hafter, runDcext_of_key, runIst1, withAddx_of_some rfl, runCsclr_eq, hdec]
  · refine ⟨?_, rfl, rfl⟩
    rw [decryptStages]
    rfl
  · exact hkey

end Sys2Proof.Machine
end

