-- ==== Sys2Proof/Proofs/HostOperations.lean ====
section
/-!
The operations of the host (20_memory.md R66): what the writing rows write, what the reading rows return, and which
operations are refused.
-/

namespace Sys2Proof.Machine

/-! ## Writes -/

/-- A load within the capacity replaces the buffer, and for `KEY` clears `CSV` (20_memory.md R66). -/
theorem hostLoad_of_within {c : Config} {n : LoadName} {b : Bytes} (h : within (loadCapacity c n) b.length = true)
    (s : State) : hostLoad c n b s = .next { s with
      mem := s.mem.put n.target b, cipher := if n = .key then CipherState.empty else s.cipher } := by
  rw [hostLoad, if_pos h]
  cases n <;> rfl

/-- A value fits `LEN` where a finite width does not cut it (20_memory.md R66). -/
theorem fitsWidth_len_iff {c : Config} {v : Nat} :
    fitsWidth c .len v = true ↔ ∀ n, c.lenBits = some n → v < 2 ^ n := by
  cases hbits : c.lenBits <;> simp [fitsWidth, hbits]

/-- `LEN` takes a value that fits (20_memory.md R66). -/
theorem hostSetReg_len {c : Config} {v : Nat} (h : fitsWidth c .len v = true) (s : State) :
    hostSetReg c .len v s = .next { s with len := v } :=
  if_pos h

/-- Every word fits `W`, which then holds it. -/
theorem hostSetReg_word (c : Config) (v : Word) (s : State) : hostSetReg c .w v.toNat s = .next { s with w := v } := by
  have hfits : fitsWidth c .w v.toNat = true := decide_eq_true v.isLt
  have hset : hostSetReg c .w v.toNat s = .next { s with w := BitVec.ofNat 32 v.toNat } := if_pos hfits
  rw [hset, BitVec.ofNat_toNat, BitVec.setWidth_eq]

/-- `NBLOCK` takes every value (20_memory.md R66). -/
theorem hostSetReg_nblock (c : Config) (v : Nat) (s : State) : hostSetReg c .nblock v s = .next { s with nblock := v } :=
  if_pos rfl

/-- A list of items that fits replaces the table, every code 0 (20_memory.md R66). -/
theorem hostLoadItems_of_fits {c : Config} {l : List (Bytes × Bytes × Bytes)}
    (hcount : within c.nitemsMax l.length = true) (hfit : ∀ it ∈ l, itemFits c it = true) (s : State) :
    hostLoadItems c l s = .next { s with
      items := l.map fun it => { key := it.1, data := it.2.1, ext := it.2.2, err := 0 } } := by
  rw [hostLoadItems, hcount, List.all_eq_true.2 hfit]
  rfl

/-- Settles O58, row by row. -/
theorem hostWritesDoWhatTheTableSays : Obligations.HostWritesDoWhatTheTableSays := fun c s =>
  ⟨fun _ _ => step_of_pending, fun _ _ => rfl, fun _ hb => hostLoad_of_within (n := .key) hb s,
    fun _ hb => hostLoad_of_within (n := .buf) hb s, fun _ => hostLoad_of_within (n := .ext) rfl s,
    fun _ hb => hostLoad_of_within (n := .msg) hb s, fun _ _ => rfl,
    fun _ hv => hostSetReg_len (fitsWidth_len_iff.2 hv) s, fun v => hostSetReg_word c v s,
    fun v => hostSetReg_nblock c v s, fun _ _ => rfl, fun _ => rfl,
    fun _ hcount hfit => hostLoadItems_of_fits hcount hfit s, rfl⟩

/-! ## Reads -/

/-- `HostRead` of one byte that exists (20_memory.md R66). -/
theorem hostReadByte_of_some {s : State} {b : BufName} {i : Nat} {v : Byte} (h : (s.mem.get b)[i]? = some v) :
    hostReadByte b i s = .next (s.answer (.number v.toNat)) := by
  obtain ⟨hi, hv⟩ := List.getElem?_eq_some_iff.1 h
  have hread : memRead s.mem b i 1 = some [v] := by
    rw [memRead_some _ _ _ _ hi, List.take_one_drop_eq_of_lt_length hi, ← hv]
    rfl
  rw [hostReadByte, hread]
  simp [leNat]

/-- A register that holds a value is returned (20_memory.md R66). -/
theorem hostGetReg_of_some {s : State} {r : Fin 22} {v : Nat} (h : getReg s r = some v) :
    hostGetReg r s = .next (s.answer (.number v)) := by
  rw [hostGetReg, h]

/-- An array element that holds a value is returned (20_memory.md R66). -/
theorem hostGetArr_of_some {c : Config} {s : State} {x : ArrName} {i : Nat} {v : Reply} (h : getArr c s x i = some v) :
    hostGetArr c x i s = .next (s.answer v) := by
  rw [hostGetArr, h]

/-- `CSV` as a number: the sum of its valid bits (10_state.md R27). -/
theorem csv_toNat (cs : CipherState) : cs.csv.toNat =
    (if cs.csel.isSome then 1 else 0) + (if cs.addx.isSome then 2 else 0) + (if cs.ssel.isSome then 4 else 0) +
      (if cs.tables.isSome then 8 else 0) + (if cs.ks.isSome then 16 else 0) + (if cs.rounds.isSome then 32 else 0) := by
  unfold CipherState.csv validBit
  generalize cs.csel.isSome = v0, cs.addx.isSome = v1, cs.ssel.isSome = v2, cs.tables.isSome = v3, cs.ks.isSome = v4,
    cs.rounds.isSome = v5
  revert v0 v1 v2 v3 v4 v5
  decide

/-- Register 9 field by field (10_state.md R35). -/
theorem packed_eq (sp : Sponge) : sp.packed = (if sp.mode = .fixed then 0 else 1) + 2 * sp.sec.code +
    16 * (if sp.phase = .idle then 0 else if sp.phase = .absorbing then 1 else 2) + 64 * sp.pos := by
  have hmode : modeBit sp.mode = if sp.mode = .fixed then 0 else 1 := by cases sp.mode <;> rfl
  have hphase : sp.phase.code = if sp.phase = .idle then 0 else if sp.phase = .absorbing then 1 else 2 := by
    cases sp.phase <;> rfl
  rw [Sponge.packed, hmode, hphase]

/-- The length registers of the cipher state (10_state.md R35, R39). -/
theorem lengthOr0_eq {α : Type} (s : Option (List α)) : lengthOr0 s = (s.map List.length).getD 0 := by
  cases s <;> rfl

/-- Register 20 (10_state.md R35). -/
theorem vIB_toNat (s : State) : s.vIB.toNat = if s.ib.isSome then 1 else 0 := by
  rw [State.vIB]
  cases s.ib.isSome <;> rfl

/-- An element of a fixed array. -/
theorem numberAt_vector {w n : Nat} (xs : Vector (BitVec w) n) (i : Fin n) :
    numberAt xs.toList i = some (.number xs[i].toNat) := by
  simp [numberAt]

/-- An element of a sequence. -/
theorem numberAt_of_some {w : Nat} {xs : List (BitVec w)} {i : Nat} {v : BitVec w} (h : xs[i]? = some v) :
    numberAt xs i = some (.number v.toNat) := by
  rw [numberAt, h]
  rfl

/-- The inverse box at an entry of the box is the entry's index (00_scope.md R5). -/
theorem isboxList_sbox (c : Config) (i : Fin 256) :
    numberAt (isboxList c) c.sbox[i].toNat = some (.number i.val) := by
  have hindex : c.sbox[i] = sboxAt c (BitVec.ofNat 8 i.val) := by
    simp [sboxAt]
  have hentry : (isboxList c)[c.sbox[i].toNat]? = some (BitVec.ofNat 8 i.val) := by
    rw [isboxList, List.getElem?_map, List.getElem?_range c.sbox[i].isLt, Option.map_some, BitVec.ofNat_toNat,
      BitVec.setWidth_eq, hindex, isboxAt_sboxAt]
  rw [numberAt_of_some hentry, BitVec.toNat_ofNat, Nat.mod_eq_of_lt i.isLt]

/-- The catalog of rotation offsets by lane index (40_sponge.md R92). -/
theorem rhoList_lane (x y : Fin 5) : rhoList[x.val + 5 * y.val]? = some (rotationOffset x y) := by
  revert x y
  decide

/-- The catalog of round constants (40_sponge.md R91). -/
theorem roundConstants_get (ir : Fin 24) : ((List.finRange 24).map roundConstant)[ir.val]? = some (roundConstant ir) := by
  simp

/-- The table of registers (10_state.md R35): most rows are their field by definition. -/
theorem getReg_table (s : State) :
    getReg s 9 = some ((if s.sponge.mode = .fixed then 0 else 1) + 2 * s.sponge.sec.code +
      16 * (if s.sponge.phase = .idle then 0 else if s.sponge.phase = .absorbing then 1 else 2) + 64 * s.sponge.pos) ∧
    getReg s 10 = some ((s.cipher.addx.map List.length).getD 0) ∧
    getReg s 11 = some ((s.cipher.ks.map List.length).getD 0) ∧
    getReg s 12 = some ((if s.cipher.csel.isSome then 1 else 0) + (if s.cipher.addx.isSome then 2 else 0) +
      (if s.cipher.ssel.isSome then 4 else 0) + (if s.cipher.tables.isSome then 8 else 0) +
      (if s.cipher.ks.isSome then 16 else 0) + (if s.cipher.rounds.isSome then 32 else 0)) ∧
    getReg s 20 = some (if s.ib.isSome then 1 else 0) :=
  ⟨congrArg some (packed_eq s.sponge), congrArg some (lengthOr0_eq s.cipher.addx),
    congrArg some (lengthOr0_eq s.cipher.ks), congrArg some (csv_toNat s.cipher), congrArg some (vIB_toNat s)⟩

/-- Settles O59: a read is one of three that answer a value; then the registers and the arrays one by one. -/
theorem hostReadsHaveNoSideEffect : Obligations.HostReadsHaveNoSideEffect := by
  intro s rest
  refine ⟨fun b h => step_of_pending h, fun b i v h hv => (step_of_pending h).trans (hostReadByte_of_some hv),
    fun r v h hv => (step_of_pending h).trans (hostGetReg_of_some hv),
    fun x i v h hv => (step_of_pending h).trans (hostGetArr_of_some hv), ?_, fun c => ?_⟩
  · obtain ⟨h9, h10, h11, h12, h20⟩ := getReg_table s
    exact ⟨rfl, rfl, rfl, rfl, rfl, rfl, rfl, rfl, rfl, h9, h10, h11, h12, rfl, rfl, rfl, rfl, rfl, rfl, rfl, h20, rfl⟩
  · refine ⟨numberAt_vector s.sponge.lanes, numberAt_vector s.fb, fun g hg i => ?_, fun t ht i => ?_,
      fun x i v hx hv => ?_, fun ks i v hks hv => ?_,
      fun k i => ⟨numberAt_vector c.addc[k] i, numberAt_vector c.mixc[k] i, numberAt_vector (invb c k) i⟩,
      fun i => ⟨numberAt_vector c.sbox i, isboxList_sbox c i⟩, fun ir => numberAt_of_some (roundConstants_get ir),
      fun x y => congrArg (Option.map Reply.number) (rhoList_lane x y), fun i it hit => ?_⟩
    · rw [getArr, hg]
      exact numberAt_vector g i
    · rw [getArr, getArr, ht]
      exact ⟨numberAt_vector t.nkey i, numberAt_vector t.table i⟩
    · rw [getArr, hx]
      exact numberAt_of_some hv
    · rw [getArr, hks]
      exact numberAt_of_some hv
    · rw [getArr, getArr, getArr, getArr, hit]
      exact ⟨rfl, rfl, rfl, rfl⟩

/-! ## Refusals -/

/-- A length is beyond a finite capacity. -/
theorem within_eq_false_iff {cap : Option Nat} {n : Nat} : within cap n = false ↔ ∃ m, m < n ∧ cap = some m := by
  cases cap <;> simp [within]

/-- A load is refused beyond the buffer's capacity (20_memory.md R66). -/
theorem hostLoad_refused_iff {c : Config} {s : State} {n : LoadName} {b : Bytes} :
    hostLoad c n b s = .refused .loadExceedsCapacity ↔
      ∃ m, m < b.length ∧ (n = .key ∧ c.keyMax = some m ∨ n = .buf ∧ c.bufMax = some m ∨ n = .msg ∧ c.msgMax = some m) := by
  have hcap : hostLoad c n b s = .refused .loadExceedsCapacity ↔ within (loadCapacity c n) b.length = false := by
    unfold hostLoad
    split <;> simp_all
  rw [hcap, within_eq_false_iff]
  cases n <;> simp [loadCapacity]

/-- A byte read is refused at or above the length (20_memory.md R66). -/
theorem hostReadByte_refused_iff {s : State} {b : BufName} {i : Nat} :
    hostReadByte b i s = .refused .readBeyondLength ↔ (s.mem.get b).length ≤ i := by
  rcases Nat.lt_or_ge i (s.mem.get b).length with h | h
  · rw [hostReadByte_of_some (List.getElem?_eq_getElem h)]
    simp [h]
  · rw [hostReadByte, memRead_none _ _ _ _ (Nat.lt_succ_of_le h)]
    simp [h]

/-- A register write is refused where the value does not fit (20_memory.md R66). -/
theorem hostSetReg_refused_iff {c : Config} {s : State} {r : SetName} {v : Nat} :
    hostSetReg c r v s = .refused .valueExceedsWidth ↔
      r = .w ∧ 2 ^ 32 ≤ v ∨ r = .len ∧ ∃ n, c.lenBits = some n ∧ 2 ^ n ≤ v := by
  have hfits : hostSetReg c r v s = .refused .valueExceedsWidth ↔ ¬ fitsWidth c r v = true := by
    unfold hostSetReg
    split <;> simp_all
  rw [hfits]
  cases r with
  | len => simp [fitsWidth_len_iff]
  | w => simp [fitsWidth]
  | nblock => simp [fitsWidth]

/-- A register read is refused where its group holds no value (20_memory.md R66). -/
theorem hostGetReg_refused_iff {s : State} {r : Fin 22} :
    hostGetReg r s = .refused .registerHoldsNoValue ↔
      r = 13 ∧ s.cipher.csv.getLsbD 0 = false ∨ r = 14 ∧ s.cipher.csv.getLsbD 2 = false ∨
        r ∈ [15, 16, 17, 21] ∧ s.cipher.csv.getLsbD 5 = false := by
  have hnone : hostGetReg r s = .refused .registerHoldsNoValue ↔ getReg s r = none := by
    unfold hostGetReg
    split <;> simp_all
  obtain ⟨hcsel, -, hssel, -, -, hrounds⟩ := csv_bits s.cipher
  rw [hnone, hcsel, hssel, hrounds]
  fin_cases r <;> simp [getReg]

/-- No element at or above the length. -/
theorem numberAt_eq_none_iff {w : Nat} {xs : List (BitVec w)} {i : Nat} : numberAt xs i = none ↔ xs.length ≤ i := by
  simp [numberAt]

/-- No element of an array that holds no value, and none at or above its length. -/
theorem numberAtValid_eq_none_iff {w : Nat} {xs : Option (List (BitVec w))} {i : Nat} :
    numberAtValid xs i = none ↔ xs.isSome = false ∨ ∃ ys, xs = some ys ∧ ys.length ≤ i := by
  cases xs <;> simp [numberAtValid, numberAt_eq_none_iff]

/-- The same where every value of the register is `n` elements long. -/
theorem numberAtValid_map_eq_none_iff {α : Type} {w n : Nat} {f : α → List (BitVec w)} (hf : ∀ a, (f a).length = n)
    {xs : Option α} {i : Nat} : numberAtValid (xs.map f) i = none ↔ xs.isSome = false ∨ n ≤ i := by
  cases xs <;> simp [numberAtValid, numberAt_eq_none_iff, hf]

/-- The length of each array decides, and the valid bit of those that have one (20_memory.md R66). -/
theorem hostGetArr_refused_iff {c : Config} {s : State} {x : ArrName} {i : Nat} :
    hostGetArr c x i s = .refused .elementHoldsNoValue ↔
      x = .lanes ∧ 25 ≤ i ∨ x = .fb ∧ 32 ≤ i ∨ x = .ib ∧ (s.vIB = false ∨ 32 ≤ i) ∨
        x ∈ [.nkey, .table] ∧ (s.cipher.csv.getLsbD 3 = false ∨ 256 ≤ i) ∨
        x = .addx ∧ (s.cipher.csv.getLsbD 1 = false ∨ ∃ ws, s.cipher.addx = some ws ∧ ws.length ≤ i) ∨
        x = .ks ∧ (s.cipher.csv.getLsbD 4 = false ∨ ∃ ks, s.cipher.ks = some ks ∧ ks.length ≤ i) ∨
        (∃ k, x ∈ [.addc k, .mixc k, .invb k]) ∧ 32 ≤ i ∨ x ∈ [.sbox, .isbox] ∧ 256 ≤ i ∨
        x = .rc ∧ 24 ≤ i ∨ x = .rho ∧ 25 ≤ i ∨ x ∈ [.ikey, .ibuf, .iext, .ierr] ∧ s.items.length ≤ i := by
  have hnone : hostGetArr c x i s = .refused .elementHoldsNoValue ↔ getArr c s x i = none := by
    unfold hostGetArr
    split <;> simp_all
  obtain ⟨-, haddx, -, htables, hks, -⟩ := csv_bits s.cipher
  rw [hnone, haddx, htables, hks]
  cases x with
  | lanes | fb | sbox | rc | addc | mixc | invb => simp [getArr, numberAt_eq_none_iff, addcSet]
  | isbox => simp [getArr, numberAt_eq_none_iff, isboxList]
  | ib => simp [getArr, numberAtValid_map_eq_none_iff (f := Vector.toList) fun g => g.length_toList, State.vIB]
  | nkey =>
    simp [getArr, numberAtValid_map_eq_none_iff (f := fun t : KeyTables => t.nkey.toList) fun t => t.nkey.length_toList]
  | table =>
    simp [getArr, numberAtValid_map_eq_none_iff (f := fun t : KeyTables => t.table.toList) fun t => t.table.length_toList]
  | addx | ks => simp [getArr, numberAtValid_eq_none_iff]
  | rho => simp [getArr, rhoList]
  | ikey | ibuf | iext | ierr => simp [getArr]

/-- An item list is refused where it is too long or a field is beyond its capacity (20_memory.md R66). -/
theorem hostLoadItems_refused_iff {c : Config} {s : State} {l : List (Bytes × Bytes × Bytes)} :
    hostLoadItems c l s = .refused .itemsExceedCapacity ↔
      (∃ m, c.nitemsMax = some m ∧ m < l.length) ∨
        ∃ it ∈ l, ∃ m, c.keyMax = some m ∧ m < it.1.length ∨ c.bufMax = some m ∧ m < it.2.1.length := by
  have hfits : hostLoadItems c l s = .refused .itemsExceedCapacity ↔
      within c.nitemsMax l.length = false ∨ ∃ it ∈ l, itemFits c it = false := by
    have hall : within c.nitemsMax l.length = false ∨ (∃ it ∈ l, itemFits c it = false) ↔
        ¬(within c.nitemsMax l.length && l.all (itemFits c)) = true := by
      simp only [Bool.not_eq_true, Bool.and_eq_false_iff, List.all_eq_false]
    rw [hall, hostLoadItems]
    split <;> simp_all
  have hitem : ∀ it, itemFits c it = false ↔
      ∃ m, c.keyMax = some m ∧ m < it.1.length ∨ c.bufMax = some m ∧ m < it.2.1.length := by
    intro it
    simp only [itemFits, Bool.and_eq_false_iff, within_eq_false_iff, exists_or, and_comm]
  simp only [hfits, hitem, within_eq_false_iff, and_comm]

/-- Settles O60, row by row; a command always answers a next state. -/
theorem hostOperationsAreRefusedAsTheTableSays : Obligations.HostOperationsAreRefusedAsTheTableSays := by
  refine fun c s => ⟨fun _ _ => hostLoad_refused_iff, fun _ _ => hostReadByte_refused_iff,
    fun _ _ => hostSetReg_refused_iff, fun _ => hostGetReg_refused_iff, fun _ _ => hostGetArr_refused_iff,
    fun _ => hostLoadItems_refused_iff, ?_⟩
  rintro op (⟨b, rfl⟩ | ⟨i, v, rfl⟩ | ⟨cw, rfl⟩ | rfl)
  · exact ⟨_, rfl⟩
  · exact ⟨_, rfl⟩
  · cases hd : decode cw with
    | ok i =>
      obtain ⟨s', r, hexec⟩ := exec_eq_commit i s
      exact ⟨_, (hostIssue_of_decode hd s).trans hexec⟩
    | error e => exact ⟨_, hostIssue_of_illegal (by simp [hd]) s⟩
  · exact ⟨_, rfl⟩

end Sys2Proof.Machine
end
